-- ==== Sys2Proof/Word.lean ====
section
/-! DEFINITION. The plain data types of CORE: bytes, bus words, elements of the base field Fp and of Fp2,
points (00_scope.md R6, R12 to R14). Nothing here computes a command. -/

namespace Sys2Proof

/-- A byte of the register window (R12, R13). -/
abbrev Byte := BitVec 8

/-- A 32-bit register or bus word (R24, R25, R23). -/
abbrev Word := BitVec 32

/-- The modulus `P` = 2^127 − 1 of the base field (R6). -/
def P : Nat := 0x7FFFFFFFFFFFFFFFFFFFFFFFFFFFFFFF

theorem P_pos : 0 < P := by decide

/-- An element of Fp: "always stored as the unique representative in [0,p)" (R14). The bound is carried by the
type, so a value that is not canonical cannot be built (R112 (a), (c)). -/
abbrev Fp := Fin P

/-- The Fp element congruent to `x`: the exact integer reduced with `mod` (R11, R112 (a)). -/
def Fp.ofNat (x : Nat) : Fp := ⟨x % P, Nat.mod_lt x P_pos⟩

@[simp] theorem Fp.ofNat_val (x : Nat) : (Fp.ofNat x).val = x % P := rfl

/-- An element a + b·i of Fp2, "each component independently canonical mod p" (R14). -/
structure Fp2 where
  re : Fp
  im : Fp
deriving DecidableEq, Repr

/-- An extended point (X, Y, Z, T) (R140). Any four Fp2 values are a `Point`; validity is not checked. -/
structure Point where
  x : Fp2
  y : Fp2
  z : Fp2
  t : Fp2
deriving DecidableEq, Repr

/-- An affine pair (x, y) of Fp2 (R14). -/
structure Affine where
  x : Fp2
  y : Fp2
deriving DecidableEq, Repr

end Sys2Proof
end

