-- ==== Sys2Proof/Machine/Bytes.lean ====
section
/-! DEFINITION. Byte sequences: `le`, `bytes_n`, slices (00_scope.md R13). All multi-byte values are
little-endian (R13, 20_memory.md R52). -/

namespace Sys2Proof.Machine

/-- `le(B)` = Σ B[k]·256^k, the unsigned little-endian integer of `B` (R13). -/
def leNat : List Byte → Nat
  | [] => 0
  | b :: bs => b.toNat + 256 * leNat bs

/-- `bytes_n(v)`, the `n`-byte sequence `B` with `le(B) = v` (R13). For `v ≥ 256^n`, where the spec leaves it
undefined "and no rule applies it to one", it is the low `n` bytes; no use of the model reaches that.
DESIGN CHOICE, log entry 14. -/
def bytesN : Nat → Nat → List Byte
  | 0, _ => []
  | n + 1, v => BitVec.ofNat 8 v :: bytesN n (v / 256)

/-- `zero_n`, `n` bytes 0x00 (R13). -/
def zeroBytes (n : Nat) : List Byte := List.replicate n 0

/-- `B[i : i + n]` (R13). It always has `n` bytes; a byte past the end of `B`, which no rule reads, is 0x00.
DESIGN CHOICE, log entry 14. -/
def slice (bs : List Byte) (i n : Nat) : List Byte := (List.range n).map fun k => bs.getD (i + k) 0

/-- `B[k]` (R13). -/
def byteAt (bs : List Byte) (k : Nat) : Byte := bs.getD k 0

end Sys2Proof.Machine
end

