-- ==== Sys2Proof/Syntax.lean ====
section
/-! DEFINITION. The 36 commands of CORE command set 1.0, one constructor per row of `spec/opcode_table.json`
(30_encoding.md R80). A command word has no operand fields (R70): which slots a command reads and writes is fixed by
the command (R79), so no constructor has an argument. -/

namespace Sys2Proof

/-- The commands, in the order of the opcode map (R80). "Instruction" means "command" (00_scope.md R2). -/
inductive Instr where
  | nop
  | fpAdd | fpSub | fpNeg | fpMul | fpSqr | fpDiv2 | fpInv | fpSqrt | fpCanon
  | f2Add | f2Sub | f2Neg | f2Mul | f2Sqr | f2Inv | f2Sqrt
  | ptAdd | ptDbl | ptAffine | ptOncurve | ptSmul | ptSmulb | ptSign
  | ptEnc | ptDec | valPk | valSig | chkPk | chkSig
  | scRed | scMul | scSub
  | keygen | sign | verify
deriving DecidableEq, Repr

end Sys2Proof
end

