-- ==== Sys2Proof/WellFormed.lean ====
section
/-! DEFINITION. Well-formedness. A command has no operands (30_encoding.md R70), so every term of `Instr` is well
formed; what can be ill formed is a command WORD: reserved bits that are not zero, or an opcode that is not one of the
36 of R80 (R71). -/

namespace Sys2Proof

/-- Every command is well formed: it has no field that could hold a wrong value (R70). -/
def Instr.wf (_ : Instr) : Bool := true

/-- RSV, bits 31:8 of a command word, "reserved, must be zero" (R70). -/
def reservedZero (w : Word) : Bool := w.extractLsb' 8 24 == 0

/-- OPC, bits 7:0, is one of the 36 opcodes of R80, given as R81 gives the complement: family by family. -/
def opcodeAssigned (w : Word) : Bool :=
  let opc := (w.extractLsb' 0 8).toNat
  opc == 0x00 || (0x10 ≤ opc && opc ≤ 0x18) || (0x20 ≤ opc && opc ≤ 0x26) || (0x30 ≤ opc && opc ≤ 0x36)
    || (0x40 ≤ opc && opc ≤ 0x45) || (0x50 ≤ opc && opc ≤ 0x52) || (0x60 ≤ opc && opc ≤ 0x62)

/-- A command word that is not illegal (R71). -/
def commandWordWf (w : Word) : Bool := reservedZero w && opcodeAssigned w

end Sys2Proof
end

