-- ==== Sys2Proof/Decode.lean ====
section
/-! DEFINITION. The decoder of command words (30_encoding.md R70, R71, R80, R81) and, after it, the encoder. -/

namespace Sys2Proof

/-- Why a word is an illegal command (R71). An illegal command is no refusal of the machine: it is accepted and
completes with `E_ILLEGAL_CMD` (see `Sys2Proof.Machine.coreStep`). -/
inductive DecodeError where
  /-- bits 31:8 are not zero (R70, R71) -/
  | reservedBits
  /-- bits 7:0 are not one of the 36 opcodes (R71, R81) -/
  | unknownOpcode
  /-- fewer than the four bytes of a command word were given; never the case for a word written to CMD;
  DESIGN CHOICE, log entry 15 -/
  | truncated
deriving DecidableEq, Repr

/-- A row of the opcode map: OPC and the command it selects (R80). -/
abbrev OpcodeRow := BitVec 8 × Instr

/-- Family 0 of R80, system. -/
def opcodesSystem : List OpcodeRow := [(0x00, .nop)]

/-- Family 1 of R80, Fp. -/
def opcodesFp : List OpcodeRow :=
  [(0x10, .fpAdd), (0x11, .fpSub), (0x12, .fpNeg), (0x13, .fpMul), (0x14, .fpSqr), (0x15, .fpDiv2), (0x16, .fpInv),
    (0x17, .fpSqrt), (0x18, .fpCanon)]

/-- Family 2 of R80, Fp2. -/
def opcodesFp2 : List OpcodeRow :=
  [(0x20, .f2Add), (0x21, .f2Sub), (0x22, .f2Neg), (0x23, .f2Mul), (0x24, .f2Sqr), (0x25, .f2Inv), (0x26, .f2Sqrt)]

/-- Family 3 of R80, point group. -/
def opcodesPoint : List OpcodeRow :=
  [(0x30, .ptAdd), (0x31, .ptDbl), (0x32, .ptAffine), (0x33, .ptOncurve), (0x34, .ptSmul), (0x35, .ptSmulb),
    (0x36, .ptSign)]

/-- Family 4 of R80, codec and validators. -/
def opcodesCodec : List OpcodeRow :=
  [(0x40, .ptEnc), (0x41, .ptDec), (0x42, .valPk), (0x43, .valSig), (0x44, .chkPk), (0x45, .chkSig)]

/-- Family 5 of R80, scalar. -/
def opcodesScalar : List OpcodeRow := [(0x50, .scRed), (0x51, .scMul), (0x52, .scSub)]

/-- Family 6 of R80, protocol. -/
def opcodesProtocol : List OpcodeRow := [(0x60, .keygen), (0x61, .sign), (0x62, .verify)]

/-- The opcode map (R80): 36 rows. -/
def opcodeMap : List OpcodeRow :=
  opcodesSystem ++ opcodesFp ++ opcodesFp2 ++ opcodesPoint ++ opcodesCodec ++ opcodesScalar ++ opcodesProtocol

/-- Decoding a command word (R71). Total: every 32-bit value is either one of the 36 commands or illegal. -/
def decode (w : Word) : Except DecodeError Instr :=
  if w.extractLsb' 8 24 ≠ 0 then .error .reservedBits
  else match opcodeMap.lookup (w.extractLsb' 0 8) with
    | some i => .ok i
    | none => .error .unknownOpcode

/-- Decoding the bytes of a command word as they lie in the window at offset 0x000, little-endian (R52). -/
def decodeBytes (bs : List Byte) : Except DecodeError Instr :=
  if bs.length < 4 then .error .truncated
  else decode (BitVec.ofNat 32 (Machine.leNat (bs.take 4)))

/-- The instruction the decoder reads from a row of `spec/opcode_table.json`: the low `nbits` bits of `w`, all
higher bits zero, laid out as the four bytes of a command word. -/
def decodeTableWord (nbits w : Nat) : Option Instr :=
  match decodeBytes (Machine.bytesN 4 (w % 2 ^ nbits)) with
  | .ok i => some i
  | .error _ => none

/-- The command word of a command (R80, column "command word"). -/
def encode : Instr → Word
  | .nop => 0x00000000
  | .fpAdd => 0x00000010
  | .fpSub => 0x00000011
  | .fpNeg => 0x00000012
  | .fpMul => 0x00000013
  | .fpSqr => 0x00000014
  | .fpDiv2 => 0x00000015
  | .fpInv => 0x00000016
  | .fpSqrt => 0x00000017
  | .fpCanon => 0x00000018
  | .f2Add => 0x00000020
  | .f2Sub => 0x00000021
  | .f2Neg => 0x00000022
  | .f2Mul => 0x00000023
  | .f2Sqr => 0x00000024
  | .f2Inv => 0x00000025
  | .f2Sqrt => 0x00000026
  | .ptAdd => 0x00000030
  | .ptDbl => 0x00000031
  | .ptAffine => 0x00000032
  | .ptOncurve => 0x00000033
  | .ptSmul => 0x00000034
  | .ptSmulb => 0x00000035
  | .ptSign => 0x00000036
  | .ptEnc => 0x00000040
  | .ptDec => 0x00000041
  | .valPk => 0x00000042
  | .valSig => 0x00000043
  | .chkPk => 0x00000044
  | .chkSig => 0x00000045
  | .scRed => 0x00000050
  | .scMul => 0x00000051
  | .scSub => 0x00000052
  | .keygen => 0x00000060
  | .sign => 0x00000061
  | .verify => 0x00000062

/-- The bytes of a command word as a host stores them at window offset 0x000 (R52). -/
def encodeBytes (i : Instr) : List Byte := Machine.bytesN 4 (encode i).toNat

end Sys2Proof
end

