-- ==== Sys2Proof/Machine/State.lean ====
section
/-! DEFINITION. The state of CORE and of the agents around it, as plain data (10_state.md R20 to R32), the reasons
a step can stop, and the state after reset. -/

namespace Sys2Proof.Machine

/-- The register window's byte memory: (window offset, byte) pairs, offsets strictly rising, no byte 0x00. An
offset that is not listed reads 0x00: the reset value of every byte of IN and OUT (R32), and what every reserved
offset reads (20_memory.md R51). DEDUCED, log entry 13. -/
abbrev Memory := List Host.Cell

/-- The error causes (60_exceptions.md R231), in the order of their codes 1 to 9. -/
inductive ErrCode where
  | illegalCmd
  | invalidLength
  | domain
  | noncanonical
  | noRoot
  | offCurve
  | range
  | badPubkey
  | badSignature
deriving DecidableEq, Repr

/-- The stored fields of STATUS (R25). BUSY (bit 0) is not stored a second time: it is 1 exactly while SNAP exists
(R27), see `State.busy` (DEDUCED, log entry 8). The reserved bits 7:4 and 31:16 have no storage, they read 0 (see `State.statusWord`). -/
structure Status where
  /-- bit 1: 1 from Complete until the next Accept or reset -/
  done : Bool
  /-- bit 2: the last completed command raised an error -/
  err : Bool
  /-- bit 3: the flag of the last completed command (R26) -/
  flag : Bool
  /-- bits 15:8: the error code of the last completed command, 0 if ERR = 0 -/
  errCode : BitVec 8
deriving DecidableEq, Repr

/-- SNAP, the hidden operand snapshot (R27): the 256 bytes of IN and the three length registers, as they were at
Accept. -/
structure Snap where
  bytes : List Byte
  len0 : Word
  len1 : Word
  len2 : Word
deriving DecidableEq, Repr

/-- What happens next at CORE's boundary. The window has one port and takes host accesses one at a time, in the
order they arrive (R57); CORE's own step falls between two of them (R56). -/
inductive Event where
  /-- the host performs `WinRead(off, n)` (R53) -/
  | winRead (off n : Nat)
  /-- the host performs `WinWrite(off, n, v)` (R54) -/
  | winWrite (off n v : Nat)
  /-- the reset input `rst` is applied (70_reset_and_hazards.md R260) -/
  | rst
  /-- no host access in this step: CORE takes its own step, if one is enabled (46_system.md R221) -/
  | core
deriving DecidableEq, Repr

/-- The whole state. The fields down to `snap` are CORE's own (R31 lists them); the last three are the model's, for
the agents around CORE. -/
structure State where
  /-- CMD, the last accepted command word (R24) -/
  cmd : Word
  /-- STATUS but for BUSY (R25) -/
  status : Status
  /-- LEN0 (R23) -/
  len0 : Word
  /-- LEN1 (R23) -/
  len1 : Word
  /-- LEN2 (R23) -/
  len2 : Word
  /-- IN at window offsets 0x100 to 0x1FF (R21) and OUT at 0x200 to 0x27F (R22) -/
  mem : Memory
  /-- SNAP; it exists exactly while a command is in flight (R27) -/
  snap : Option Snap
  /-- the model's own, standing for the host and the reset pin: what happens next, first event first. When it is
  empty the host is silent and CORE moves. DESIGN CHOICE, log entry 1. -/
  script : List Event
  /-- the model's own: the bus value the window gave the host's last `WinRead` (R53); log entry 2 -/
  readData : Option Word
  /-- the model's own: the messages that the command completed last presented at the XOF port, in order, each with
  output length 64 (20_memory.md R62); log entry 3 -/
  xofCalls : List (List Byte)
deriving DecidableEq, Repr

/-- `STATUS.BUSY`: 1 from Accept to Complete (R25), which is while SNAP exists (R27). -/
def State.busy (s : State) : Bool := s.snap.isSome

/-- Why a step stops with a fault. -/
inductive Fault where
  /-- Raised by the meaning of a command when no command is in flight: the Complete step is enabled only when
  `STATUS.BUSY` = 1 (R221), so CORE has no such step. `step` never reaches it. Safe. DESIGN CHOICE, log entry 10. -/
  | noCommandInFlight
deriving DecidableEq, Repr

/-- Why a step is refused. -/
inductive Refusal where
  /-- Raised by an arm of `exec` for a command that has no meaning yet. No arm does. Safe. -/
  | notModelled (mnemonic : String)
  /-- Raised by `step` for a host access that is an access error (R55): the window answers with a bus error response
  and no state of CORE changes, and "a model should refuse such a host step". Safe: the hardware goes on. DESIGN CHOICE,
  log entry 9. -/
  | accessError (off n : Nat)
deriving DecidableEq, Repr

/-- The state after reset (R32): "Nothing is left unspecified at reset." The three fields of the model hold nothing:
the host has asked for nothing yet. -/
def State.reset : State where
  cmd := 0x00000000
  status := { done := false, err := false, flag := false, errCode := 0 }
  len0 := 0
  len1 := 0
  len2 := 0
  mem := []
  snap := none
  script := []
  readData := none
  xofCalls := []

end Sys2Proof.Machine
end

