-- ==== Sys2Proof/Machine/Flags.lean ====
section
/-! DEFINITION. STATUS: the error code numbers, the word a host reads, the values the Accept and Complete steps
write, and the one flag (10_state.md R25, R26; 60_exceptions.md R231). -/

namespace Sys2Proof.Machine

/-- ERRCODE, the number of an error cause (R231). -/
def errNumber : ErrCode → BitVec 8
  | .illegalCmd => 1
  | .invalidLength => 2
  | .domain => 3
  | .noncanonical => 4
  | .noRoot => 5
  | .offCurve => 6
  | .range => 7
  | .badPubkey => 8
  | .badSignature => 9

/-- What Accept (R220) and reset (R260) leave in STATUS but for BUSY: every field 0. -/
def statusClear : Status := { done := false, err := false, flag := false, errCode := 0 }

/-- STATUS after `return Ok(out, flag)` (R221). -/
def statusOk (flag : Bool) : Status := { done := true, err := false, flag := flag, errCode := 0 }

/-- STATUS after `raise E_x` (R221, R235). -/
def statusErr (e : ErrCode) : Status := { done := true, err := true, flag := false, errCode := errNumber e }

/-- The 32-bit word of STATUS, field by field from bit 31 down: reserved, ERRCODE, reserved, FLAG, ERR, DONE, BUSY
(R25). -/
def State.statusWord (s : State) : Word :=
  0#16 ++ s.status.errCode ++ 0#4 ++ BitVec.ofBool s.status.flag ++ BitVec.ofBool s.status.err
    ++ BitVec.ofBool s.status.done ++ BitVec.ofBool s.busy

/-- FLAG of FP_SQRT and F2_SQRT: 1 = Found, 0 = NoRoot (R26). -/
def flagFound {α : Type} (r : Option α) : Bool := r.isSome

/-- FLAG of PT_SIGN: the sign bit (R26); a `Bit` is 0 or 1 (00_scope.md R14). -/
def flagBit (b : Nat) : Bool := b == 1

end Sys2Proof.Machine
end

