-- ==== Sys2Proof/Machine/Ops.lean ====
section
/-! DEFINITION. The named operations: the window memory, the Accept and Complete steps, raising an error, reset, and
the host's `WinRead` and `WinWrite`. -/

namespace Sys2Proof.Machine

/-! ## The window map (20_memory.md R51) -/

/-- IN begins at window offset 0x100. -/
def inBase : Nat := 0x100
/-- IN has 256 bytes (10_state.md R21). -/
def inSize : Nat := 256
/-- OUT begins at window offset 0x200. -/
def outBase : Nat := 0x200
/-- OUT has 128 bytes (R22). -/
def outSize : Nat := 128
/-- The window has 1024 bytes (R50). -/
def windowSize : Nat := 0x400
/-- CMD, STATUS and LEN0 to LEN2 take the offsets below 0x014. -/
def regsEnd : Nat := 0x014

/-- The window offset `a` is a byte of IN. -/
def isIn (a : Nat) : Bool := inBase ≤ a && a < inBase + inSize

/-- The window offset `a` is a byte of OUT. -/
def isOut (a : Nat) : Bool := outBase ≤ a && a < outBase + outSize

/-! ## Memory -/

/-- The byte at window offset `a`; 0x00 if it is not listed. -/
def Memory.read : Memory → Nat → Byte
  | [], _ => 0
  | c :: m, a => if c.1 = a then c.2 else Memory.read m a

/-- The canonical form: offsets strictly rising, no entry equal to what an unlisted offset reads. -/
abbrev Memory.wf (m : Memory) : Prop := m.Pairwise (fun c d => c.1 < d.1) ∧ ∀ c ∈ m, c.2 ≠ 0

/-- The entries for the bytes `bs` from offset `a` on: those that are not 0x00. -/
def cellsOf : Nat → List Byte → Memory
  | _, [] => []
  | a, b :: bs => if b = 0 then cellsOf (a + 1) bs else (a, b) :: cellsOf (a + 1) bs

/-- The bytes `bs` replace those at offsets `a` to `a + len(bs) − 1`. -/
def Memory.writeRange (m : Memory) (a : Nat) (bs : List Byte) : Memory :=
  m.filter (fun c => c.1 < a) ++ cellsOf a bs ++ m.filter (fun c => a + bs.length ≤ c.1)

/-- The `n` bytes from offset `a` on. -/
def Memory.readRange (m : Memory) (a n : Nat) : List Byte := (List.range n).map fun k => m.read (a + k)

/-- `OUT <- v` (00_scope.md R15): all 128 bytes; `v` is followed by 0x00 up to 128 bytes (R22). -/
def Memory.setOut (m : Memory) (v : List Byte) : Memory :=
  m.writeRange outBase ((v ++ zeroBytes outSize).take outSize)

/-! ## Outcomes of a command -/

/-- What `return Ok(out, flag)` returns (R15, R230). -/
structure CmdReturn where
  out : List Byte
  flag : Bool
deriving DecidableEq, Repr

/-- A command ends in exactly one of two ways: `return Ok(out, flag)` or `raise E_x` (R230). -/
abbrev CmdOutcome := Except ErrCode CmdReturn

/-- The run of a command on its snapshot: its outcome, and the messages it presents at the XOF port (R62). -/
structure CmdRun where
  outcome : CmdOutcome
  xofCalls : List (List Byte)

/-! ## Accept, Complete, raise -/

/-- The copy that Accept takes into SNAP (R27, R220). -/
def State.takeSnap (s : State) : Snap where
  bytes := s.mem.readRange inBase inSize
  len0 := s.len0
  len1 := s.len1
  len2 := s.len2

/-- The Accept step with command word `w` (R220). Every word is accepted, legal or not. It is also what clears an
error record: there is no other return from an error (60_exceptions.md R236). -/
def State.accept (s : State) (w : Word) : State :=
  { s with
    cmd := w
    snap := some s.takeSnap
    mem := s.mem.setOut []
    status := statusClear
    xofCalls := [] }

/-- The Ok arm of the Complete step (R221): `OUT <- out ‖ zero`, STATUS, SNAP discarded. -/
def State.publish (s : State) (r : CmdReturn) : State :=
  { s with mem := s.mem.setOut r.out, status := statusOk r.flag, snap := none }

/-- TAKING AN ERROR: the error arm of the Complete step and nothing more (R221, R235). Nothing is saved, no mode
changes, control goes nowhere; CMD, IN and LENk are untouched. -/
def State.raiseError (s : State) (e : ErrCode) : State :=
  { s with mem := s.mem.setOut [], status := statusErr e, snap := none }

/-- The Complete step with a given run of the command in flight (R221). -/
def State.complete (s : State) (r : CmdRun) : State :=
  match r.outcome with
  | .ok ret => { s.publish ret with xofCalls := r.xofCalls }
  | .error e => { s.raiseError e with xofCalls := r.xofCalls }

/-- The meaning of a command: it computes from SNAP only (R27), and CORE's Complete step publishes the outcome. The
step is enabled only while a command is in flight (R221). -/
def runCommand (f : Snap → CmdRun) (s : State) : Host.Outcome State Fault Refusal :=
  match s.snap with
  | none => .fault .noCommandInFlight
  | some sn => .next (s.complete (f sn))

/-- The meaning of a command that does not use the XOF port: every command but KEYGEN, SIGN and VERIFY (R62). -/
def runPure (f : Snap → CmdOutcome) (s : State) : Host.Outcome State Fault Refusal :=
  runCommand (fun sn => { outcome := f sn, xofCalls := [] }) s

/-- The meaning of an illegal command word: `raise E_ILLEGAL_CMD`, no operand looked at (R71, R234). -/
def execIllegal (s : State) : Host.Outcome State Fault Refusal :=
  runPure (fun _ => .error .illegalCmd) s

/-- The reset step (R260): CORE's whole state; a command in flight is abandoned. The host's script and what it has
read are outside CORE and stay: DESIGN CHOICE, log entry 16. -/
def State.applyReset (s : State) : State :=
  { State.reset with script := s.script, readData := s.readData }

/-! ## Host accesses (R53 to R55) -/

/-- The access is none of R55's access errors: 1, 2 or 4 bytes, aligned, inside the window, and 32 bits wide where it
touches CMD, STATUS or LENk. -/
def accessLegal (off n : Nat) : Bool :=
  (n == 1 || n == 2 || n == 4) && off % n == 0 && off + n ≤ windowSize && (regsEnd ≤ off || n == 4)

/-- A byte of the window at `regsEnd` or above: the IN byte, the OUT byte, or 0x00 for a reserved offset (R53). -/
def State.windowByte (s : State) (a : Nat) : Byte := if isIn a || isOut a then s.mem.read a else 0

/-- `WinRead(off, n)` (R53): the value read, or `none` for an access error, which returns no data (R55). -/
def State.winRead (s : State) (off n : Nat) : Option Word :=
  if accessLegal off n then
    some (match off with
      | 0x000 => s.cmd
      | 0x004 => s.statusWord
      | 0x008 => s.len0
      | 0x00C => s.len1
      | 0x010 => s.len2
      | _ => BitVec.ofNat 32 (leNat ((List.range n).map fun k => s.windowByte (off + k))))
  else none

/-- The `CMD` write (R24): Accept when idle, nothing at all while BUSY (R266). -/
def State.writeCmd (s : State) (w : Word) : State := if s.busy then s else s.accept w

/-- `WinWrite(off, n, v)` (R54), for `v < 256^n`: the state after it, or `none` for an access error (R55). A write to
STATUS, OUT or a reserved range changes nothing. -/
def State.winWrite (s : State) (off n v : Nat) : Option State :=
  if accessLegal off n && v < 256 ^ n then
    some (match off with
      | 0x000 => s.writeCmd (BitVec.ofNat 32 v)
      | 0x008 => { s with len0 := BitVec.ofNat 32 v }
      | 0x00C => { s with len1 := BitVec.ofNat 32 v }
      | 0x010 => { s with len2 := BitVec.ofNat 32 v }
      | _ => if isIn off then { s with mem := s.mem.writeRange off (bytesN n v) } else s)
  else none

/-- The events that make CORE's turn the next one: none when the host is silent already. -/
def coreNext : List Event → List Event
  | [] => []
  | es => .core :: es

/-- A command word placed in flight, whatever CORE was doing: the Accept step with `w`, and CORE moves next. -/
def State.placeCommand (s : State) (w : Word) : State :=
  { s.accept w with script := coreNext s.script }

end Sys2Proof.Machine
end

