-- ==== Sys2Proof/Machine/Operands.lean ====
section
/-! DEFINITION. Data formats and operand forms (30_encoding.md R72 to R79; 40_fp.md R100, R101). Every operand is
cut from the snapshot, never from the visible IN (10_state.md R27). -/

namespace Sys2Proof.Machine

/-! ## Formats -/

/-- `fp_dec(B)` = le(B) mod P, for 16 bytes; it never fails (R72, R100). -/
def fpDec (b : List Byte) : Fp := Fp.ofNat (leNat b)

/-- `fp_enc(a)` = bytes_16(a), with the document's "defensive invariant check" (R101; log entry 18). -/
def fpEnc (a : Fp) : Except ErrCode (List Byte) :=
  if 2 ^ 128 ≤ a.val then .error .range else .ok (bytesN 16 a.val)

/-- `f2_dec(B)`, real part first (R73). -/
def f2Dec (b : List Byte) : Fp2 := { re := fpDec (slice b 0 16), im := fpDec (slice b 16 16) }

/-- `f2_enc((a, b))` = fp_enc(a) ‖ fp_enc(b) (R73). -/
def f2Enc (x : Fp2) : Except ErrCode (List Byte) := do
  let re ← fpEnc x.re
  let im ← fpEnc x.im
  return re ++ im

/-- `pt_dec(B)`, format PT128: X, Y, Z, T; no check is made on reading (R74). -/
def ptDec (b : List Byte) : Point :=
  { x := f2Dec (slice b 0 32), y := f2Dec (slice b 32 32), z := f2Dec (slice b 64 32), t := f2Dec (slice b 96 32) }

/-- `pt_enc128(P)` = f2_enc(X) ‖ f2_enc(Y) ‖ f2_enc(Z) ‖ f2_enc(T) (R74). -/
def ptEnc128 (p : Point) : Except ErrCode (List Byte) := do
  let x ← f2Enc p.x
  let y ← f2Enc p.y
  let z ← f2Enc p.z
  let t ← f2Enc p.t
  return x ++ y ++ z ++ t

/-- `sc_int(B)` = le(B), not reduced (R75). -/
def scInt (b : List Byte) : Nat := leNat b

/-! ## Operand forms (R79) -/

/-- `S[k]`, the 32 bytes of operand slot k of the snapshot (R15, R21). -/
def Snap.slot (sn : Snap) (k : Nat) : List Byte := slice sn.bytes (32 * k) 32

/-- An Fp operand: "lo" means bytes [0:16] of the slot, the upper 16 bytes are ignored. -/
def Snap.fpOperand (sn : Snap) (k : Nat) : Fp := fpDec (slice (sn.slot k) 0 16)

/-- An Fp2 operand: a whole slot. -/
def Snap.f2Operand (sn : Snap) (k : Nat) : Fp2 := f2Dec (sn.slot k)

/-- A point operand: four consecutive slots, S0..S3 or S4..S7 (R74). -/
def Snap.ptOperand (sn : Snap) (k : Nat) : Point :=
  ptDec (sn.slot k ++ sn.slot (k + 1) ++ sn.slot (k + 2) ++ sn.slot (k + 3))

/-- A scalar operand: a whole slot as an integer in [0, 2^256), not reduced (R75). -/
def Snap.scOperand (sn : Snap) (k : Nat) : Nat := scInt (sn.slot k)

/-- The byte-sequence operand with length register `len`, base `base` and required length `required` (R78): its
bytes, or `none` when the length is not the required one, and then no byte is read. -/
def Snap.bytesOperand (sn : Snap) (len : Word) (base required : Nat) : Option (List Byte) :=
  if len.toNat = required then some (slice sn.bytes base required) else none

end Sys2Proof.Machine
end

