-- ==== Sys2Proof/Machine/Fp.lean ====
section
/-! DEFINITION. The Fp family (40_fp.md R102 to R112): the base field functions, and the nine commands. -/

namespace Sys2Proof.Machine

/-! ## Functions. The exact integer result is formed and reduced with `mod` (R112 (a)). -/

/-- `fp_add(a, b) = (a + b) mod P` (R102). -/
def fpAdd (a b : Fp) : Fp := Fp.ofNat (a.val + b.val)

/-- `fp_sub(a, b)`: a − b if a ≥ b, else a − b + P (R103). -/
def fpSub (a b : Fp) : Fp := Fp.ofNat (if b.val ≤ a.val then a.val - b.val else a.val + P - b.val)

/-- `fp_neg(a)`: 0 if a = 0, else P − a (R104). -/
def fpNeg (a : Fp) : Fp := Fp.ofNat (if a.val = 0 then 0 else P - a.val)

/-- `fp_mul(a, b) = (a · b) mod P`, the Fp modular multiplier (R105). -/
def fpMul (a b : Fp) : Fp := Fp.ofNat (a.val * b.val)

/-- `fp_sqr(a) = fp_mul(a, a)` (R106). -/
def fpSqr (a : Fp) : Fp := fpMul a a

/-- `fp_div2(a)`: "if even, shift right; else add p then shift" (R107). -/
def fpDiv2 (a : Fp) : Fp := Fp.ofNat (if a.val % 2 = 0 then a.val / 2 else (a.val + P) / 2)

/-- The loop of `fpPow`, one exponent bit at a time from the least significant; `n` bounds the bits of `e`. -/
def fpPowLoop : Nat → Fp → Fp → Nat → Fp
  | 0, acc, _, _ => acc
  | n + 1, acc, b, e =>
    if e = 0 then acc else fpPowLoop n (if e % 2 = 1 then fpMul acc b else acc) (fpMul b b) (e / 2)

/-- `fp_pow(a, e)` = a^e mod P, by "binary exponentiation"; fp_pow(a, 0) = 1 (R108). -/
def fpPow (a : Fp) (e : Nat) : Fp := fpPowLoop (e.log2 + 1) (Fp.ofNat 1) a e

/-- `fp_inv(a)` = a^(P − 2), E_DOMAIN if a = 0 (R109). -/
def fpInv (a : Fp) : Except ErrCode Fp :=
  if a.val = 0 then .error .domain else .ok (fpPow a (P - 2))

/-- `fp_sqrt(a)`: the candidate a^((P + 1)/4) if its square is `a`, else NoRoot (R110). The root returned is the
candidate itself, never its negative. -/
def fpSqrt (a : Fp) : Option Fp :=
  let c := fpPow a ((P + 1) / 4)
  if fpSqr c = a then some c else none

/-! ## What the commands compute from the snapshot -/

/-- A command that returns one Fp element (FP16) and FLAG 0 (R79). -/
def retFp (a : Fp) : CmdOutcome := do
  let b ← fpEnc a
  return { out := b, flag := false }

def fpAddCmd (sn : Snap) : CmdOutcome := retFp (fpAdd (sn.fpOperand 0) (sn.fpOperand 1))

def fpSubCmd (sn : Snap) : CmdOutcome := retFp (fpSub (sn.fpOperand 0) (sn.fpOperand 1))

def fpNegCmd (sn : Snap) : CmdOutcome := retFp (fpNeg (sn.fpOperand 0))

def fpMulCmd (sn : Snap) : CmdOutcome := retFp (fpMul (sn.fpOperand 0) (sn.fpOperand 1))

def fpSqrCmd (sn : Snap) : CmdOutcome := retFp (fpSqr (sn.fpOperand 0))

def fpDiv2Cmd (sn : Snap) : CmdOutcome := retFp (fpDiv2 (sn.fpOperand 0))

def fpInvCmd (sn : Snap) : CmdOutcome := do
  let r ← fpInv (sn.fpOperand 0)
  retFp r

/-- FLAG tells Found(0) from NoRoot, whose bytes are the same (R110). -/
def fpSqrtCmd (sn : Snap) : CmdOutcome :=
  let r := fpSqrt (sn.fpOperand 0)
  match r with
  | some c => do
    let b ← fpEnc c
    return { out := b, flag := flagFound r }
  | none => .ok { out := zeroBytes 16, flag := flagFound r }

def fpCanonCmd (sn : Snap) : CmdOutcome := retFp (fpDec (slice (sn.slot 0) 0 16))

/-! ## Meanings -/

/-- FP_ADD (R102). -/
def execFpAdd (s : State) : Host.Outcome State Fault Refusal := runPure fpAddCmd s

/-- FP_SUB (R103). -/
def execFpSub (s : State) : Host.Outcome State Fault Refusal := runPure fpSubCmd s

/-- FP_NEG (R104). -/
def execFpNeg (s : State) : Host.Outcome State Fault Refusal := runPure fpNegCmd s

/-- FP_MUL (R105). -/
def execFpMul (s : State) : Host.Outcome State Fault Refusal := runPure fpMulCmd s

/-- FP_SQR (R106). -/
def execFpSqr (s : State) : Host.Outcome State Fault Refusal := runPure fpSqrCmd s

/-- FP_DIV2 (R107). -/
def execFpDiv2 (s : State) : Host.Outcome State Fault Refusal := runPure fpDiv2Cmd s

/-- FP_INV (R109). -/
def execFpInv (s : State) : Host.Outcome State Fault Refusal := runPure fpInvCmd s

/-- FP_SQRT (R110). -/
def execFpSqrt (s : State) : Host.Outcome State Fault Refusal := runPure fpSqrtCmd s

/-- FP_CANON (R111). -/
def execFpCanon (s : State) : Host.Outcome State Fault Refusal := runPure fpCanonCmd s

end Sys2Proof.Machine
end

