-- ==== Sys2Proof/Machine/Fp2.lean ====
section
/-! DEFINITION. The Fp2 family (41_fp2.md R120 to R127): the functions over Fp[i]/(i² + 1), and the seven
commands. -/

namespace Sys2Proof.Machine

/-! ## Functions -/

/-- `F2_ZERO` = (0, 0) (R127). -/
def f2Zero : Fp2 := { re := Fp.ofNat 0, im := Fp.ofNat 0 }

/-- `F2_ONE` = (1, 0) (R127). -/
def f2One : Fp2 := { re := Fp.ofNat 1, im := Fp.ofNat 0 }

/-- `F2_I` = (0, 1) (R127). -/
def f2I : Fp2 := { re := Fp.ofNat 0, im := Fp.ofNat 1 }

/-- `f2_add`, componentwise (R120). -/
def f2Add (x y : Fp2) : Fp2 := { re := fpAdd x.re y.re, im := fpAdd x.im y.im }

/-- `f2_sub`, componentwise (R121). -/
def f2Sub (x y : Fp2) : Fp2 := { re := fpSub x.re y.re, im := fpSub x.im y.im }

/-- `f2_neg`, componentwise (R122). -/
def f2Neg (x : Fp2) : Fp2 := { re := fpNeg x.re, im := fpNeg x.im }

/-- `f2_mul` = (ac − bd, ad + bc) (R123). -/
def f2Mul (x y : Fp2) : Fp2 :=
  { re := fpSub (fpMul x.re y.re) (fpMul x.im y.im), im := fpAdd (fpMul x.re y.im) (fpMul x.im y.re) }

/-- `f2_sqr` = (a² − b², 2ab) (R124). -/
def f2Sqr (x : Fp2) : Fp2 :=
  { re := fpSub (fpSqr x.re) (fpSqr x.im), im := fpAdd (fpMul x.re x.im) (fpMul x.re x.im) }

/-- `f2_inv` = conjugate/(a² + b²); E_DOMAIN is fp_inv's, when the norm is 0 (R125). -/
def f2Inv (x : Fp2) : Except ErrCode Fp2 := do
  let ni ← fpInv (fpAdd (fpSqr x.re) (fpSqr x.im))
  return { re := fpMul x.re ni, im := fpMul (fpNeg x.im) ni }

/-- The two attempts of `f2_sqrt`: r = sqrt((a + t)/2), "falling back to" r = sqrt((a − t)/2) (R126). -/
def f2SqrtReal (a t : Fp) : Option Fp :=
  match fpSqrt (fpDiv2 (fpAdd a t)) with
  | some r => some r
  | none => fpSqrt (fpDiv2 (fpSub a t))

/-- The last part of `f2_sqrt`, for a real part `r`: "fail if r=0 ...; compute s=b/(2r); verify (r,s)²=x, else try
negation, else fail" (R126). -/
def f2SqrtFrom (x : Fp2) (r : Fp) : Except ErrCode (Option Fp2) :=
  if r.val = 0 then .ok none
  else do
    let inv2r ← fpInv (fpAdd r r)
    let c : Fp2 := { re := r, im := fpMul x.im inv2r }
    if f2Sqr c = x then return some c
    else if f2Sqr (f2Neg c) = x then return some (f2Neg c)
    else return none

/-- `f2_sqrt`, "the document's algorithm step for step" (R126), its real-only branch as written
(92_eei_decisions.md D29). The rule lists no error; `Except` is there for the error of the `fp_inv` it calls, which
is applied only to 2r with r ≠ 0. -/
def f2Sqrt (x : Fp2) : Except ErrCode (Option Fp2) :=
  if x.im.val = 0 then
    .ok ((fpSqrt x.re).map fun r => { re := r, im := Fp.ofNat 0 })
  else
    match fpSqrt (fpAdd (fpSqr x.re) (fpSqr x.im)) with
    | none => .ok none
    | some t =>
      match f2SqrtReal x.re t with
      | none => .ok none
      | some r => f2SqrtFrom x r

/-! ## What the commands compute from the snapshot -/

/-- A command that returns one Fp2 element (FP2_32) and FLAG 0 (R79). -/
def retF2 (x : Fp2) : CmdOutcome := do
  let b ← f2Enc x
  return { out := b, flag := false }

def f2AddCmd (sn : Snap) : CmdOutcome := retF2 (f2Add (sn.f2Operand 0) (sn.f2Operand 1))

def f2SubCmd (sn : Snap) : CmdOutcome := retF2 (f2Sub (sn.f2Operand 0) (sn.f2Operand 1))

def f2NegCmd (sn : Snap) : CmdOutcome := retF2 (f2Neg (sn.f2Operand 0))

def f2MulCmd (sn : Snap) : CmdOutcome := retF2 (f2Mul (sn.f2Operand 0) (sn.f2Operand 1))

def f2SqrCmd (sn : Snap) : CmdOutcome := retF2 (f2Sqr (sn.f2Operand 0))

def f2InvCmd (sn : Snap) : CmdOutcome := do
  let r ← f2Inv (sn.f2Operand 0)
  retF2 r

/-- FLAG tells Found((0,0)) from NoRoot, whose bytes are the same (R126). -/
def f2SqrtCmd (sn : Snap) : CmdOutcome := do
  let r ← f2Sqrt (sn.f2Operand 0)
  match r with
  | some c => do
    let b ← f2Enc c
    return { out := b, flag := flagFound r }
  | none => return { out := zeroBytes 32, flag := flagFound r }

/-! ## Meanings -/

/-- F2_ADD (R120). -/
def execF2Add (s : State) : Host.Outcome State Fault Refusal := runPure f2AddCmd s

/-- F2_SUB (R121). -/
def execF2Sub (s : State) : Host.Outcome State Fault Refusal := runPure f2SubCmd s

/-- F2_NEG (R122). -/
def execF2Neg (s : State) : Host.Outcome State Fault Refusal := runPure f2NegCmd s

/-- F2_MUL (R123). -/
def execF2Mul (s : State) : Host.Outcome State Fault Refusal := runPure f2MulCmd s

/-- F2_SQR (R124). -/
def execF2Sqr (s : State) : Host.Outcome State Fault Refusal := runPure f2SqrCmd s

/-- F2_INV (R125). -/
def execF2Inv (s : State) : Host.Outcome State Fault Refusal := runPure f2InvCmd s

/-- F2_SQRT (R126). -/
def execF2Sqrt (s : State) : Host.Outcome State Fault Refusal := runPure f2SqrtCmd s

end Sys2Proof.Machine
end

