-- ==== Sys2Proof/Config.lean ====
section
/-! DEFINITION. The configuration of CORE: the constants `Q`, `D`, `GX`, `GY` and the hash collaborator `XOF`
(00_scope.md R7 to R9, 10_state.md R29). Every arithmetic and protocol function takes the configuration as an
argument, so a theorem can be proved for every configuration; the values `exec` runs with stand in
`Sys2Proof/Machine/Params.lean`. -/

namespace Sys2Proof

/-- What an integrator fixes (92_eei_decisions.md D21, D22). It never changes, is in no register, and is the same
for every command (R29); so it is no part of the state. -/
structure Config where
  /-- `Q`, the order of the subgroup (R7). -/
  q : Nat
  /-- `D`, the curve constant (R8). -/
  d : Fp2
  /-- `GX`, the x coordinate of the base point (R8). -/
  gx : Fp2
  /-- `GY`, the y coordinate of the base point (R8). -/
  gy : Fp2
  /-- `XOF(m, n)`, the hash collaborator (R9): a function of `(m, n)` alone. -/
  xof : List Byte → Nat → List Byte

/-- The answer of the hash collaborator where GK4's listing of it does not reach: a message of more than 166
bytes, or more than 168 bytes of output. CORE makes no such call (R200: 32, 64 or 96 bytes in, 64 bytes out).
DESIGN CHOICE (log entry 6), safe: a free value with no body, of which only the length is known (R9). -/
opaque Config.xofBeyond (m : List Byte) (n : Nat) : Vector Byte n

end Sys2Proof
end

