-- ==== Sys2Proof/Machine/Xof.lean ====
section
/-! DEFINITION. The hash function that reproduces the document's vector: KangarooTwelve with an empty customisation
string, on its single-block path (93_implementation_defined.md GK4). It is the value that
`Sys2Proof/Machine/Params.lean` gives to `Config.xof`; no command refers to it by name. -/

namespace Sys2Proof.Machine

/-- A 64-bit lane of the Keccak state. -/
abbrev Lane := BitVec 64

/-- Lane (x, y) of the 25 lanes, at index x + 5y. -/
def laneAt (a : List Lane) (x y : Nat) : Lane := a.getD (x + 5 * y) 0

/-- The column parities C[x] of theta. -/
def keccakParity (a : List Lane) : List Lane :=
  (List.range 5).map fun x => laneAt a x 0 ^^^ laneAt a x 1 ^^^ laneAt a x 2 ^^^ laneAt a x 3 ^^^ laneAt a x 4

/-- theta: Dd[x] = C[(x−1) mod 5] ^ rol(C[(x+1) mod 5], 1); A[x,y] ^= Dd[x]. -/
def keccakTheta (a : List Lane) : List Lane :=
  let c := keccakParity a
  let dd := (List.range 5).map fun x => c.getD ((x + 4) % 5) 0 ^^^ (c.getD ((x + 1) % 5) 0).rotateLeft 1
  (List.range 25).map fun k => a.getD k 0 ^^^ dd.getD (k % 5) 0

/-- One step t of rho and pi: from (x, y) and the lane `cur` read there before, to the next. -/
def keccakRhoPiStep (st : Nat × Nat × Lane × List Lane) (t : Nat) : Nat × Nat × Lane × List Lane :=
  let (x, y, cur, a) := st
  let x' := y
  let y' := (2 * x + 3 * y) % 5
  (x', y', laneAt a x' y', a.set (x' + 5 * y') (cur.rotateLeft ((t + 1) * (t + 2) / 2 % 64)))

/-- rho and pi: 24 steps from (x, y) = (1, 0), cur = A[1,0]. -/
def keccakRhoPi (a : List Lane) : List Lane :=
  ((List.range 24).foldl keccakRhoPiStep (1, 0, laneAt a 1 0, a)).2.2.2

/-- chi: A[x,y] = T[x] ^ ((NOT T[(x+1) mod 5]) AND T[(x+2) mod 5]), row by row. -/
def keccakChi (a : List Lane) : List Lane :=
  (List.range 25).map fun k =>
    let x := k % 5
    let y := k / 5
    laneAt a x y ^^^ (~~~ (laneAt a ((x + 1) % 5) y) &&& laneAt a ((x + 2) % 5) y)

/-- One round with round constant `rc`; the last step, iota, is A[0,0] ^= RC. -/
def keccakRound (a : List Lane) (rc : Lane) : List Lane :=
  (keccakChi (keccakRhoPi (keccakTheta a))).modify 0 (· ^^^ rc)

/-- The round constants of the last 12 rounds, in order. -/
def keccakRc12 : List Lane :=
  [0x000000008000808B, 0x800000000000008B, 0x8000000000008089, 0x8000000000008003,
   0x8000000000008002, 0x8000000000000080, 0x000000000000800A, 0x800000008000000A,
   0x8000000080008081, 0x8000000000008080, 0x0000000080000001, 0x8000000080008008]

/-- KeccakP1600_12: the last 12 rounds of Keccak-f[1600]. -/
def keccakP12 (a : List Lane) : List Lane := keccakRc12.foldl keccakRound a

/-- A lane as its 8 bytes, little-endian. -/
def laneBytes (l : Lane) : List Byte := (List.range 8).map fun k => l.extractLsb' (8 * k) 8

/-- 8 bytes as a lane, little-endian. -/
def laneOf (bs : List Byte) : Lane := bs.foldr (fun b acc => (acc <<< 8) ||| b.setWidth 64) 0

/-- The 200-byte state as 25 lanes. -/
def lanesOf (bs : List Byte) : List Lane := (List.range 25).map fun k => laneOf ((bs.drop (8 * k)).take 8)

/-- The one padded block: m ‖ 0x00 ‖ 0x07 ‖ zeros up to the rate of 168 bytes, the last byte XOR 0x80; then 32 zero
bytes make the 200-byte state. -/
def k12Block (m : List Byte) : List Byte :=
  let s := m ++ [0x00, 0x07]
  (s ++ List.replicate (168 - s.length) 0).modify 167 (· ^^^ 0x80) ++ List.replicate 32 0

/-- XOF(m, n) = KangarooTwelve(m, empty, n) where the listing of GK4 gives it, one block in and one squeeze out;
elsewhere a free value of the right length (log entry 6). -/
def k12Xof (m : List Byte) (n : Nat) : List Byte :=
  if m.length ≤ 166 ∧ n ≤ 168 then
    let out := (keccakP12 (lanesOf (k12Block m))).flatMap laneBytes
    (List.range n).map fun k => out.getD k 0
  else (Config.xofBeyond m n).toList

end Sys2Proof.Machine
end

