-- ==== Sys2Proof/Machine/Params.lean ====
section
/-! DEFINITION. The values `exec` runs with: the constants of 00_scope.md R7 and R8 and the hash function of
93_implementation_defined.md GK4. PRESUMED (log entries 4 and 5): the spec gives them as "the value to use", marked
"from general knowledge, not in source". -/

namespace Sys2Proof.Machine

/-- `Q` (R7, GK1). -/
def orderQ : Nat := 0x0029CBC14E5E0A72F05397829CBC14E5DFBD004DFE0F79992FB2540EC7768CE7

/-- `D` (R8, GK2). -/
def curveD : Fp2 :=
  { re := Fp.ofNat 0x00000000000000E40000000000000142, im := Fp.ofNat 0x5E472F846657E0FCB3821488F1FC0C8D }

/-- `GX` (R8, GK3). -/
def baseGx : Fp2 :=
  { re := Fp.ofNat 0x1A3472237C2FB305286592AD7B3833AA, im := Fp.ofNat 0x1E1F553F2878AA9C96869FB360AC77F6 }

/-- `GY` (R8, GK3). -/
def baseGy : Fp2 :=
  { re := Fp.ofNat 0x0E3FEE9BA120785AB924A2462BCBB287, im := Fp.ofNat 0x6E1C4AF8630E024249A7C344844C8B5C }

/-- The configuration of the machine (R29). -/
def coreConfig : Config where
  q := orderQ
  d := curveD
  gx := baseGx
  gy := baseGy
  xof := k12Xof

end Sys2Proof.Machine
end

