-- ==== Sys2Proof/Machine/Point.lean ====
section
/-! DEFINITION. The point group family (42_point.md R140 to R151): the group law, affine conversion, the on-curve
test, the sign bit, scalar multiplication, and the seven commands. -/

namespace Sys2Proof.Machine

/-! ## Functions -/

/-- `PT_ID` = ((0,0), (1,0), (1,0), (0,0)) (R142). -/
def ptId : Point := { x := f2Zero, y := f2One, z := f2One, t := f2Zero }

/-- `pt_from_affine((x, y)) = (x, y, F2_ONE, f2_mul(x, y))` (R141). -/
def ptFromAffine (a : Affine) : Point := { x := a.x, y := a.y, z := f2One, t := f2Mul a.x a.y }

/-- `GB`, the base point in extended form (R141). -/
def basePoint (cfg : Config) : Point := ptFromAffine { x := cfg.gx, y := cfg.gy }

/-- `pt_on_curve(x, y)`: −x² + y² = 1 + D·x²·y², tested exactly (R143). -/
def ptOnCurve (cfg : Config) (a : Affine) : Bool :=
  let x2 := f2Sqr a.x
  let y2 := f2Sqr a.y
  f2Sub y2 x2 == f2Add f2One (f2Mul cfg.d (f2Mul x2 y2))

/-- `pt_add(P, Q')`, the point adder (R144). The rule's local names in lower case; `dz` is its Dz. -/
def ptAdd (cfg : Config) (p q : Point) : Point :=
  let a := f2Mul (f2Sub p.y p.x) (f2Sub q.y q.x)
  let b := f2Mul (f2Add p.y p.x) (f2Add q.y q.x)
  let c := f2Mul (f2Mul (f2Add cfg.d cfg.d) p.t) q.t
  let dz := f2Mul (f2Add p.z p.z) q.z
  let e := f2Sub b a
  let f := f2Sub dz c
  let g := f2Add dz c
  let h := f2Add b a
  { x := f2Mul e f, y := f2Mul g h, z := f2Mul f g, t := f2Mul e h }

/-- `pt_dbl(P)`, the point doubler (R145). T is not used. `dn` is the rule's Dn. -/
def ptDbl (p : Point) : Point :=
  let a := f2Sqr p.x
  let b := f2Sqr p.y
  let zs := f2Sqr p.z
  let c := f2Add zs zs
  let dn := f2Neg a
  let e := f2Sub (f2Sub (f2Sqr (f2Add p.x p.y)) a) b
  let g := f2Add dn b
  let f := f2Sub g c
  let h := f2Sub dn b
  { x := f2Mul e f, y := f2Mul g h, z := f2Mul f g, t := f2Mul e h }

/-- `pt_affine(P)`: X and Y divided by Z; E_DOMAIN when Z = (0,0) (R146). -/
def ptAffine (p : Point) : Except ErrCode Affine := do
  let zi ← f2Inv p.z
  return { x := f2Mul p.x zi, y := f2Mul p.y zi }

/-- `x_sign(x)`: bit 126 of the real component unless that is zero, then of the imaginary one (R148). -/
def xSign (x : Fp2) : Nat :=
  let c := if x.re.val ≠ 0 then x.re else x.im
  (c.val.testBit 126).toNat

/-- The loop of `pt_smul` (R149); `n` bounds the bits of `k` that are left. -/
def ptSmulLoop (cfg : Config) : Nat → Point → Point → Nat → Point
  | 0, r, _, _ => r
  | n + 1, r, a, k =>
    if k = 0 then r
    else ptSmulLoop cfg n (if k % 2 = 1 then ptAdd cfg r a else r) (ptDbl a) (k / 2)

/-- `pt_smul(P, k)`: "binary double-and-add, scanning the scalar from least-significant bit, accumulating into the
identity", once per bit of `k` up to its highest 1 bit (R149, 92_eei_decisions.md D24). -/
def ptSmul (cfg : Config) (p : Point) (k : Nat) : Point := ptSmulLoop cfg (k.log2 + 1) ptId p k

/-- `pt_smul_base(k) = pt_smul(GB, k)` (R151). -/
def ptSmulBase (cfg : Config) (k : Nat) : Point := ptSmul cfg (basePoint cfg) k

/-! ## What the commands compute from the snapshot -/

/-- A command that returns one point (PT128) and FLAG 0 (R79). -/
def retPt (p : Point) : CmdOutcome := do
  let b ← ptEnc128 p
  return { out := b, flag := false }

/-- A command that returns no bytes and a flag (R79). -/
def retFlag (flag : Bool) : CmdOutcome := .ok { out := [], flag := flag }

def ptAddCmd (cfg : Config) (sn : Snap) : CmdOutcome := retPt (ptAdd cfg (sn.ptOperand 0) (sn.ptOperand 4))

def ptDblCmd (sn : Snap) : CmdOutcome := retPt (ptDbl (sn.ptOperand 0))

def ptAffineCmd (sn : Snap) : CmdOutcome := do
  let a ← ptAffine (sn.ptOperand 0)
  let x ← f2Enc a.x
  let y ← f2Enc a.y
  return { out := x ++ y, flag := false }

def ptOncurveCmd (cfg : Config) (sn : Snap) : CmdOutcome :=
  retFlag (ptOnCurve cfg { x := sn.f2Operand 0, y := sn.f2Operand 1 })

def ptSmulCmd (cfg : Config) (sn : Snap) : CmdOutcome := retPt (ptSmul cfg (sn.ptOperand 0) (sn.scOperand 4))

def ptSmulbCmd (cfg : Config) (sn : Snap) : CmdOutcome := retPt (ptSmulBase cfg (sn.scOperand 0))

def ptSignCmd (sn : Snap) : CmdOutcome := retFlag (flagBit (xSign (sn.f2Operand 0)))

/-! ## Meanings -/

/-- PT_ADD (R144). -/
def execPtAdd (s : State) : Host.Outcome State Fault Refusal := runPure (ptAddCmd coreConfig) s

/-- PT_DBL (R145). -/
def execPtDbl (s : State) : Host.Outcome State Fault Refusal := runPure ptDblCmd s

/-- PT_AFFINE (R146). -/
def execPtAffine (s : State) : Host.Outcome State Fault Refusal := runPure ptAffineCmd s

/-- PT_ONCURVE (R147). -/
def execPtOncurve (s : State) : Host.Outcome State Fault Refusal := runPure (ptOncurveCmd coreConfig) s

/-- PT_SMUL (R150). -/
def execPtSmul (s : State) : Host.Outcome State Fault Refusal := runPure (ptSmulCmd coreConfig) s

/-- PT_SMULB (R151). -/
def execPtSmulb (s : State) : Host.Outcome State Fault Refusal := runPure (ptSmulbCmd coreConfig) s

/-- PT_SIGN (R148). -/
def execPtSign (s : State) : Host.Outcome State Fault Refusal := runPure ptSignCmd s

end Sys2Proof.Machine
end

