-- ==== Sys2Proof/Machine/Codec.lean ====
section
/-! DEFINITION. The codec family (43_codec.md R170 to R177): the 32-byte point encoder and decoder, the structural
validators, and the six commands. -/

namespace Sys2Proof.Machine

/-! ## Functions -/

/-- Byte 31 of an encoding: its top bit cleared and the sign bit ORed in (R170). -/
def withSignBit (sign : Nat) (b : Byte) : Byte := (b &&& 0x7F) ||| BitVec.ofNat 8 (sign * 0x80)

/-- `pt_encode(P) : Bytes(32)` (R170). -/
def ptEncode (p : Point) : Except ErrCode (List Byte) := do
  let a ← ptAffine p
  let e ← f2Enc a.y
  return e.modify 31 (withSignBit (xSign a.x))

/-- The part of `pt_decode` after the guard: the x with x² = (y² − 1)/(D·y² + 1) and the sign asked for, then the
curve test (R171). -/
def ptDecodeY (cfg : Config) (y : Fp2) (sign : Nat) : Except ErrCode Point := do
  let y2 := f2Sqr y
  let num := f2Sub y2 f2One
  let den := f2Add (f2Mul cfg.d y2) f2One
  let di ← f2Inv den
  let root ← f2Sqrt (f2Mul num di)
  match root with
  | none => throw .noRoot
  | some x0 =>
    let x := if xSign x0 ≠ sign then f2Neg x0 else x0
    if ptOnCurve cfg { x := x, y := y } then return ptFromAffine { x := x, y := y }
    else throw .offCurve

/-- `pt_decode(B) : Point` for a 32-byte `B` (R171). After a negation the sign is not tested again. -/
def ptDecode (cfg : Config) (b : List Byte) : Except ErrCode Point :=
  if (byteAt b 15).getLsbD 7 then .error .noncanonical
  else ptDecodeY cfg (f2Dec (b.modify 31 (· &&& 0x7F))) ((byteAt b 31).getLsbD 7).toNat

/-- Bit 7 of byte 15 is 0: the structural rule on an encoded point (R174). -/
def pkStructure (b : List Byte) : Bool := !(byteAt b 15).getLsbD 7

/-- Bit 7 of byte 15 is 0, bits 7:6 of byte 62 are 0, byte 63 is 0x00 (R175). -/
def sigStructure (b : List Byte) : Bool :=
  !(byteAt b 15).getLsbD 7 && (byteAt b 62 &&& 0xC0) == 0 && byteAt b 63 == 0

/-- `valid_pk(n, B)` (R174). -/
def validPk (n : Nat) (b : List Byte) : Bool := n == 32 && pkStructure b

/-- `valid_sig(n, B)` (R175). -/
def validSig (n : Nat) (b : List Byte) : Bool := n == 64 && sigStructure b

/-! ## What the commands compute from the snapshot -/

def ptEncCmd (sn : Snap) : CmdOutcome := do
  let e ← ptEncode (sn.ptOperand 0)
  return { out := e, flag := false }

/-- Errors in the order they are tested: length, guard, domain, no root, off curve (R171, R234). -/
def ptDecCmd (cfg : Config) (sn : Snap) : CmdOutcome :=
  match sn.bytesOperand sn.len0 0 32 with
  | none => .error .invalidLength
  | some b => do
    let p ← ptDecode cfg b
    retPt p

def valPkCmd (sn : Snap) : CmdOutcome :=
  match sn.bytesOperand sn.len0 0 32 with
  | none => retFlag false
  | some b => retFlag (validPk b.length b)

def valSigCmd (sn : Snap) : CmdOutcome :=
  match sn.bytesOperand sn.len0 0 64 with
  | none => retFlag false
  | some b => retFlag (validSig b.length b)

/-- Length before structure (R176, 92_eei_decisions.md D28, D30). -/
def chkPkCmd (sn : Snap) : CmdOutcome :=
  match sn.bytesOperand sn.len0 0 32 with
  | none => .error .invalidLength
  | some b => if pkStructure b then retFlag false else .error .badPubkey

/-- Length before structure; one code for the three structural causes (R177, D30). -/
def chkSigCmd (sn : Snap) : CmdOutcome :=
  match sn.bytesOperand sn.len0 0 64 with
  | none => .error .invalidLength
  | some b => if sigStructure b then retFlag false else .error .badSignature

/-! ## Meanings -/

/-- PT_ENC (R170). -/
def execPtEnc (s : State) : Host.Outcome State Fault Refusal := runPure ptEncCmd s

/-- PT_DEC (R171). -/
def execPtDec (s : State) : Host.Outcome State Fault Refusal := runPure (ptDecCmd coreConfig) s

/-- VAL_PK (R174). -/
def execValPk (s : State) : Host.Outcome State Fault Refusal := runPure valPkCmd s

/-- VAL_SIG (R175). -/
def execValSig (s : State) : Host.Outcome State Fault Refusal := runPure valSigCmd s

/-- CHK_PK (R176). -/
def execChkPk (s : State) : Host.Outcome State Fault Refusal := runPure chkPkCmd s

/-- CHK_SIG (R177). -/
def execChkSig (s : State) : Host.Outcome State Fault Refusal := runPure chkSigCmd s

end Sys2Proof.Machine
end

