-- ==== Sys2Proof/Machine/Scalar.lean ====
section
/-! DEFINITION. The scalar family (44_scalar.md R190 to R193): arithmetic modulo the subgroup order `Q`, on 32-byte
operands that need not be reduced, and the three commands. -/

namespace Sys2Proof.Machine

/-! ## Functions -/

/-- `sc_reduce(A)` = bytes_32(le(A) mod Q) (R190). -/
def scReduce (cfg : Config) (a : List Byte) : List Byte := bytesN 32 (scInt a % cfg.q)

/-- `sc_mul(A, B)` = bytes_32((le(A) · le(B)) mod Q) (R191). -/
def scMul (cfg : Config) (a b : List Byte) : List Byte := bytesN 32 (scInt a * scInt b % cfg.q)

/-- `sc_sub(A, B)` = bytes_32((le(A) − le(B)) mod Q), the `mod` of 00_scope.md R11 on an integer that may be
negative (R192, 90_conflicts.md C6). -/
def scSub (cfg : Config) (a b : List Byte) : List Byte :=
  bytesN 32 (((scInt a : Int) - (scInt b : Int)) % (cfg.q : Int)).toNat

/-! ## What the commands compute from the snapshot -/

/-- A command that returns one scalar (SC32) and FLAG 0 (R79). -/
def retSc (b : List Byte) : CmdOutcome := .ok { out := b, flag := false }

def scRedCmd (cfg : Config) (sn : Snap) : CmdOutcome := retSc (scReduce cfg (sn.slot 0))

def scMulCmd (cfg : Config) (sn : Snap) : CmdOutcome := retSc (scMul cfg (sn.slot 0) (sn.slot 1))

def scSubCmd (cfg : Config) (sn : Snap) : CmdOutcome := retSc (scSub cfg (sn.slot 0) (sn.slot 1))

/-! ## Meanings -/

/-- SC_RED (R190). -/
def execScRed (s : State) : Host.Outcome State Fault Refusal := runPure (scRedCmd coreConfig) s

/-- SC_MUL (R191). -/
def execScMul (s : State) : Host.Outcome State Fault Refusal := runPure (scMulCmd coreConfig) s

/-- SC_SUB (R192). -/
def execScSub (s : State) : Host.Outcome State Fault Refusal := runPure (scSubCmd coreConfig) s

end Sys2Proof.Machine
end

