-- ==== Sys2Proof/Machine/Protocol.lean ====
section
/-! DEFINITION. The protocol family (45_protocol.md R200 to R206): key derivation, signing and verification, and
their calls on the XOF port, each `XOF(m, 64)`. -/

namespace Sys2Proof.Machine

/-- One call on the XOF port: every call asks for 64 bytes (R200). -/
def hash64 (cfg : Config) (m : List Byte) : List Byte := cfg.xof m 64

/-- The transcript Renc ‖ publicKey ‖ messageDigest: no separator, length prefix or domain tag (R200). -/
def transcript (renc pk md : List Byte) : List Byte := renc ++ pk ++ md

/-- A run that ends with an error or a flag before any hash call. -/
def noCalls (o : CmdOutcome) : CmdRun := { outcome := o, xofCalls := [] }

/-- KEYGEN on a 32-byte subSeed (R201): k = le(H[0:32]) mod Q, publicKey = pt_encode(pt_smul_base(k)). -/
def keygenFrom (cfg : Config) (subSeed : List Byte) : CmdRun :=
  let h := hash64 cfg subSeed
  let k := leNat (slice h 0 32) % cfg.q
  { outcome := do
      let e ← ptEncode (ptSmulBase cfg k)
      return { out := e, flag := false }
    xofCalls := [subSeed] }

/-- KEYGEN (R201): the length is tested before anything is read or hashed. -/
def keygenCmd (cfg : Config) (sn : Snap) : CmdRun :=
  match sn.bytesOperand sn.len0 0 32 with
  | none => noCalls (.error .invalidLength)
  | some subSeed => keygenFrom cfg subSeed

/-- Steps 4 to 7 of SIGN (R203), from H1, H2 and Renc: the transcript hash, s = (t − k·h) mod Q, Renc ‖ s. -/
def signFrom (cfg : Config) (h1 h2 renc pk md : List Byte) : List Byte :=
  let h3 := hash64 cfg (transcript renc pk md)
  let t := scReduce cfg (slice h2 0 32)
  let h := scReduce cfg (slice h3 0 32)
  let k := scReduce cfg (slice h1 0 32)
  renc ++ scSub cfg t (scMul cfg k h)

/-- SIGN on 32-byte operands (R203). If `pt_encode` raised, which the rule lists as unreachable, the third call would
not be made (R234; DEDUCED, log entry 17). -/
def signWith (cfg : Config) (subSeed pk md : List Byte) : CmdRun :=
  let h1 := hash64 cfg subSeed
  let nonceInput := slice h1 32 32 ++ md
  let h2 := hash64 cfg nonceInput
  let r := leNat (slice h2 0 32) % cfg.q
  match ptEncode (ptSmulBase cfg r) with
  | .error e => { outcome := .error e, xofCalls := [subSeed, nonceInput] }
  | .ok renc =>
    { outcome := .ok { out := signFrom cfg h1 h2 renc pk md, flag := false }
      xofCalls := [subSeed, nonceInput, transcript renc pk md] }

/-- SIGN (R203): one E_INVALID_LENGTH covers all three lengths. -/
def signCmd (cfg : Config) (sn : Snap) : CmdRun :=
  match sn.bytesOperand sn.len0 0 32, sn.bytesOperand sn.len1 32 32, sn.bytesOperand sn.len2 64 32 with
  | some subSeed, some pk, some md => signWith cfg subSeed pk md
  | _, _, _ => noCalls (.error .invalidLength)

/-- VERIFY's comparison, for a decoded key `a`, Renc and the scalar bytes of the signature and the answer `h64` of
the hash: E' = pt_encode(s·G + h·A) equals Renc; false if `pt_encode` raises (R205, D27). -/
def verifyEquation (cfg : Config) (a : Point) (renc sBytes h64 : List Byte) : Bool :=
  let h := leNat (scReduce cfg (slice h64 0 32))
  let s := leNat (scReduce cfg sBytes)
  match ptEncode (ptAdd cfg (ptSmulBase cfg s) (ptSmul cfg a h)) with
  | .error _ => false
  | .ok e => e == renc

/-- VERIFY on operands of the right lengths (R205): validators, decode, hash, recompute, compare; the hash is called
only when every earlier step has passed. -/
def verifyWith (cfg : Config) (pk md sig : List Byte) : CmdRun :=
  if !validPk pk.length pk then noCalls (retFlag false)
  else if !validSig sig.length sig then noCalls (retFlag false)
  else
    match ptDecode cfg pk with
    | .error _ => noCalls (retFlag false)
    | .ok a =>
      let renc := slice sig 0 32
      let m := transcript renc pk md
      { outcome := retFlag (verifyEquation cfg a renc (slice sig 32 32) (hash64 cfg m)), xofCalls := [m] }

/-- VERIFY (R205): never raises; wrong lengths give false. -/
def verifyCmd (cfg : Config) (sn : Snap) : CmdRun :=
  match sn.bytesOperand sn.len0 0 32, sn.bytesOperand sn.len1 32 32, sn.bytesOperand sn.len2 64 64 with
  | some pk, some md, some sig => verifyWith cfg pk md sig
  | _, _, _ => noCalls (retFlag false)

/-! ## Meanings -/

/-- KEYGEN (R201). -/
def execKeygen (s : State) : Host.Outcome State Fault Refusal := runCommand (keygenCmd coreConfig) s

/-- SIGN (R203). -/
def execSign (s : State) : Host.Outcome State Fault Refusal := runCommand (signCmd coreConfig) s

/-- VERIFY (R205). -/
def execVerify (s : State) : Host.Outcome State Fault Refusal := runCommand (verifyCmd coreConfig) s

end Sys2Proof.Machine
end

