-- ==== Sys2Proof/Machine/System.lean ====
section
/-! DEFINITION. The system family (46_system.md R222): NOP. -/

namespace Sys2Proof.Machine

/-- `return Ok(empty, 0)` (R222). -/
def nopCmd (_ : Snap) : CmdOutcome := .ok { out := [], flag := false }

/-- NOP (R222): its only effect is that of Accept and Complete. -/
def execNop (s : State) : Host.Outcome State Fault Refusal := runPure nopCmd s

end Sys2Proof.Machine
end

