-- ==== Sys2Proof/Machine/Dispatch.lean ====
section
/-! DEFINITION. `exec`: one arm per command, each one direct call of its meaning. -/

namespace Sys2Proof.Machine

def exec (i : Instr) (s : State) : Host.Outcome State Fault Refusal :=
  match i with
  | .nop => Sys2Proof.Machine.execNop s
  | .fpAdd => Sys2Proof.Machine.execFpAdd s
  | .fpSub => Sys2Proof.Machine.execFpSub s
  | .fpNeg => Sys2Proof.Machine.execFpNeg s
  | .fpMul => Sys2Proof.Machine.execFpMul s
  | .fpSqr => Sys2Proof.Machine.execFpSqr s
  | .fpDiv2 => Sys2Proof.Machine.execFpDiv2 s
  | .fpInv => Sys2Proof.Machine.execFpInv s
  | .fpSqrt => Sys2Proof.Machine.execFpSqrt s
  | .fpCanon => Sys2Proof.Machine.execFpCanon s
  | .f2Add => Sys2Proof.Machine.execF2Add s
  | .f2Sub => Sys2Proof.Machine.execF2Sub s
  | .f2Neg => Sys2Proof.Machine.execF2Neg s
  | .f2Mul => Sys2Proof.Machine.execF2Mul s
  | .f2Sqr => Sys2Proof.Machine.execF2Sqr s
  | .f2Inv => Sys2Proof.Machine.execF2Inv s
  | .f2Sqrt => Sys2Proof.Machine.execF2Sqrt s
  | .ptAdd => Sys2Proof.Machine.execPtAdd s
  | .ptDbl => Sys2Proof.Machine.execPtDbl s
  | .ptAffine => Sys2Proof.Machine.execPtAffine s
  | .ptOncurve => Sys2Proof.Machine.execPtOncurve s
  | .ptSmul => Sys2Proof.Machine.execPtSmul s
  | .ptSmulb => Sys2Proof.Machine.execPtSmulb s
  | .ptSign => Sys2Proof.Machine.execPtSign s
  | .ptEnc => Sys2Proof.Machine.execPtEnc s
  | .ptDec => Sys2Proof.Machine.execPtDec s
  | .valPk => Sys2Proof.Machine.execValPk s
  | .valSig => Sys2Proof.Machine.execValSig s
  | .chkPk => Sys2Proof.Machine.execChkPk s
  | .chkSig => Sys2Proof.Machine.execChkSig s
  | .scRed => Sys2Proof.Machine.execScRed s
  | .scMul => Sys2Proof.Machine.execScMul s
  | .scSub => Sys2Proof.Machine.execScSub s
  | .keygen => Sys2Proof.Machine.execKeygen s
  | .sign => Sys2Proof.Machine.execSign s
  | .verify => Sys2Proof.Machine.execVerify s

end Sys2Proof.Machine
end

