-- ==== Sys2Proof/Machine/Step.lean ====
section
/-! DEFINITION. One step of the machine: the next event at CORE's boundary, or, when the host is silent, CORE's own
Complete step (46_system.md R220, R221; 20_memory.md R56, R57). -/

namespace Sys2Proof.Machine

/-- CORE's own step. While BUSY it is the Complete step of the word in CMD: the command's meaning, or
`raise E_ILLEGAL_CMD` for a word that is no command (R71, R221). While idle no step of CORE is enabled and nothing
changes: "after Complete CORE is idle until the host writes CMD again" (R223). -/
def coreStep (s : State) : Host.Outcome State Fault Refusal :=
  if s.busy then
    match decode s.cmd with
    | .ok i => exec i s
    | .error _ => execIllegal s
  else .next s

/-- The step of one event (R53, R54, R260, R221). -/
def eventStep (e : Event) (s : State) : Host.Outcome State Fault Refusal :=
  match e with
  | .winRead off n =>
    match s.winRead off n with
    | some v => .next { s with readData := some v }
    | none => .refused (.accessError off n)
  | .winWrite off n v =>
    match s.winWrite off n v with
    | some t => .next t
    | none => .refused (.accessError off n)
  | .rst => .next s.applyReset
  | .core => coreStep s

/-- One step: the first event of the script, taken off it; or CORE's own step when there is none. -/
def step (s : State) : Host.Outcome State Fault Refusal :=
  match s.script with
  | [] => coreStep s
  | e :: es => eventStep e { s with script := es }

/-- `s` with the command word of the low `nbits` bits of `w` in flight, so that the very next step is its Complete
step: the Accept step (R220) with that word, and CORE moves next. CORE fetches nothing (R59): a program's next
instruction is the word the host writes to CMD, and this stands for that write. DESIGN CHOICE,
log entries 1 and 7. -/
def State.withFetchWord (s : State) (nbits w : Nat) : State := s.placeCommand (BitVec.ofNat 32 (w % 2 ^ nbits))

end Sys2Proof.Machine
end

