-- ==== Sys2Proof/Machine/HostScript.lean ====
section
/-! DEFINITION. The host script notation (30_encoding.md R82, R83): each line of a program as the window accesses it
stands for. CORE has no assembler; these are host actions, to be placed in `State.script`. DESIGN CHOICE,
log entry 21. -/

namespace Sys2Proof.Machine

/-- Single-byte writes of `bs` from window offset `off` on; "any mix of widths that writes the same bytes is
equivalent" (95_test_vectors.md P1). -/
def putBytes : Nat → List Byte → List Event
  | _, [] => []
  | off, b :: bs => .winWrite off 1 b.toNat :: putBytes (off + 1) bs

/-- `PUT Sk, bytes` and `PUTN Sk, bytes`: from byte 0 of slot k on. -/
def putSlot (k : Nat) (bs : List Byte) : List Event := putBytes (inBase + 32 * k) bs

/-- `PUT Sk.hi, bytes`: from byte 16 of slot k on. -/
def putSlotHi (k : Nat) (bs : List Byte) : List Event := putBytes (inBase + 16 + 32 * k) bs

/-- `LEN k, n`. -/
def lenLine (k n : Nat) : List Event := [.winWrite (0x008 + 4 * k) 4 n]

/-- `WORD w`: an arbitrary command word. -/
def wordLine (w : Word) : List Event := [.winWrite 0x000 4 w.toNat]

/-- `<MNEMONIC>`: the command word of R80. -/
def commandLine (i : Instr) : List Event := wordLine (encode i)

/-- `WAIT`, "read STATUS until DONE = 1", in the shortest run it can have: CORE completes, then STATUS is read. The
longer runs have more `.winRead 0x004 4` before the `.core`. -/
def waitLine : List Event := [.core, .winRead 0x004 4]

/-- `RUN <MNEMONIC>` = `<MNEMONIC>` then `WAIT` (R83). -/
def runLine (i : Instr) : List Event := commandLine i ++ waitLine

/-- `GETN Rk, n`: single-byte reads from result slot k on. `GET Rk` is n = 32, `GET Rk.lo` is n = 16. -/
def getLine (k n : Nat) : List Event := (List.range n).map fun j => .winRead (outBase + 32 * k + j) 1

/-- `MOVN Sj, Rk, n` in state `s`: the host reads the n bytes of OUT and writes them to IN. `MOV` is n = 32. -/
def movLine (s : State) (j k n : Nat) : List Event :=
  getLine k n ++ putSlot j (s.mem.readRange (outBase + 32 * k) n)

end Sys2Proof.Machine
end

