-- ==== Sys2Proof/Safety.lean ====
section
/-! DEFINITION. The terms claims use: what a completed command leaves, the invariant of every reachable state, the
words STATUS can hold, valid points, and safe runs. -/

namespace Sys2Proof.Machine

/-! ## Values read from a snapshot, as plain integers -/

/-- `x mod P` for any integer, negative ones too (00_scope.md R11). -/
def modP (x : Int) : Nat := (x % (P : Int)).toNat

/-- The integer that the low half of operand slot k stands for as an Fp element (R72, R79). -/
def loVal (sn : Snap) (k : Nat) : Nat := leNat (slice sn.bytes (32 * k) 16) % P

/-- The same for the high half: the imaginary part of an Fp2 operand (R73). -/
def hiVal (sn : Snap) (k : Nat) : Nat := leNat (slice sn.bytes (32 * k + 16) 16) % P

/-- The unreduced integer in operand slot k (R75). -/
def scVal (sn : Snap) (k : Nat) : Nat := leNat (slice sn.bytes (32 * k) 32)

/-- The Fp2 operand in slot k (R73). -/
def f2Val (sn : Snap) (k : Nat) : Fp2 := { re := Fp.ofNat (loVal sn k), im := Fp.ofNat (hiVal sn k) }

/-- The point operand in slots k to k + 3 (R74). -/
def ptVal (sn : Snap) (k : Nat) : Point :=
  { x := f2Val sn k, y := f2Val sn (k + 1), z := f2Val sn (k + 2), t := f2Val sn (k + 3) }

/-! ## Formats written, as plain bytes -/

/-- FP2_32 (R73). -/
def f2Bytes (x : Fp2) : List Byte := bytesN 16 x.re.val ++ bytesN 16 x.im.val

/-- PT128 (R74). -/
def ptBytes (p : Point) : List Byte := f2Bytes p.x ++ f2Bytes p.y ++ f2Bytes p.z ++ f2Bytes p.t

/-! ## What Complete leaves -/

/-- What every Complete step leaves unchanged (R221): CMD, LEN0 to LEN2, every byte of the window's memory outside
OUT, and the agents outside CORE; and no command is in flight after it. -/
structure CompleteFrame (s t : State) : Prop where
  cmd : t.cmd = s.cmd
  len0 : t.len0 = s.len0
  len1 : t.len1 = s.len1
  len2 : t.len2 = s.len2
  mem : ∀ a, isOut a = false → t.mem.read a = s.mem.read a
  script : t.script = s.script
  readData : t.readData = s.readData
  snap : t.snap = none

/-- `t` is `s` after the Ok arm of Complete (R221): OUT is `out` followed by 0x00, STATUS is DONE with `flag`, and the
command presented the messages `calls` at the XOF port. -/
structure Published (s t : State) (out : List Byte) (flag : Bool) (calls : List (List Byte)) : Prop where
  frame : CompleteFrame s t
  out : ∀ k, k < 128 → t.mem.read (0x200 + k) = out.getD k 0
  status : t.status = { done := true, err := false, flag := flag, errCode := 0 }
  xofCalls : t.xofCalls = calls

/-- `t` is `s` after the error arm of Complete with ERRCODE `code` (R221, R235): OUT is all zero. -/
structure Raised (s t : State) (code : BitVec 8) (calls : List (List Byte)) : Prop where
  frame : CompleteFrame s t
  out : ∀ k, k < 128 → t.mem.read (0x200 + k) = 0
  status : t.status = { done := true, err := true, flag := false, errCode := code }
  xofCalls : t.xofCalls = calls

/-- The command `i`, run on `s`, completes with `return Ok(out, flag)`. -/
def CompletesOk (i : Instr) (s : State) (out : List Byte) (flag : Bool) (calls : List (List Byte)) : Prop :=
  ∃ t, exec i s = .next t ∧ Published s t out flag calls

/-- The command `i`, run on `s`, completes with the error of code `code`. -/
def CompletesErr (i : Instr) (s : State) (code : BitVec 8) (calls : List (List Byte)) : Prop :=
  ∃ t, exec i s = .next t ∧ Raised s t code calls

/-! ## The invariant of every reachable state -/

/-- What holds in every reachable state (10_state.md R22, R25, R27; 70_reset_and_hazards.md R265). -/
structure State.Inv (s : State) : Prop where
  /-- the window's memory keeps its canonical form -/
  memWf : s.mem.wf
  /-- only bytes of IN and OUT are stored: reserved offsets read 0x00 (R51) -/
  memMapped : ∀ c ∈ s.mem, isIn c.1 = true ∨ isOut c.1 = true
  /-- SNAP holds the 256 bytes of IN (R27) -/
  snapSize : ∀ sn, s.snap = some sn → sn.bytes.length = 256
  /-- BUSY = 1 implies DONE = 0 (R25) -/
  busyNotDone : s.busy = true → s.status.done = false
  /-- DONE = 0 implies ERR = FLAG = 0, ERRCODE = 0 and OUT all zero (R25, R265) -/
  notDone : s.status.done = false →
    s.status = statusClear ∧ ∀ k, k < 128 → s.mem.read (0x200 + k) = 0
  /-- ERR = 1 implies FLAG = 0, ERRCODE one of the nine codes, and OUT all zero (R25, R22, R231) -/
  errored : s.status.err = true →
    s.status.flag = false ∧ 1 ≤ s.status.errCode.toNat ∧ s.status.errCode.toNat ≤ 9
      ∧ ∀ k, k < 128 → s.mem.read (0x200 + k) = 0
  /-- ERR = 0 implies ERRCODE = 0 (R25) -/
  notErrored : s.status.err = false → s.status.errCode = 0

/-- The STATUS words "a host can ever read" (95_test_vectors.md section 2.7), less the two it calls defined but
unreachable, 0x00000606 and 0x00000706. -/
def reachableStatusWords : List Word :=
  [0x00000000, 0x00000001, 0x00000002, 0x0000000A, 0x00000106, 0x00000206, 0x00000306, 0x00000406, 0x00000506,
    0x00000806, 0x00000906]

/-- The error codes each command can raise (60_exceptions.md R231), E_RANGE and E_OFF_CURVE left out: R231 lists both
as unreachable. -/
def mayRaise : Instr → List (BitVec 8)
  | .fpInv | .f2Inv | .ptAffine | .ptEnc => [3]
  | .ptDec => [2, 3, 4, 5]
  | .chkPk => [2, 8]
  | .chkSig => [2, 9]
  | .keygen | .sign => [2, 3]
  | .nop | .fpAdd | .fpSub | .fpNeg | .fpMul | .fpSqr | .fpDiv2 | .fpSqrt | .fpCanon => []
  | .f2Add | .f2Sub | .f2Neg | .f2Mul | .f2Sqr | .f2Sqrt => []
  | .ptAdd | .ptDbl | .ptOncurve | .ptSmul | .ptSmulb | .ptSign => []
  | .valPk | .valSig | .scRed | .scMul | .scSub | .verify => []

/-! ## Valid points -/

/-- An extended representative of a curve point: Z ≠ 0, T·Z = X·Y, and the curve equation in extended coordinates,
Y² − X² = Z² + D·T² (R140, R143). -/
structure ValidPoint (cfg : Config) (p : Point) : Prop where
  zNonzero : p.z ≠ f2Zero
  segre : f2Mul p.t p.z = f2Mul p.x p.y
  curve : f2Sub (f2Sqr p.y) (f2Sqr p.x) = f2Add (f2Sqr p.z) (f2Mul cfg.d (f2Sqr p.t))

/-- What a model may assume of any configuration (92_eei_decisions.md D21, D22), but for the primality of `Q`
(log entry 22). -/
structure ConfigSound (cfg : Config) : Prop where
  qLow : 2 ^ 245 < cfg.q
  qHigh : cfg.q < 2 ^ 246
  base : ptOnCurve cfg { x := cfg.gx, y := cfg.gy } = true
  xofLength : ∀ m n, (cfg.xof m n).length = n

/-! ## Safe runs -/

/-- Every access in the host's script is one the window performs (R53, R54), so that no step is refused. -/
def eventLegal : Event → Bool
  | .winRead off n => accessLegal off n
  | .winWrite off n v => accessLegal off n && decide (v < 256 ^ n)
  | .rst => true
  | .core => true

/-- A run of `k` steps that neither faults nor is refused. -/
def SafeRun (k : Nat) (s : State) : Prop := ∃ t, Host.Core.run Sys2Proof.core k s = .next t

end Sys2Proof.Machine
end

