-- ==== Sys2Proof/Certificates/Slice0/Obligations.lean ====
section
/-! DEFINITION. The statements for the provers. `CompletesOk i s out flag calls` and `CompletesErr i s code calls`
(`Sys2Proof/Safety.lean`) say what `exec i s` answers AND its frame: CMD, LEN0 to LEN2, every byte of the window's
memory outside OUT, the host's script and what it has read are unchanged; all 128 bytes of OUT, STATUS and BUSY are as
stated. `sn` is always SNAP, the operand snapshot of the command in flight. The statement of a command names its
command word too (30_encoding.md R80). -/

open Sys2Proof Sys2Proof.Machine

/-! ## Reset, start, the life of a command -/

/-- R32: every piece of state after reset. -/
def Obligations.ResetLeavesEveryRegisterZero : Prop :=
  State.reset.cmd = 0 ∧ State.reset.statusWord = 0 ∧ State.reset.len0 = 0 ∧ State.reset.len1 = 0
    ∧ State.reset.len2 = 0 ∧ (∀ a, State.reset.mem.read a = 0) ∧ State.reset.busy = false ∧ State.reset.snap = none

/-- R260: the reset step, enabled in every state. That the rest of the script and the data read stay as they are is the
model's choice: log entry 16. -/
def Obligations.ResetStepClearsEverything : Prop :=
  ∀ (s : State) (es : List Event), s.script = .rst :: es →
    ∃ t, step s = .next t ∧ t.cmd = 0 ∧ t.statusWord = 0 ∧ t.len0 = 0 ∧ t.len1 = 0 ∧ t.len2 = 0
      ∧ (∀ a, t.mem.read a = 0) ∧ t.snap = none ∧ t.script = es ∧ t.readData = s.readData

/-- The invariant holds at reset. -/
def Obligations.ResetMeetsTheInvariant : Prop := State.reset.Inv

/-- R25 and the canonical form of memory, inductively: every step of every state that meets the invariant keeps it. -/
def Obligations.EveryStepKeepsTheInvariant : Prop :=
  ∀ s t : State, s.Inv → step s = .next t → t.Inv

/-- 95_test_vectors.md section 2.7: the STATUS words a host can ever read; 0x00000606 (E_OFF_CURVE) and 0x00000706
(E_RANGE) are not among them. -/
def Obligations.StatusStaysInTheTable : Prop :=
  ∀ s t : State, s.statusWord ∈ reachableStatusWords → step s = .next t → t.statusWord ∈ reachableStatusWords

/-- R221: CORE's turn, while a command is in flight, runs the command that the word in CMD decodes to; nothing else
happens in that step but that the event is taken off the script. -/
def Obligations.StepRunsTheDecodedCommand : Prop :=
  ∀ (s : State) (i : Instr), s.busy = true → decode s.cmd = .ok i →
    (s.script = [] → step s = exec i s)
      ∧ ∀ es, s.script = .core :: es → step s = exec i { s with script := es }

/-- R221: a command in flight completes; Complete publishes, discards SNAP, and changes nothing else. R221 gives only a
finite, unspecified time: that with the host silent it is the very next step is the model's choice, log entry 1; that the
hash commands do not wait for an answer is log entry 11. -/
def Obligations.CommandInFlightCompletes : Prop :=
  ∀ s : State, s.busy = true → s.script = [] →
    ∃ t, step s = .next t ∧ t.busy = false ∧ t.status.done = true ∧ CompleteFrame s t

/-- R221, "needs only that Complete eventually happens": whatever legal accesses the host still has to make, a command
in flight completes within one step more than their number, if reset is not applied. The step at which it does is where
the script gives CORE its turn, or the end of the script (log entry 1, the model's choice). -/
def Obligations.CommandCompletesWithinTheScript : Prop :=
  ∀ s : State, s.busy = true → (∀ e ∈ s.script, e ≠ .rst ∧ eventLegal e = true) →
    ∃ k t, k ≤ s.script.length + 1 ∧ Host.Core.run Sys2Proof.core k s = .next t
      ∧ t.busy = false ∧ t.status.done = true ∧ t.cmd = s.cmd

/-- R83, R263: `RUN <MNEMONIC>` on an idle CORE: the command word is written, CORE completes, and the host reads a
STATUS with DONE = 1 and BUSY = 0. The three steps are the model's choice: the expansion of the lines is that of log
entry 21, with CORE's turn where the script puts it (log entry 1); the hardware may take longer. -/
def Obligations.RunLineEndsWithDone : Prop :=
  ∀ (s : State) (i : Instr), s.busy = false → s.script = runLine i →
    ∃ t, Host.Core.run Sys2Proof.core 3 s = .next t ∧ t.cmd = encode i ∧ t.busy = false ∧ t.status.done = true
      ∧ t.readData = some t.statusWord ∧ t.script = []

/-- R55 and R221: a step stops only on an access error of the host, and never with a fault; the meaning of a command
answers a next state whenever a command is in flight, and stops only when none is. The names of the two stops are the
model's choice: log entries 9 (which also refuses a value too wide for its access) and 10. -/
def Obligations.OnlyAccessErrorsStopTheMachine : Prop :=
  (∀ s : State, (∃ t, step s = .next t) ∨ ∃ off n es, step s = .refused (.accessError off n)
      ∧ (s.script = .winRead off n :: es ∨ ∃ v, s.script = .winWrite off n v :: es))
    ∧ (∀ (i : Instr) (s : State) (sn : Snap), s.snap = some sn → ∃ t, exec i s = .next t)
    ∧ ∀ (i : Instr) (s : State), s.snap = none → exec i s = .fault .noCommandInFlight

/-! ## Command words -/

/-- R71: every 32-bit value is either one of the 36 commands or illegal; an illegal word is accepted like any other
and completes with E_ILLEGAL_CMD. When CORE takes its step is the model's choice, log entry 1: at the head of the
script or, with an empty script, at once; the clauses for both follow the one about CORE's step itself. -/
def Obligations.EveryWordIsACommandOrIllegal : Prop :=
  ∀ w : Word,
    (commandWordWf w = true → ∃ i, decode w = .ok i ∧ w = encode i)
      ∧ (commandWordWf w = false →
          (∃ e, decode w = .error e)
            ∧ (∀ (s : State) (es : List Event), s.busy = false → s.script = .winWrite 0x000 4 w.toNat :: es →
                ∃ t, step s = .next t ∧ t.cmd = w ∧ t.busy = true ∧ ∀ k, k < 128 → t.mem.read (0x200 + k) = 0)
            ∧ ∀ s : State, s.busy = true → s.cmd = w →
                (∃ t, coreStep s = .next t ∧ Raised s t 1 [])
                  ∧ (s.script = [] → ∃ t, step s = .next t ∧ Raised s t 1 [])
                  ∧ ∀ es, s.script = .core :: es → ∃ t, step s = .next t ∧ Raised { s with script := es } t 1 [])

/-- R80: a word decodes to a command exactly when it is that command's word, and the bytes of the word, as they lie in
the window, decode to it too. -/
def Obligations.DecodeAndEncodeAgree : Prop :=
  (∀ (w : Word) (i : Instr), decode w = .ok i ↔ w = encode i)
    ∧ ∀ i : Instr, decodeBytes (encodeBytes i) = .ok i ∧ decodeTableWord 32 (encode i).toNat = some i

/-- R80, one word of each family written out. -/
def Obligations.SampleWordsDecode : Prop :=
  decode 0x00000000 = .ok .nop ∧ decode 0x00000013 = .ok .fpMul ∧ decode 0x00000026 = .ok .f2Sqrt
    ∧ decode 0x00000036 = .ok .ptSign ∧ decode 0x00000041 = .ok .ptDec ∧ decode 0x00000052 = .ok .scSub
    ∧ decode 0x00000062 = .ok .verify ∧ decode 0x00000113 = .error .reservedBits
    ∧ decode 0x00000019 = .error .unknownOpcode

/-! ## Host accesses -/

/-- R220: the Accept step, as the host's write of `w` to CMD while idle. -/
def Obligations.AcceptTakesTheSnapshot : Prop :=
  ∀ (s : State) (w : Word) (es : List Event), s.busy = false → s.script = .winWrite 0x000 4 w.toNat :: es →
    ∃ t sn, step s = .next t ∧ t.cmd = w ∧ t.snap = some sn ∧ sn.bytes.length = 256
      ∧ (∀ k, k < 256 → sn.bytes.getD k 0 = s.mem.read (0x100 + k))
      ∧ sn.len0 = s.len0 ∧ sn.len1 = s.len1 ∧ sn.len2 = s.len2
      ∧ t.statusWord = 0x00000001 ∧ (∀ k, k < 128 → t.mem.read (0x200 + k) = 0)
      ∧ (∀ a, isOut a = false → t.mem.read a = s.mem.read a)
      ∧ t.len0 = s.len0 ∧ t.len1 = s.len1 ∧ t.len2 = s.len2 ∧ t.script = es ∧ t.readData = s.readData

/-- R266: a write to CMD while BUSY changes nothing at all. -/
def Obligations.CmdWriteWhileBusyIsIgnored : Prop :=
  ∀ (s : State) (v : Nat) (es : List Event), s.busy = true → v < 2 ^ 32 → s.script = .winWrite 0x000 4 v :: es →
    step s = .next { s with script := es }

/-- R27, R267: no host write while BUSY, to IN, LENk or anywhere else, changes the outcome of the command in flight. -/
def Obligations.HostWritesWhileBusyKeepTheOutcome : Prop :=
  ∀ (s t u : State) (off n v : Nat), s.busy = true → s.winWrite off n v = some t → coreStep s = .next u →
    t.cmd = s.cmd ∧ t.snap = s.snap ∧
      ∃ u', coreStep t = .next u' ∧ u'.status = u.status ∧ u'.xofCalls = u.xofCalls
        ∧ ∀ k, k < 128 → u'.mem.read (0x200 + k) = u.mem.read (0x200 + k)

/-- R52, R54: a write to IN of 1, 2 or 4 bytes replaces exactly those bytes, least significant first, and nothing
else; BUSY does not matter. -/
def Obligations.InWriteReplacesItsBytes : Prop :=
  ∀ (s : State) (off n v : Nat) (es : List Event), accessLegal off n = true → 0x100 ≤ off → off < 0x200 →
    v < 256 ^ n → s.script = .winWrite off n v :: es →
    ∃ t, step s = .next t
      ∧ (∀ a, off ≤ a → a < off + n → (t.mem.read a).toNat = v / 256 ^ (a - off) % 256)
      ∧ (∀ a, (a < off ∨ off + n ≤ a) → t.mem.read a = s.mem.read a)
      ∧ t = { s with mem := t.mem, script := es }

/-- R52, R53: a 16- or 32-bit read of IN, OUT or a reserved range gives the bytes that 8-bit reads give, the byte at
the lowest offset least significant. -/
def Obligations.WideReadIsLittleEndian : Prop :=
  ∀ (s : State) (off n : Nat), accessLegal off n = true → 0x014 ≤ off →
    ∃ (v : Word) (b : Nat → Byte), s.winRead off n = some v
      ∧ (∀ k, k < n → s.winRead (off + k) 1 = some ((b k).setWidth 32)
          ∧ b k = if isIn (off + k) || isOut (off + k) then s.mem.read (off + k) else 0)
      ∧ v.toNat = ((List.range n).map fun k => (b k).toNat * 256 ^ k).sum

/-- R51, R54: writes to STATUS, OUT and the reserved ranges change nothing; reserved ranges read 0. -/
def Obligations.ReadOnlyAndReservedIgnoreWrites : Prop :=
  ∀ (s : State) (off n v : Nat), accessLegal off n = true →
    (v < 256 ^ n → (off = 0x004 ∨ (0x014 ≤ off ∧ off < 0x100) ∨ 0x200 ≤ off) → s.winWrite off n v = some s)
      ∧ ((0x014 ≤ off ∧ off < 0x100) ∨ 0x280 ≤ off → s.winRead off n = some 0)

/-- R23, R24, R25, R53, R54: the 32-bit registers: CMD and STATUS read back; LENk read and write, any value legal,
BUSY or not. -/
def Obligations.RegistersReadAndWrite : Prop :=
  ∀ s : State,
    s.winRead 0x000 4 = some s.cmd ∧ s.winRead 0x004 4 = some s.statusWord
      ∧ s.winRead 0x008 4 = some s.len0 ∧ s.winRead 0x00C 4 = some s.len1 ∧ s.winRead 0x010 4 = some s.len2
      ∧ ∀ v : Word, s.winWrite 0x008 4 v.toNat = some { s with len0 := v }
          ∧ s.winWrite 0x00C 4 v.toNat = some { s with len1 := v }
          ∧ s.winWrite 0x010 4 v.toNat = some { s with len2 := v }

/-- R25: the fields of the STATUS word, bit by bit; the reserved bits read 0. -/
def Obligations.StatusWordHasItsFields : Prop :=
  ∀ s : State,
    s.statusWord.getLsbD 0 = s.busy ∧ s.statusWord.getLsbD 1 = s.status.done ∧ s.statusWord.getLsbD 2 = s.status.err
      ∧ s.statusWord.getLsbD 3 = s.status.flag ∧ s.statusWord.extractLsb' 4 4 = 0
      ∧ s.statusWord.extractLsb' 8 8 = s.status.errCode ∧ s.statusWord.extractLsb' 16 16 = 0

/-- R53, R55: exactly the accesses of R55 are refused; every other read gives its value and changes no state of
CORE, and every other write goes on. -/
def Obligations.BadAccessIsRefused : Prop :=
  ∀ (s : State) (off n v : Nat) (es : List Event),
    (¬((n = 1 ∨ n = 2 ∨ n = 4) ∧ n ∣ off ∧ off + n ≤ 0x400 ∧ (off < 0x014 → n = 4)) →
      (s.script = .winRead off n :: es → step s = .refused (.accessError off n))
        ∧ (s.script = .winWrite off n v :: es → step s = .refused (.accessError off n)))
    ∧ ((n = 1 ∨ n = 2 ∨ n = 4) ∧ n ∣ off ∧ off + n ≤ 0x400 ∧ (off < 0x014 → n = 4) →
      (s.script = .winRead off n :: es →
          ∃ d, s.winRead off n = some d ∧ step s = .next { s with script := es, readData := some d })
        ∧ (s.script = .winWrite off n v :: es → v < 256 ^ n → ∃ t, step s = .next t ∧ t.script = es))

/-! ## All commands -/

/-- R16 (a), R27: the outcome of a command depends on its snapshot alone. -/
def Obligations.OutcomeDependsOnTheSnapshotAlone : Prop :=
  ∀ (i : Instr) (s s' t : State), s.snap = s'.snap → exec i s = .next t →
    ∃ t', exec i s' = .next t' ∧ t'.status = t.status ∧ t'.xofCalls = t.xofCalls
      ∧ ∀ k, k < 128 → t'.mem.read (0x200 + k) = t.mem.read (0x200 + k)

/-- R231, R232: which errors each command can raise: none for 27 of them, and E_RANGE and E_OFF_CURVE never. -/
def Obligations.OnlyTheListedErrorsAreRaised : Prop :=
  ∀ (i : Instr) (s t : State), exec i s = .next t → t.status.err = true → t.status.errCode ∈ mayRaise i

/-- R62: only KEYGEN, SIGN and VERIFY use the XOF port: one call of 32 bytes, three of 32, 64 and 96 bytes, and at
most one of 96 bytes. The record `xofCalls` is the model's: log entry 3. -/
def Obligations.XofPortIsUsedAsListed : Prop :=
  ∀ (i : Instr) (s t : State), exec i s = .next t →
    (i ≠ .keygen → i ≠ .sign → i ≠ .verify → t.xofCalls = [])
      ∧ (i = .keygen → t.status.err = false → t.xofCalls.map List.length = [32])
      ∧ (i = .sign → t.status.err = false → t.xofCalls.map List.length = [32, 64, 96])
      ∧ (i = .verify → t.xofCalls = [] ∨ t.xofCalls.map List.length = [96])
      ∧ (t.status.errCode = 2 → t.xofCalls = [])

/-! ## System and Fp -/

/-- R222. -/
def Obligations.NopWipesOut : Prop :=
  decode 0x00000000 = .ok .nop ∧
  ∀ (s : State) (sn : Snap), s.snap = some sn → CompletesOk .nop s [] false []

/-- R102 to R106. -/
def Obligations.FpRingCommandsPublishResidues : Prop :=
  decode 0x00000010 = .ok .fpAdd ∧ decode 0x00000011 = .ok .fpSub ∧ decode 0x00000012 = .ok .fpNeg ∧
  decode 0x00000013 = .ok .fpMul ∧ decode 0x00000014 = .ok .fpSqr ∧
  ∀ (s : State) (sn : Snap), s.snap = some sn →
    CompletesOk .fpAdd s (bytesN 16 (modP (loVal sn 0 + loVal sn 1))) false []
      ∧ CompletesOk .fpSub s (bytesN 16 (modP ((loVal sn 0 : Int) - loVal sn 1))) false []
      ∧ CompletesOk .fpNeg s (bytesN 16 (modP (-(loVal sn 0 : Int)))) false []
      ∧ CompletesOk .fpMul s (bytesN 16 (modP (loVal sn 0 * loVal sn 1))) false []
      ∧ CompletesOk .fpSqr s (bytesN 16 (modP (loVal sn 0 * loVal sn 0))) false []

/-- R111: decode then encode; the bytes come back unchanged exactly when le(B) < P. -/
def Obligations.FpCanonReducesItsBytes : Prop :=
  decode 0x00000018 = .ok .fpCanon ∧
  ∀ (s : State) (sn : Snap), s.snap = some sn →
    CompletesOk .fpCanon s (bytesN 16 (leNat (slice sn.bytes 0 16) % P)) false []
      ∧ (bytesN 16 (leNat (slice sn.bytes 0 16) % P) = slice sn.bytes 0 16 ↔ leNat (slice sn.bytes 0 16) < P)

/-- R107: exact halving, and the result h satisfies fp_add(h, h) = a and is canonical. -/
def Obligations.FpDiv2Halves : Prop :=
  decode 0x00000015 = .ok .fpDiv2 ∧
  ∀ (s : State) (sn : Snap), s.snap = some sn →
    ∃ h, h = (if loVal sn 0 % 2 = 0 then loVal sn 0 / 2 else (loVal sn 0 + P) / 2) ∧ h < P
      ∧ (h + h) % P = loVal sn 0 ∧ CompletesOk .fpDiv2 s (bytesN 16 h) false []

/-- R109: a^(P − 2) mod P, and E_DOMAIN exactly when the decoded operand is 0. -/
def Obligations.FpInvPublishesThePower : Prop :=
  decode 0x00000016 = .ok .fpInv ∧
  ∀ (s : State) (sn : Snap), s.snap = some sn →
    (loVal sn 0 ≠ 0 → CompletesOk .fpInv s (bytesN 16 (loVal sn 0 ^ (P - 2) % P)) false []
        ∧ loVal sn 0 * (loVal sn 0 ^ (P - 2) % P) % P = 1)
      ∧ (loVal sn 0 = 0 → CompletesErr .fpInv s 3 [])

/-- R110: the candidate a^((P + 1)/4), the exponent being 2^125; Found exactly when its square is a. -/
def Obligations.FpSqrtPublishesTheCandidate : Prop :=
  decode 0x00000017 = .ok .fpSqrt ∧
  ∀ (s : State) (sn : Snap), s.snap = some sn →
    (loVal sn 0 ^ 2 ^ 125 % P * (loVal sn 0 ^ 2 ^ 125 % P) % P = loVal sn 0 →
        CompletesOk .fpSqrt s (bytesN 16 (loVal sn 0 ^ 2 ^ 125 % P)) true [])
      ∧ (loVal sn 0 ^ 2 ^ 125 % P * (loVal sn 0 ^ 2 ^ 125 % P) % P ≠ loVal sn 0 →
        CompletesOk .fpSqrt s [] false [])

/-- R110, E3: FLAG is 1 exactly when a square root exists, and what is found squares to the operand. -/
def Obligations.FpSqrtDecidesSquares : Prop :=
  ∀ (s : State) (sn : Snap), s.snap = some sn →
    ∃ (flag : Bool) (r : Nat), CompletesOk .fpSqrt s (bytesN 16 r) flag []
      ∧ (flag = true ↔ ∃ x, x < P ∧ x * x % P = loVal sn 0)
      ∧ (flag = true → r < P ∧ r * r % P = loVal sn 0) ∧ (flag = false → r = 0)

/-! ## Fp2 -/

/-- R120 to R122: componentwise. -/
def Obligations.F2LinearCommandsAreComponentwise : Prop :=
  decode 0x00000020 = .ok .f2Add ∧ decode 0x00000021 = .ok .f2Sub ∧ decode 0x00000022 = .ok .f2Neg ∧
  ∀ (s : State) (sn : Snap), s.snap = some sn →
    CompletesOk .f2Add s
        (bytesN 16 (modP (loVal sn 0 + loVal sn 1)) ++ bytesN 16 (modP (hiVal sn 0 + hiVal sn 1))) false []
      ∧ CompletesOk .f2Sub s
          (bytesN 16 (modP ((loVal sn 0 : Int) - loVal sn 1)) ++ bytesN 16 (modP ((hiVal sn 0 : Int) - hiVal sn 1)))
          false []
      ∧ CompletesOk .f2Neg s (bytesN 16 (modP (-(loVal sn 0 : Int))) ++ bytesN 16 (modP (-(hiVal sn 0 : Int)))) false []

/-- R123, R124: (ac − bd, ad + bc) and (a² − b², 2ab). -/
def Obligations.F2ProductsAreComplex : Prop :=
  decode 0x00000023 = .ok .f2Mul ∧ decode 0x00000024 = .ok .f2Sqr ∧
  ∀ (s : State) (sn : Snap) (a b c d : Int), s.snap = some sn →
    a = loVal sn 0 → b = hiVal sn 0 → c = loVal sn 1 → d = hiVal sn 1 →
    CompletesOk .f2Mul s (bytesN 16 (modP (a * c - b * d)) ++ bytesN 16 (modP (a * d + b * c))) false []
      ∧ CompletesOk .f2Sqr s (bytesN 16 (modP (a * a - b * b)) ++ bytesN 16 (modP (2 * a * b))) false []

/-- R125: the inverse of every nonzero operand; E_DOMAIN exactly for (0, 0). -/
def Obligations.F2InvInvertsEveryNonzero : Prop :=
  decode 0x00000025 = .ok .f2Inv ∧
  ∀ (s : State) (sn : Snap), s.snap = some sn →
    (f2Val sn 0 ≠ f2Zero → ∃ y, f2Mul (f2Val sn 0) y = f2One ∧ CompletesOk .f2Inv s (f2Bytes y) false [])
      ∧ (f2Val sn 0 = f2Zero → CompletesErr .f2Inv s 3 [])

/-- R126 with its corner cases: a Found root squares to the operand and its real part is a square of Fp (which of the
two roots it is); for a real operand only a real root is looked for (the real-only gap); for any other operand NoRoot
means that no root exists; and no error is raised. -/
def Obligations.F2SqrtFindsRootsButForTheRealGap : Prop :=
  decode 0x00000026 = .ok .f2Sqrt ∧
  ∀ (s : State) (sn : Snap) (x : Fp2), s.snap = some sn → x = f2Val sn 0 →
    (∃ c, f2Sqr c = x ∧ (∃ u, fpSqr u = c.re) ∧ (x.im.val = 0 → c.im.val = 0)
        ∧ CompletesOk .f2Sqrt s (f2Bytes c) true [])
      ∨ ((x.im.val ≠ 0 → ∀ c, f2Sqr c ≠ x) ∧ (x.im.val = 0 → ∀ r, fpSqr r ≠ x.re)
        ∧ CompletesOk .f2Sqrt s [] false [])

/-! ## Points -/

/-- R144: the point adder, line by line. -/
def Obligations.PtAddPublishesTheFormulas : Prop :=
  decode 0x00000030 = .ok .ptAdd ∧
  ∀ (s : State) (sn : Snap) (xp yp zp tp xq yq zq tq a b c dz e f g h : Fp2), s.snap = some sn →
    xp = f2Val sn 0 → yp = f2Val sn 1 → zp = f2Val sn 2 → tp = f2Val sn 3 →
    xq = f2Val sn 4 → yq = f2Val sn 5 → zq = f2Val sn 6 → tq = f2Val sn 7 →
    a = f2Mul (f2Sub yp xp) (f2Sub yq xq) → b = f2Mul (f2Add yp xp) (f2Add yq xq) →
    c = f2Mul (f2Mul (f2Add curveD curveD) tp) tq → dz = f2Mul (f2Add zp zp) zq →
    e = f2Sub b a → f = f2Sub dz c → g = f2Add dz c → h = f2Add b a →
    CompletesOk .ptAdd s
      (f2Bytes (f2Mul e f) ++ f2Bytes (f2Mul g h) ++ f2Bytes (f2Mul f g) ++ f2Bytes (f2Mul e h)) false []

/-- R145: the point doubler, line by line; S3 is not read. -/
def Obligations.PtDblPublishesTheFormulas : Prop :=
  decode 0x00000031 = .ok .ptDbl ∧
  ∀ (s : State) (sn : Snap) (xp yp zp a b zs c dn e f g h : Fp2), s.snap = some sn →
    xp = f2Val sn 0 → yp = f2Val sn 1 → zp = f2Val sn 2 →
    a = f2Sqr xp → b = f2Sqr yp → zs = f2Sqr zp → c = f2Add zs zs → dn = f2Neg a →
    e = f2Sub (f2Sub (f2Sqr (f2Add xp yp)) a) b → g = f2Add dn b → f = f2Sub g c → h = f2Sub dn b →
    CompletesOk .ptDbl s
      (f2Bytes (f2Mul e f) ++ f2Bytes (f2Mul g h) ++ f2Bytes (f2Mul f g) ++ f2Bytes (f2Mul e h)) false []

/-- R144, the derived facts: pt_add is symmetric; T·Z = X·Y for its result and for pt_dbl's, whatever the operands;
adding the identity multiplies as stated. For every configuration. -/
def Obligations.PtAddFacts : Prop :=
  ∀ (cfg : Config) (p q : Point),
    ptAdd cfg p q = ptAdd cfg q p
      ∧ f2Mul (ptAdd cfg p q).t (ptAdd cfg p q).z = f2Mul (ptAdd cfg p q).x (ptAdd cfg p q).y
      ∧ f2Mul (ptDbl p).t (ptDbl p).z = f2Mul (ptDbl p).x (ptDbl p).y
      ∧ ∀ four : Fp2, four = { re := Fp.ofNat 4, im := Fp.ofNat 0 } →
          ptAdd cfg ptId p =
            { x := f2Mul four (f2Mul p.x p.z), y := f2Mul four (f2Mul p.y p.z), z := f2Mul four (f2Mul p.z p.z),
              t := f2Mul four (f2Mul p.x p.y) }

/-- R140, "Z is never zero for points produced internally", with R144 and R145: the adder and the doubler take valid
representatives of curve points to valid ones. Over the constants of R8 (PRESUMED, log entry 4): it needs that the
supplied D is not a square of Fp2 (GK5). -/
def Obligations.ValidPointsStayValid : Prop :=
  ∀ p q : Point, ValidPoint coreConfig p → ValidPoint coreConfig q →
    ValidPoint coreConfig (ptAdd coreConfig p q) ∧ ValidPoint coreConfig (ptDbl p)

/-- R146: X and Y divided by Z; E_DOMAIN exactly when Z = (0, 0). -/
def Obligations.PtAffineDividesByZ : Prop :=
  decode 0x00000032 = .ok .ptAffine ∧
  ∀ (s : State) (sn : Snap), s.snap = some sn →
    (f2Val sn 2 ≠ f2Zero → ∃ x y, f2Mul x (f2Val sn 2) = f2Val sn 0 ∧ f2Mul y (f2Val sn 2) = f2Val sn 1
        ∧ CompletesOk .ptAffine s (f2Bytes x ++ f2Bytes y) false [])
      ∧ (f2Val sn 2 = f2Zero → CompletesErr .ptAffine s 3 [])

/-- R143, R147: the curve equation −x² + y² = 1 + D·x²·y². -/
def Obligations.PtOncurveTestsTheEquation : Prop :=
  decode 0x00000033 = .ok .ptOncurve ∧
  ∀ (s : State) (sn : Snap) (x y : Fp2), s.snap = some sn → x = f2Val sn 0 → y = f2Val sn 1 →
    ∃ flag, CompletesOk .ptOncurve s [] flag []
      ∧ (flag = true ↔ f2Sub (f2Sqr y) (f2Sqr x) = f2Add f2One (f2Mul curveD (f2Mul (f2Sqr x) (f2Sqr y))))

/-- R148: bit 126 of the real component unless it is zero, then of the imaginary one. -/
def Obligations.PtSignPublishesBit126 : Prop :=
  decode 0x00000036 = .ok .ptSign ∧
  ∀ (s : State) (sn : Snap), s.snap = some sn →
    CompletesOk .ptSign s [] ((if loVal sn 0 ≠ 0 then loVal sn 0 else hiVal sn 0).testBit 126) []

/-- R148: negation flips the sign bit of every nonzero x. -/
def Obligations.SignBitFlipsUnderNegation : Prop :=
  ∀ x : Fp2, (x ≠ f2Zero → xSign (f2Neg x) = 1 - xSign x) ∧ xSign f2Zero = 0 ∧ xSign x ≤ 1

/-- R149 to R151: double-and-add from the least significant bit, into the identity. Bit i of the scalar, not reduced,
adds the operand doubled i times. -/
def Obligations.ScalarMultiplicationIsDoubleAndAdd : Prop :=
  decode 0x00000034 = .ok .ptSmul ∧ decode 0x00000035 = .ok .ptSmulb ∧
  ∀ (s : State) (sn : Snap), s.snap = some sn →
    CompletesOk .ptSmul s
        (ptBytes ((List.range 256).foldl (fun r i =>
          if (scVal sn 4).testBit i then ptAdd coreConfig r (ptDbl^[i] (ptVal sn 0)) else r) ptId)) false []
      ∧ CompletesOk .ptSmulb s
          (ptBytes ((List.range 256).foldl (fun r i =>
            if (scVal sn 0).testBit i then
              ptAdd coreConfig r (ptDbl^[i] { x := baseGx, y := baseGy, z := f2One, t := f2Mul baseGx baseGy })
            else r) ptId)) false []

/-! ## Codec -/

/-- R170 with format ENC32 (R76): y.re, then y.im with the sign bit of x on top; E_DOMAIN exactly when Z = (0, 0). -/
def Obligations.PtEncPublishesYAndSign : Prop :=
  decode 0x00000040 = .ok .ptEnc ∧
  ∀ (s : State) (sn : Snap), s.snap = some sn →
    (f2Val sn 2 ≠ f2Zero → ∃ (x y : Fp2) (e : List Byte),
        f2Mul x (f2Val sn 2) = f2Val sn 0 ∧ f2Mul y (f2Val sn 2) = f2Val sn 1 ∧ e.length = 32
        ∧ leNat (slice e 0 16) = y.re.val ∧ leNat (slice e 16 16) = y.im.val + 2 ^ 127 * xSign x
        ∧ CompletesOk .ptEnc s e false [])
      ∧ (f2Val sn 2 = f2Zero → CompletesErr .ptEnc s 3 [])

/-- R171, R234: PT_DEC's first two checks, the length before any byte. -/
def Obligations.PtDecChecksLengthThenGuard : Prop :=
  decode 0x00000041 = .ok .ptDec ∧
  ∀ (s : State) (sn : Snap), s.snap = some sn →
    (sn.len0.toNat ≠ 32 → CompletesErr .ptDec s 2 [])
      ∧ (sn.len0.toNat = 32 → 128 ≤ (sn.bytes.getD 15 0).toNat → CompletesErr .ptDec s 4 [])

/-- R173: PT_DEC of the encoding of a curve point (x, y) gives (x, y, (1,0), x·y) when x.re ≠ 0 or x = (0,0), and
E_NO_ROOT when x.re = 0 and x.im ≠ 0. Over the constants of R8 (PRESUMED, log entry 4). -/
def Obligations.PtDecInvertsPtEnc : Prop :=
  ∀ (s : State) (sn : Snap) (x y : Fp2), s.snap = some sn → sn.len0.toNat = 32 →
    ptOnCurve coreConfig { x := x, y := y } = true →
    leNat (slice sn.bytes 0 16) = y.re.val → leNat (slice sn.bytes 16 16) = y.im.val + 2 ^ 127 * xSign x →
    (x.re.val ≠ 0 ∨ x = f2Zero →
        CompletesOk .ptDec s (f2Bytes x ++ f2Bytes y ++ f2Bytes f2One ++ f2Bytes (f2Mul x y)) false [])
      ∧ (x.re.val = 0 → x.im.val ≠ 0 → CompletesErr .ptDec s 5 [])

/-- R171: what PT_DEC publishes when it raises nothing: a point on the curve with Z = (1,0) and T = x·y, whose y is
the operand's, each half reduced and the sign bit taken off, and whose sign is the operand's unless x = (0,0). -/
def Obligations.PtDecPublishesACurvePoint : Prop :=
  ∀ (s t : State) (sn : Snap), s.snap = some sn → exec .ptDec s = .next t → t.status.err = false →
    ∃ x y : Fp2, sn.len0.toNat = 32 ∧ (sn.bytes.getD 15 0).toNat < 128
      ∧ ptOnCurve coreConfig { x := x, y := y } = true
      ∧ y.re.val = leNat (slice sn.bytes 0 16) % P ∧ y.im.val = leNat (slice sn.bytes 16 16) % 2 ^ 127 % P
      ∧ (x ≠ f2Zero → xSign x = leNat (slice sn.bytes 16 16) / 2 ^ 127)
      ∧ Published s t (f2Bytes x ++ f2Bytes y ++ f2Bytes f2One ++ f2Bytes (f2Mul x y)) false []

/-- R171 corner case 3, U14: E_OFF_CURVE is unreachable for every configuration: a Found root satisfies the curve
equation by construction. -/
def Obligations.DecodeNeverLeavesTheCurve : Prop :=
  ∀ (cfg : Config) (b : List Byte), ptDecode cfg b ≠ .error .offCurve

/-- R174, R175: the predicates, for every length and every byte. -/
def Obligations.ValidatorsPublishTheStructure : Prop :=
  decode 0x00000042 = .ok .valPk ∧ decode 0x00000043 = .ok .valSig ∧
  ∀ (s : State) (sn : Snap), s.snap = some sn →
    CompletesOk .valPk s [] (decide (sn.len0.toNat = 32 ∧ (sn.bytes.getD 15 0).toNat < 128)) []
      ∧ CompletesOk .valSig s []
          (decide (sn.len0.toNat = 64 ∧ (sn.bytes.getD 15 0).toNat < 128 ∧ (sn.bytes.getD 62 0).toNat < 64
            ∧ (sn.bytes.getD 63 0).toNat = 0)) []

/-- R176, R177: the assertions: length before structure; no error exactly when the predicate of the same operand
holds. -/
def Obligations.AssertionsRaiseByCause : Prop :=
  decode 0x00000044 = .ok .chkPk ∧ decode 0x00000045 = .ok .chkSig ∧
  ∀ (s : State) (sn : Snap), s.snap = some sn →
    (sn.len0.toNat ≠ 32 → CompletesErr .chkPk s 2 [])
      ∧ (sn.len0.toNat = 32 → 128 ≤ (sn.bytes.getD 15 0).toNat → CompletesErr .chkPk s 8 [])
      ∧ (sn.len0.toNat = 32 → (sn.bytes.getD 15 0).toNat < 128 → CompletesOk .chkPk s [] false [])
      ∧ (sn.len0.toNat ≠ 64 → CompletesErr .chkSig s 2 [])
      ∧ (sn.len0.toNat = 64 → (128 ≤ (sn.bytes.getD 15 0).toNat ∨ 64 ≤ (sn.bytes.getD 62 0).toNat
            ∨ (sn.bytes.getD 63 0).toNat ≠ 0) → CompletesErr .chkSig s 9 [])
      ∧ (sn.len0.toNat = 64 → (sn.bytes.getD 15 0).toNat < 128 → (sn.bytes.getD 62 0).toNat < 64 →
            (sn.bytes.getD 63 0).toNat = 0 → CompletesOk .chkSig s [] false [])

/-! ## Scalars -/

/-- R190 to R192: for any 32-byte operands, reduced or not. -/
def Obligations.ScalarCommandsPublishResidues : Prop :=
  decode 0x00000050 = .ok .scRed ∧ decode 0x00000051 = .ok .scMul ∧ decode 0x00000052 = .ok .scSub ∧
  ∀ (s : State) (sn : Snap), s.snap = some sn →
    CompletesOk .scRed s (bytesN 32 (scVal sn 0 % orderQ)) false []
      ∧ CompletesOk .scMul s (bytesN 32 (scVal sn 0 * scVal sn 1 % orderQ)) false []
      ∧ CompletesOk .scSub s (bytesN 32 (((scVal sn 0 : Int) - scVal sn 1) % orderQ).toNat) false []

/-- R190, E4, for every modulus that fits 32 bytes: reduction is idempotent, its result is below Q; R192: for reduced
operands sc_sub adds Q on underflow. -/
def Obligations.ScalarReductionLaws : Prop :=
  ∀ (cfg : Config) (a b : List Byte), 0 < cfg.q → cfg.q < 2 ^ 256 →
    scReduce cfg (scReduce cfg a) = scReduce cfg a ∧ leNat (scReduce cfg a) < cfg.q
      ∧ (leNat a < cfg.q → leNat b < cfg.q →
          leNat (scSub cfg a b) = if leNat b ≤ leNat a then leNat a - leNat b else leNat a + cfg.q - leNat b)

/-! ## Protocol. `E` is the value `pt_encode` gives, which exists by `Obligations.KeygenAndSignAlwaysComplete`. -/

/-- R201. -/
def Obligations.KeygenPublishesThePublicKey : Prop :=
  decode 0x00000060 = .ok .keygen ∧
  ∀ (s : State) (sn : Snap) (seed E : List Byte) (k : Nat), s.snap = some sn → seed = slice sn.bytes 0 32 →
    k = leNat (slice (coreConfig.xof seed 64) 0 32) % orderQ →
    (sn.len0.toNat ≠ 32 → CompletesErr .keygen s 2 [])
      ∧ (sn.len0.toNat = 32 → ptEncode (ptSmulBase coreConfig k) = .ok E → CompletesOk .keygen s E false [seed])

/-- R203: the seven steps; one length error for all three operands, before anything is hashed. -/
def Obligations.SignPublishesTheSignature : Prop :=
  decode 0x00000061 = .ok .sign ∧
  ∀ (s : State) (sn : Snap) (seed pk md nonceInput renc : List Byte) (r h k : Nat), s.snap = some sn →
    seed = slice sn.bytes 0 32 → pk = slice sn.bytes 32 32 → md = slice sn.bytes 64 32 →
    nonceInput = slice (coreConfig.xof seed 64) 32 32 ++ md →
    r = leNat (slice (coreConfig.xof nonceInput 64) 0 32) % orderQ →
    h = leNat (slice (coreConfig.xof (renc ++ pk ++ md) 64) 0 32) % orderQ →
    k = leNat (slice (coreConfig.xof seed 64) 0 32) % orderQ →
    (¬(sn.len0.toNat = 32 ∧ sn.len1.toNat = 32 ∧ sn.len2.toNat = 32) → CompletesErr .sign s 2 [])
      ∧ (sn.len0.toNat = 32 → sn.len1.toNat = 32 → sn.len2.toNat = 32 →
          ptEncode (ptSmulBase coreConfig r) = .ok renc →
          CompletesOk .sign s (renc ++ bytesN 32 (((r : Int) - k * h) % orderQ).toNat) false
            [seed, nonceInput, renc ++ pk ++ md])

/-- R205: VERIFY never raises; FLAG is 1 exactly when every check passes; the hash is called once, exactly when the
lengths, the validators and the decoding pass. -/
def Obligations.VerifyNeverRaises : Prop :=
  decode 0x00000062 = .ok .verify ∧
  ∀ (s : State) (sn : Snap) (pk md sig : List Byte) (h z : Nat), s.snap = some sn →
    pk = slice sn.bytes 0 32 → md = slice sn.bytes 32 32 → sig = slice sn.bytes 64 64 →
    h = leNat (slice (coreConfig.xof (slice sig 0 32 ++ pk ++ md) 64) 0 32) % orderQ →
    z = leNat (slice sig 32 32) % orderQ →
    ∃ (flag : Bool) (calls : List (List Byte)), CompletesOk .verify s [] flag calls
      ∧ (flag = true ↔
          sn.len0.toNat = 32 ∧ sn.len1.toNat = 32 ∧ sn.len2.toNat = 64 ∧ (pk.getD 15 0).toNat < 128
          ∧ (sig.getD 15 0).toNat < 128 ∧ (sig.getD 62 0).toNat < 64 ∧ (sig.getD 63 0).toNat = 0
          ∧ ∃ a, ptDecode coreConfig pk = .ok a
              ∧ ptEncode (ptAdd coreConfig (ptSmulBase coreConfig z) (ptSmul coreConfig a h)) = .ok (slice sig 0 32))
      ∧ (calls = [] ∨ calls = [slice sig 0 32 ++ pk ++ md])
      ∧ (calls ≠ [] ↔
          sn.len0.toNat = 32 ∧ sn.len1.toNat = 32 ∧ sn.len2.toNat = 64 ∧ (pk.getD 15 0).toNat < 128
          ∧ (sig.getD 15 0).toNat < 128 ∧ (sig.getD 62 0).toNat < 64 ∧ (sig.getD 63 0).toNat = 0
          ∧ ∃ a, ptDecode coreConfig pk = .ok a)

/-- R201, R203: on operands of the right lengths KEYGEN and SIGN always return Ok: pt_encode's E_DOMAIN "cannot occur
for a multiple of the base point". Their results pass VAL_PK and VAL_SIG. Over the constants of R7 and R8 (PRESUMED, log
entry 4), and with a hash collaborator that answers (R63, log entry 11). -/
def Obligations.KeygenAndSignAlwaysComplete : Prop :=
  ∀ (s : State) (sn : Snap), s.snap = some sn → sn.len0.toNat = 32 →
    (∃ out calls, CompletesOk .keygen s out false calls ∧ out.length = 32 ∧ (out.getD 15 0).toNat < 128)
      ∧ (sn.len1.toNat = 32 → sn.len2.toNat = 32 →
          ∃ out calls, CompletesOk .sign s out false calls ∧ out.length = 64 ∧ (out.getD 15 0).toNat < 128
            ∧ (out.getD 62 0).toNat < 64 ∧ (out.getD 63 0).toNat = 0)

/-- R7, R8, R9, 92_eei_decisions.md D21, D22: what a model may assume of any configuration holds of the constants
supplied (PRESUMED, log entries 4 to 6), but for the primality of Q, which is not stated here (log entry 22). -/
def Obligations.SuppliedConstantsAreSound : Prop := ConfigSound coreConfig

/-! ## PT_DEC, the rest of its outcomes -/

/-- R171 after the guard, the whole outcome: with y the operand's two halves, each reduced, and the sign bit taken off,
and u = (y² − 1)/(D·y² + 1), PT_DEC raises E_NO_ROOT exactly when `f2_sqrt` finds no root of u, which is when u has no
root, or, for a real u, no real root (corner case 4); else it publishes the root, negated if its sign is not the
operand's. Corner cases 1 and 2 are included: the sign bit set with x = (0,0), for which y² = 1, and a half equal to P.
That D·y² + 1 is never zero, so that E_DOMAIN does not occur, rests on the supplied D (GK5; PRESUMED, log entry 4). -/
def Obligations.PtDecDecidesByTheRoot : Prop :=
  ∀ (s : State) (sn : Snap) (y y2 den : Fp2) (sign : Nat), s.snap = some sn → sn.len0.toNat = 32 →
    (sn.bytes.getD 15 0).toNat < 128 →
    y = { re := Fp.ofNat (leNat (slice sn.bytes 0 16)), im := Fp.ofNat (leNat (slice sn.bytes 16 16) % 2 ^ 127) } →
    y2 = f2Sqr y → den = f2Add (f2Mul curveD y2) f2One → sign = leNat (slice sn.bytes 16 16) / 2 ^ 127 →
    den ≠ f2Zero ∧ ∃ (u : Fp2) (root : Option Fp2), f2Mul u den = f2Sub y2 f2One ∧ f2Sqrt u = .ok root
      ∧ (root = none ↔ ¬∃ c, f2Sqr c = u ∧ (u.im.val = 0 → c.im.val = 0))
      ∧ (root = none → CompletesErr .ptDec s 5 [])
      ∧ (∀ x0 x, root = some x0 → x = (if xSign x0 ≠ sign then f2Neg x0 else x0) →
          f2Sqr x0 = u
            ∧ CompletesOk .ptDec s (f2Bytes x ++ f2Bytes y ++ f2Bytes f2One ++ f2Bytes (f2Mul x y)) false [])
      ∧ (y2 = f2One →
          CompletesOk .ptDec s (f2Bytes f2Zero ++ f2Bytes y ++ f2Bytes f2One ++ f2Bytes f2Zero) false [])
end

