-- ==== Sys2Proof/Laws/Bytes.lean ====
section
/-! SUPPORT. Byte sequences: lengths, bounds, and that `le` and `bytes_n` are inverse (00_scope.md R13). -/

namespace Sys2Proof.Machine

@[simp] theorem bytesN_length (n v : Nat) : (bytesN n v).length = n := by
  induction n generalizing v with
  | zero => rfl
  | succ n ih => simp [bytesN, ih]

@[simp] theorem slice_length (bs : List Byte) (i n : Nat) : (slice bs i n).length = n := by simp [slice]

@[simp] theorem zeroBytes_length (n : Nat) : (zeroBytes n).length = n := by simp [zeroBytes]

theorem slice_getD (bs : List Byte) (i n k : Nat) :
    (slice bs i n).getD k 0 = if k < n then bs.getD (i + k) 0 else 0 := by
  by_cases h : k < n <;> simp [slice, List.getD_eq_getElem?_getD, h]

theorem zeroBytes_getD (n k : Nat) : (zeroBytes n).getD k 0 = 0 := by
  by_cases h : k < n <;> simp [zeroBytes, List.getD_eq_getElem?_getD, h]

theorem leNat_lt (bs : List Byte) : leNat bs < 256 ^ bs.length := by
  induction bs with
  | nil => simp [leNat]
  | cons b bs ih =>
    have hb := b.isLt
    simp only [leNat, List.length_cons, Nat.pow_succ]
    omega

theorem leNat_bytesN (n v : Nat) : leNat (bytesN n v) = v % 256 ^ n := by
  induction n generalizing v with
  | zero => simp [bytesN, leNat, Nat.mod_one]
  | succ n ih =>
    have h8 : (BitVec.ofNat 8 v).toNat = v % 256 := by simp
    simp only [bytesN, leNat, ih, h8]
    rw [show (256 : Nat) ^ (n + 1) = 256 * 256 ^ n by rw [Nat.pow_succ, Nat.mul_comm], Nat.mod_mul]

/-- `le(bytes_n(v)) = v` for the v that R13 allows. -/
theorem leNat_bytesN_of_lt {n v : Nat} (h : v < 256 ^ n) : leNat (bytesN n v) = v := by
  rw [leNat_bytesN, Nat.mod_eq_of_lt h]

/-- `bytes_n(le(B)) = B` for a sequence of n bytes. -/
theorem bytesN_leNat (bs : List Byte) : bytesN bs.length (leNat bs) = bs := by
  induction bs with
  | nil => rfl
  | cons b bs ih =>
    have hb := b.isLt
    have hq : (b.toNat + 256 * leNat bs) / 256 = leNat bs := by omega
    have hr : BitVec.ofNat 8 (b.toNat + 256 * leNat bs) = b := by
      apply BitVec.eq_of_toNat_eq
      simp only [BitVec.toNat_ofNat]
      omega
    simp only [List.length_cons, bytesN, leNat, hq, hr, ih]

theorem bytesN_getD (n v k : Nat) :
    (bytesN n v).getD k 0 = if k < n then BitVec.ofNat 8 (v / 256 ^ k) else 0 := by
  induction n generalizing v k with
  | zero => simp [bytesN]
  | succ n ih =>
    cases k with
    | zero => simp [bytesN]
    | succ k =>
      have h := ih (v / 256) k
      simp only [bytesN, List.getD_cons_succ, h, Nat.add_lt_add_iff_right, Nat.div_div_eq_div_mul,
        Nat.pow_succ, Nat.mul_comm]

end Sys2Proof.Machine
end

