-- ==== Sys2Proof/Laws/Memory.lean ====
section
/-! SUPPORT. The window's memory: what each operation reads afterwards, and that each keeps the canonical form. -/

namespace Sys2Proof.Machine

@[simp] theorem Memory.read_nil (a : Nat) : Memory.read [] a = 0 := rfl

theorem Memory.read_cons (c : Host.Cell) (m : Memory) (a : Nat) :
    Memory.read (c :: m) a = if c.1 = a then c.2 else Memory.read m a := rfl

/-- An offset that is not listed reads 0x00. -/
theorem Memory.read_of_not_listed {m : Memory} {a : Nat} (h : ∀ c ∈ m, c.1 ≠ a) : m.read a = 0 := by
  induction m with
  | nil => rfl
  | cons c m ih =>
    rw [Memory.read_cons, if_neg (h c List.mem_cons_self)]
    exact ih fun d hd => h d (List.mem_cons_of_mem c hd)

theorem Memory.read_append_of_left {m l : Memory} {a : Nat} (h : ∀ c ∈ l, c.1 ≠ a) :
    Memory.read (m ++ l) a = m.read a := by
  induction m with
  | nil => exact Memory.read_of_not_listed h
  | cons c m ih => simp only [List.cons_append, Memory.read_cons, ih]

theorem Memory.read_append_of_right {m l : Memory} {a : Nat} (h : ∀ c ∈ m, c.1 ≠ a) :
    Memory.read (m ++ l) a = Memory.read l a := by
  induction m with
  | nil => rfl
  | cons c m ih =>
    rw [List.cons_append, Memory.read_cons, if_neg (h c List.mem_cons_self)]
    exact ih fun d hd => h d (List.mem_cons_of_mem c hd)

theorem Memory.read_filter {m : Memory} {p : Host.Cell → Bool} {a : Nat} (h : ∀ c ∈ m, c.1 = a → p c = true) :
    Memory.read (m.filter p) a = m.read a := by
  induction m with
  | nil => rfl
  | cons c m ih =>
    have ih' := ih fun d hd => h d (List.mem_cons_of_mem c hd)
    rw [List.filter_cons, Memory.read_cons]
    by_cases hc : c.1 = a
    · rw [if_pos (h c List.mem_cons_self hc), Memory.read_cons]
      simp [hc]
    · rw [if_neg hc]
      by_cases hp : p c = true
      · rw [if_pos hp, Memory.read_cons, if_neg hc, ih']
      · rw [if_neg hp, ih']

/-! ## `cellsOf` -/

theorem mem_cellsOf {a : Nat} {bs : List Byte} {c : Host.Cell} (h : c ∈ cellsOf a bs) :
    a ≤ c.1 ∧ c.1 < a + bs.length ∧ c.2 ≠ 0 := by
  induction bs generalizing a with
  | nil => simp [cellsOf] at h
  | cons b bs ih =>
    rw [cellsOf] at h
    split at h
    · have := ih h
      simp only [List.length_cons]
      exact ⟨by omega, by omega, this.2.2⟩
    · rename_i hb
      rcases List.mem_cons.mp h with rfl | h
      · simp only [List.length_cons]
        exact ⟨le_refl _, by omega, hb⟩
      · have := ih h
        simp only [List.length_cons]
        exact ⟨by omega, by omega, this.2.2⟩

theorem cellsOf_pairwise (a : Nat) (bs : List Byte) : (cellsOf a bs).Pairwise (fun c d => c.1 < d.1) := by
  induction bs generalizing a with
  | nil => exact List.Pairwise.nil
  | cons b bs ih =>
    rw [cellsOf]
    split
    · exact ih _
    · refine List.Pairwise.cons (fun d hd => ?_) (ih _)
      have := (mem_cellsOf hd).1
      simp only
      omega

theorem cellsOf_read (a : Nat) (bs : List Byte) (x : Nat) :
    Memory.read (cellsOf a bs) x = if a ≤ x ∧ x < a + bs.length then bs.getD (x - a) 0 else 0 := by
  induction bs generalizing a with
  | nil => simp [cellsOf]
  | cons b bs ih =>
    have hcons : Memory.read (cellsOf a (b :: bs)) x = if a = x then b else Memory.read (cellsOf (a + 1) bs) x := by
      rw [cellsOf]
      split
      · rename_i hb
        split
        · rename_i hx
          subst hx
          rw [hb]
          exact Memory.read_of_not_listed fun c hc => by have := (mem_cellsOf hc).1; omega
        · rfl
      · rfl
    rw [hcons, ih]
    by_cases hx : a = x
    · subst hx
      simp
    · rw [if_neg hx]
      by_cases hin : a + 1 ≤ x ∧ x < a + 1 + bs.length
      · have h2 : a ≤ x ∧ x < a + (b :: bs).length := by simp only [List.length_cons]; omega
        have h3 : x - a = (x - (a + 1)) + 1 := by omega
        rw [if_pos hin, if_pos h2, h3, List.getD_cons_succ]
      · have h2 : ¬(a ≤ x ∧ x < a + (b :: bs).length) := by simp only [List.length_cons]; omega
        rw [if_neg hin, if_neg h2]

/-! ## `writeRange` -/

/-- Everything a write of a range does: the range reads the bytes written, every other offset reads as before. -/
theorem Memory.read_writeRange (m : Memory) (a : Nat) (bs : List Byte) (x : Nat) :
    (m.writeRange a bs).read x = if a ≤ x ∧ x < a + bs.length then bs.getD (x - a) 0 else m.read x := by
  unfold Memory.writeRange
  by_cases h1 : x < a
  · rw [List.append_assoc, Memory.read_append_of_left, Memory.read_filter, if_neg (by omega)]
    · intro c _ hc
      simp only [hc, decide_eq_true_eq]
      exact h1
    · intro c hc
      rcases List.mem_append.mp hc with hc | hc
      · have := (mem_cellsOf hc).1
        omega
      · have := (List.mem_filter.mp hc).2
        simp only [decide_eq_true_eq] at this
        omega
  · rw [List.append_assoc, Memory.read_append_of_right]
    · by_cases h2 : x < a + bs.length
      · rw [Memory.read_append_of_left, cellsOf_read]
        · simp only [h2, and_true, show a ≤ x by omega, if_true]
        · intro c hc
          have := (List.mem_filter.mp hc).2
          simp only [decide_eq_true_eq] at this
          omega
      · rw [Memory.read_append_of_right, Memory.read_filter, if_neg (by omega)]
        · intro c _ hc
          simp only [hc, decide_eq_true_eq]
          omega
        · intro c hc
          have := (mem_cellsOf hc).2.1
          omega
    · intro c hc
      have := (List.mem_filter.mp hc).2
      simp only [decide_eq_true_eq] at this
      omega

/-- A write of a range keeps the canonical form. -/
theorem Memory.writeRange_wf {m : Memory} (h : m.wf) (a : Nat) (bs : List Byte) : (m.writeRange a bs).wf := by
  obtain ⟨hs, hz⟩ := h
  refine ⟨?_, ?_⟩
  · unfold Memory.writeRange
    rw [List.append_assoc, List.pairwise_append]
    refine ⟨hs.filter _, ?_, ?_⟩
    · rw [List.pairwise_append]
      refine ⟨cellsOf_pairwise a bs, hs.filter _, ?_⟩
      intro c hc d hd
      have h1 := (mem_cellsOf hc).2.1
      have h2 := (List.mem_filter.mp hd).2
      simp only [decide_eq_true_eq] at h2
      omega
    · intro c hc d hd
      have h1 := (List.mem_filter.mp hc).2
      simp only [decide_eq_true_eq] at h1
      rcases List.mem_append.mp hd with hd | hd
      · have := (mem_cellsOf hd).1
        omega
      · have h2 := (List.mem_filter.mp hd).2
        simp only [decide_eq_true_eq] at h2
        omega
  · intro c hc
    unfold Memory.writeRange at hc
    rcases List.mem_append.mp hc with hc | hc
    · rcases List.mem_append.mp hc with hc | hc
      · exact hz c (List.mem_filter.mp hc).1
      · exact (mem_cellsOf hc).2.2
    · exact hz c (List.mem_filter.mp hc).1

/-- Where the entries of a written memory come from. -/
theorem Memory.mem_writeRange {m : Memory} {a : Nat} {bs : List Byte} {c : Host.Cell} (h : c ∈ m.writeRange a bs) :
    c ∈ m ∨ (a ≤ c.1 ∧ c.1 < a + bs.length) := by
  unfold Memory.writeRange at h
  rcases List.mem_append.mp h with h | h
  · rcases List.mem_append.mp h with h | h
    · exact .inl (List.mem_filter.mp h).1
    · exact .inr ⟨(mem_cellsOf h).1, (mem_cellsOf h).2.1⟩
  · exact .inl (List.mem_filter.mp h).1

/-! ## `setOut` and `readRange` -/

@[simp] theorem isOut_iff (x : Nat) : isOut x = true ↔ 0x200 ≤ x ∧ x < 0x280 := by
  unfold isOut
  rw [Bool.and_eq_true, decide_eq_true_iff, decide_eq_true_iff]
  rfl

@[simp] theorem isIn_iff (x : Nat) : isIn x = true ↔ 0x100 ≤ x ∧ x < 0x200 := by
  unfold isIn
  rw [Bool.and_eq_true, decide_eq_true_iff, decide_eq_true_iff]
  rfl

theorem paddedOut_length (v : List Byte) : ((v ++ zeroBytes outSize).take outSize).length = 128 := by
  simp [outSize]

/-- Everything `OUT <- v` does (R22): OUT reads `v` followed by 0x00, every other offset reads as before. -/
theorem Memory.read_setOut (m : Memory) (v : List Byte) (x : Nat) :
    (m.setOut v).read x = if isOut x = true then v.getD (x - 0x200) 0 else m.read x := by
  unfold Memory.setOut
  rw [Memory.read_writeRange, paddedOut_length]
  simp only [isOut_iff, show outBase = 512 from rfl]
  by_cases h : 512 ≤ x ∧ x < 640
  · rw [if_pos (by omega), if_pos h]
    simp only [zeroBytes, outSize, List.getD_eq_getElem?_getD, List.getElem?_take, show x - 512 < 128 by omega, if_true]
    by_cases hv : x - 512 < v.length
    · rw [List.getElem?_append_left hv]
    · rw [List.getElem?_append_right (by omega), List.getElem?_eq_none (l := v) (by omega),
        List.getElem?_replicate_of_lt (by omega)]
      rfl
  · rw [if_neg (by omega), if_neg h]

theorem Memory.setOut_wf {m : Memory} (h : m.wf) (v : List Byte) : (m.setOut v).wf := Memory.writeRange_wf h _ _

@[simp] theorem Memory.readRange_length (m : Memory) (a n : Nat) : (m.readRange a n).length = n := by
  simp [Memory.readRange]

theorem Memory.readRange_getD (m : Memory) (a n k : Nat) :
    (m.readRange a n).getD k 0 = if k < n then m.read (a + k) else 0 := by
  by_cases h : k < n <;> simp [Memory.readRange, List.getD_eq_getElem?_getD, h]

end Sys2Proof.Machine
end

