-- ==== Sys2Proof/Laws/Operands.lean ====
section
/-! SUPPORT. Operand forms and formats in plain terms (30_encoding.md R72 to R79): what each operand reads of the
snapshot, and what each format writes. -/

namespace Sys2Proof.Machine

theorem slice_slice {bs : List Byte} {i n j m : Nat} (h : j + m ≤ n) : slice (slice bs i n) j m = slice bs (i + j) m := by
  apply List.ext_getElem (by simp)
  intro k h1 h2
  have hk : k < m := by simpa using h1
  simp only [slice, List.getElem_map, List.getElem_range]
  have hjk : j + k < n := by omega
  simp [List.getD_eq_getElem?_getD, hjk, Nat.add_assoc]

theorem slice_append_right {a b : List Byte} {i n : Nat} (h : a.length ≤ i) :
    slice (a ++ b) i n = slice b (i - a.length) n := by
  apply List.ext_getElem (by simp)
  intro k h1 h2
  simp only [slice, List.getElem_map, List.getElem_range, List.getD_eq_getElem?_getD]
  rw [List.getElem?_append_right (by omega)]
  congr 2
  omega

theorem slice_append_left {a b : List Byte} {i n : Nat} (h : i + n ≤ a.length) : slice (a ++ b) i n = slice a i n := by
  apply List.ext_getElem (by simp)
  intro k h1 h2
  have hk : k < n := by simpa using h1
  simp only [slice, List.getElem_map, List.getElem_range, List.getD_eq_getElem?_getD]
  rw [List.getElem?_append_left (by omega)]

theorem slice_self {bs : List Byte} : slice bs 0 bs.length = bs := by
  apply List.ext_getElem (by simp)
  intro k h1 h2
  simp [slice, List.getD_eq_getElem?_getD, h2]

/-! ## Operands -/

@[simp] theorem Snap.slot_length (sn : Snap) (k : Nat) : (sn.slot k).length = 32 := by simp [Snap.slot]

theorem fpDec_val (b : List Byte) : (fpDec b).val = leNat b % P := rfl

theorem Fp.ofNat_mod (x : Nat) : Fp.ofNat (x % P) = Fp.ofNat x := by
  apply Fin.ext
  simp [Fp.ofNat]

/-- An Fp operand is its low half, reduced (R72, R79). -/
theorem Snap.fpOperand_val (sn : Snap) (k : Nat) : (sn.fpOperand k).val = loVal sn k := by
  simp only [Snap.fpOperand, fpDec_val, Snap.slot, loVal]
  rw [slice_slice (by omega), Nat.add_zero]

/-- An Fp2 operand is a slot's two halves, each reduced (R73). -/
theorem Snap.f2Operand_eq (sn : Snap) (k : Nat) : sn.f2Operand k = f2Val sn k := by
  simp only [Snap.f2Operand, f2Dec, fpDec, Snap.slot, f2Val, loVal, hiVal, Fp.ofNat_mod]
  rw [slice_slice (by omega), slice_slice (by omega), Nat.add_zero]

/-- A scalar operand is a whole slot, not reduced (R75). -/
theorem Snap.scOperand_eq (sn : Snap) (k : Nat) : sn.scOperand k = scVal sn k := rfl

/-- A point operand is four consecutive slots (R74). -/
theorem Snap.ptOperand_eq (sn : Snap) (k : Nat) : sn.ptOperand k = ptVal sn k := by
  have hx : slice (sn.slot k ++ sn.slot (k + 1) ++ sn.slot (k + 2) ++ sn.slot (k + 3)) 0 32 = sn.slot k := by
    rw [slice_append_left (by simp), slice_append_left (by simp), slice_append_left (by simp)]
    exact (congrArg (slice (sn.slot k) 0) (Snap.slot_length sn k).symm).trans slice_self
  have hy : slice (sn.slot k ++ sn.slot (k + 1) ++ sn.slot (k + 2) ++ sn.slot (k + 3)) 32 32 = sn.slot (k + 1) := by
    rw [slice_append_left (by simp), slice_append_left (by simp), slice_append_right (by simp)]
    simp only [Snap.slot_length, Nat.sub_self]
    exact (congrArg (slice (sn.slot (k + 1)) 0) (Snap.slot_length sn (k + 1)).symm).trans slice_self
  have hz : slice (sn.slot k ++ sn.slot (k + 1) ++ sn.slot (k + 2) ++ sn.slot (k + 3)) 64 32 = sn.slot (k + 2) := by
    rw [slice_append_left (by simp), slice_append_right (by simp)]
    simp only [List.length_append, Snap.slot_length]
    exact (congrArg (slice (sn.slot (k + 2)) 0) (Snap.slot_length sn (k + 2)).symm).trans slice_self
  have ht : slice (sn.slot k ++ sn.slot (k + 1) ++ sn.slot (k + 2) ++ sn.slot (k + 3)) 96 32 = sn.slot (k + 3) := by
    rw [slice_append_right (by simp)]
    simp only [List.length_append, Snap.slot_length]
    exact (congrArg (slice (sn.slot (k + 3)) 0) (Snap.slot_length sn (k + 3)).symm).trans slice_self
  simp only [Snap.ptOperand, ptDec, hx, hy, hz, ht, ptVal, ← Snap.f2Operand_eq, Snap.f2Operand]

/-- A byte-sequence operand is read exactly when its length register holds the required length (R78). -/
theorem Snap.bytesOperand_eq_some {sn : Snap} {len : Word} {base required : Nat} {b : List Byte} :
    sn.bytesOperand len base required = some b ↔ len.toNat = required ∧ b = slice sn.bytes base required := by
  unfold Snap.bytesOperand
  split <;> simp_all [eq_comm]

theorem Snap.bytesOperand_eq_none {sn : Snap} {len : Word} {base required : Nat} :
    sn.bytesOperand len base required = none ↔ len.toNat ≠ required := by
  unfold Snap.bytesOperand
  split <;> simp_all

/-! ## Formats written -/

/-- The range check of `fp_enc` never fires on an Fp value (R101). -/
@[simp] theorem fpEnc_eq (a : Fp) : fpEnc a = .ok (bytesN 16 a.val) := by
  have h := a.isLt
  have hP : P < 2 ^ 128 := by decide
  unfold fpEnc
  rw [if_neg (by omega)]

@[simp] theorem f2Enc_eq (x : Fp2) : f2Enc x = .ok (f2Bytes x) := by
  simp [f2Enc, f2Bytes, Bind.bind, Except.bind, Pure.pure, Except.pure]

@[simp] theorem ptEnc128_eq (p : Point) : ptEnc128 p = .ok (ptBytes p) := by
  simp [ptEnc128, ptBytes, Bind.bind, Except.bind, Pure.pure, Except.pure]

@[simp] theorem f2Bytes_length (x : Fp2) : (f2Bytes x).length = 32 := by simp [f2Bytes]

@[simp] theorem ptBytes_length (p : Point) : (ptBytes p).length = 128 := by simp [ptBytes]

@[simp] theorem retFp_eq (a : Fp) : retFp a = .ok { out := bytesN 16 a.val, flag := false } := by
  simp [retFp, Bind.bind, Except.bind, Pure.pure, Except.pure]

@[simp] theorem retF2_eq (x : Fp2) : retF2 x = .ok { out := f2Bytes x, flag := false } := by
  simp [retF2, Bind.bind, Except.bind, Pure.pure, Except.pure]

@[simp] theorem retPt_eq (p : Point) : retPt p = .ok { out := ptBytes p, flag := false } := by
  simp [retPt, Bind.bind, Except.bind, Pure.pure, Except.pure]

end Sys2Proof.Machine
end

