-- ==== Sys2Proof/Laws/State.lean ====
section
/-! SUPPORT. One lemma per field per update of the state, each true by `rfl`. -/

namespace Sys2Proof.Machine

@[simp] theorem State.accept_cmd (s : State) (w : Word) : (s.accept w).cmd = w := rfl
@[simp] theorem State.accept_status (s : State) (w : Word) : (s.accept w).status = statusClear := rfl
@[simp] theorem State.accept_len0 (s : State) (w : Word) : (s.accept w).len0 = s.len0 := rfl
@[simp] theorem State.accept_len1 (s : State) (w : Word) : (s.accept w).len1 = s.len1 := rfl
@[simp] theorem State.accept_len2 (s : State) (w : Word) : (s.accept w).len2 = s.len2 := rfl
@[simp] theorem State.accept_mem (s : State) (w : Word) : (s.accept w).mem = s.mem.setOut [] := rfl
@[simp] theorem State.accept_snap (s : State) (w : Word) : (s.accept w).snap = some s.takeSnap := rfl
@[simp] theorem State.accept_script (s : State) (w : Word) : (s.accept w).script = s.script := rfl
@[simp] theorem State.accept_readData (s : State) (w : Word) : (s.accept w).readData = s.readData := rfl
@[simp] theorem State.accept_xofCalls (s : State) (w : Word) : (s.accept w).xofCalls = [] := rfl

@[simp] theorem State.publish_cmd (s : State) (r : CmdReturn) : (s.publish r).cmd = s.cmd := rfl
@[simp] theorem State.publish_status (s : State) (r : CmdReturn) : (s.publish r).status = statusOk r.flag := rfl
@[simp] theorem State.publish_len0 (s : State) (r : CmdReturn) : (s.publish r).len0 = s.len0 := rfl
@[simp] theorem State.publish_len1 (s : State) (r : CmdReturn) : (s.publish r).len1 = s.len1 := rfl
@[simp] theorem State.publish_len2 (s : State) (r : CmdReturn) : (s.publish r).len2 = s.len2 := rfl
@[simp] theorem State.publish_mem (s : State) (r : CmdReturn) : (s.publish r).mem = s.mem.setOut r.out := rfl
@[simp] theorem State.publish_snap (s : State) (r : CmdReturn) : (s.publish r).snap = none := rfl
@[simp] theorem State.publish_script (s : State) (r : CmdReturn) : (s.publish r).script = s.script := rfl
@[simp] theorem State.publish_readData (s : State) (r : CmdReturn) : (s.publish r).readData = s.readData := rfl
@[simp] theorem State.publish_xofCalls (s : State) (r : CmdReturn) : (s.publish r).xofCalls = s.xofCalls := rfl

@[simp] theorem State.raiseError_cmd (s : State) (e : ErrCode) : (s.raiseError e).cmd = s.cmd := rfl
@[simp] theorem State.raiseError_status (s : State) (e : ErrCode) : (s.raiseError e).status = statusErr e := rfl
@[simp] theorem State.raiseError_len0 (s : State) (e : ErrCode) : (s.raiseError e).len0 = s.len0 := rfl
@[simp] theorem State.raiseError_len1 (s : State) (e : ErrCode) : (s.raiseError e).len1 = s.len1 := rfl
@[simp] theorem State.raiseError_len2 (s : State) (e : ErrCode) : (s.raiseError e).len2 = s.len2 := rfl
@[simp] theorem State.raiseError_mem (s : State) (e : ErrCode) : (s.raiseError e).mem = s.mem.setOut [] := rfl
@[simp] theorem State.raiseError_snap (s : State) (e : ErrCode) : (s.raiseError e).snap = none := rfl
@[simp] theorem State.raiseError_script (s : State) (e : ErrCode) : (s.raiseError e).script = s.script := rfl
@[simp] theorem State.raiseError_readData (s : State) (e : ErrCode) : (s.raiseError e).readData = s.readData := rfl
@[simp] theorem State.raiseError_xofCalls (s : State) (e : ErrCode) : (s.raiseError e).xofCalls = s.xofCalls := rfl

@[simp] theorem State.applyReset_cmd (s : State) : s.applyReset.cmd = 0 := rfl
@[simp] theorem State.applyReset_status (s : State) : s.applyReset.status = statusClear := rfl
@[simp] theorem State.applyReset_len0 (s : State) : s.applyReset.len0 = 0 := rfl
@[simp] theorem State.applyReset_len1 (s : State) : s.applyReset.len1 = 0 := rfl
@[simp] theorem State.applyReset_len2 (s : State) : s.applyReset.len2 = 0 := rfl
@[simp] theorem State.applyReset_mem (s : State) : s.applyReset.mem = [] := rfl
@[simp] theorem State.applyReset_snap (s : State) : s.applyReset.snap = none := rfl
@[simp] theorem State.applyReset_script (s : State) : s.applyReset.script = s.script := rfl
@[simp] theorem State.applyReset_readData (s : State) : s.applyReset.readData = s.readData := rfl
@[simp] theorem State.applyReset_xofCalls (s : State) : s.applyReset.xofCalls = [] := rfl

@[simp] theorem State.placeCommand_cmd (s : State) (w : Word) : (s.placeCommand w).cmd = w := rfl
@[simp] theorem State.placeCommand_status (s : State) (w : Word) : (s.placeCommand w).status = statusClear := rfl
@[simp] theorem State.placeCommand_len0 (s : State) (w : Word) : (s.placeCommand w).len0 = s.len0 := rfl
@[simp] theorem State.placeCommand_len1 (s : State) (w : Word) : (s.placeCommand w).len1 = s.len1 := rfl
@[simp] theorem State.placeCommand_len2 (s : State) (w : Word) : (s.placeCommand w).len2 = s.len2 := rfl
@[simp] theorem State.placeCommand_mem (s : State) (w : Word) : (s.placeCommand w).mem = s.mem.setOut [] := rfl
@[simp] theorem State.placeCommand_snap (s : State) (w : Word) : (s.placeCommand w).snap = some s.takeSnap := rfl
@[simp] theorem State.placeCommand_script (s : State) (w : Word) : (s.placeCommand w).script = coreNext s.script := rfl
@[simp] theorem State.placeCommand_readData (s : State) (w : Word) : (s.placeCommand w).readData = s.readData := rfl
@[simp] theorem State.placeCommand_xofCalls (s : State) (w : Word) : (s.placeCommand w).xofCalls = [] := rfl

@[simp] theorem State.takeSnap_len0 (s : State) : s.takeSnap.len0 = s.len0 := rfl
@[simp] theorem State.takeSnap_len1 (s : State) : s.takeSnap.len1 = s.len1 := rfl
@[simp] theorem State.takeSnap_len2 (s : State) : s.takeSnap.len2 = s.len2 := rfl
@[simp] theorem State.takeSnap_bytes (s : State) : s.takeSnap.bytes = s.mem.readRange inBase inSize := rfl

@[simp] theorem State.withFetchWord_cmd (s : State) (n w : Nat) :
    (s.withFetchWord n w).cmd = BitVec.ofNat 32 (w % 2 ^ n) := rfl
@[simp] theorem State.withFetchWord_snap (s : State) (n w : Nat) : (s.withFetchWord n w).snap = some s.takeSnap := rfl
@[simp] theorem State.withFetchWord_script (s : State) (n w : Nat) :
    (s.withFetchWord n w).script = coreNext s.script := rfl

/-! ## The Complete step, whatever the outcome -/

@[simp] theorem State.complete_cmd (s : State) (r : CmdRun) : (s.complete r).cmd = s.cmd := by
  cases h : r.outcome <;> simp [State.complete, h]
@[simp] theorem State.complete_len0 (s : State) (r : CmdRun) : (s.complete r).len0 = s.len0 := by
  cases h : r.outcome <;> simp [State.complete, h]
@[simp] theorem State.complete_len1 (s : State) (r : CmdRun) : (s.complete r).len1 = s.len1 := by
  cases h : r.outcome <;> simp [State.complete, h]
@[simp] theorem State.complete_len2 (s : State) (r : CmdRun) : (s.complete r).len2 = s.len2 := by
  cases h : r.outcome <;> simp [State.complete, h]
@[simp] theorem State.complete_snap (s : State) (r : CmdRun) : (s.complete r).snap = none := by
  cases h : r.outcome <;> simp [State.complete, h]
@[simp] theorem State.complete_script (s : State) (r : CmdRun) : (s.complete r).script = s.script := by
  cases h : r.outcome <;> simp [State.complete, h]
@[simp] theorem State.complete_readData (s : State) (r : CmdRun) : (s.complete r).readData = s.readData := by
  cases h : r.outcome <;> simp [State.complete, h]
@[simp] theorem State.complete_xofCalls (s : State) (r : CmdRun) : (s.complete r).xofCalls = r.xofCalls := by
  cases h : r.outcome <;> simp [State.complete, h]

theorem State.complete_ok (s : State) (ret : CmdReturn) (calls : List (List Byte)) :
    s.complete ⟨.ok ret, calls⟩ = { s.publish ret with xofCalls := calls } := rfl

theorem State.complete_error (s : State) (e : ErrCode) (calls : List (List Byte)) :
    s.complete ⟨.error e, calls⟩ = { s.raiseError e with xofCalls := calls } := rfl

/-! ## STATUS -/

@[simp] theorem statusClear_done : statusClear.done = false := rfl
@[simp] theorem statusClear_err : statusClear.err = false := rfl
@[simp] theorem statusClear_flag : statusClear.flag = false := rfl
@[simp] theorem statusClear_errCode : statusClear.errCode = 0 := rfl
@[simp] theorem statusOk_done (f : Bool) : (statusOk f).done = true := rfl
@[simp] theorem statusOk_err (f : Bool) : (statusOk f).err = false := rfl
@[simp] theorem statusOk_flag (f : Bool) : (statusOk f).flag = f := rfl
@[simp] theorem statusOk_errCode (f : Bool) : (statusOk f).errCode = 0 := rfl
@[simp] theorem statusErr_done (e : ErrCode) : (statusErr e).done = true := rfl
@[simp] theorem statusErr_err (e : ErrCode) : (statusErr e).err = true := rfl
@[simp] theorem statusErr_flag (e : ErrCode) : (statusErr e).flag = false := rfl
@[simp] theorem statusErr_errCode (e : ErrCode) : (statusErr e).errCode = errNumber e := rfl

@[simp] theorem State.accept_busy (s : State) (w : Word) : (s.accept w).busy = true := rfl
@[simp] theorem State.complete_busy (s : State) (r : CmdRun) : (s.complete r).busy = false := by simp [State.busy]
@[simp] theorem State.applyReset_busy (s : State) : s.applyReset.busy = false := rfl

theorem State.busy_iff_snap (s : State) : s.busy = true ↔ ∃ sn, s.snap = some sn := by
  simp [State.busy, Option.isSome_iff_exists]

end Sys2Proof.Machine
end

