-- ==== Sys2Proof/Laws/Ops.lean ====
section
/-! SUPPORT. What each shared operation can do, said once: the Complete step, running a command, the host's
accesses, Accept, reset. -/

namespace Sys2Proof.Machine

/-! ## The Complete step -/

theorem State.complete_mem (s : State) (r : CmdRun) : ∃ v, (s.complete r).mem = s.mem.setOut v := by
  cases h : r.outcome with
  | ok ret => exact ⟨ret.out, by simp [State.complete, h]⟩
  | error e => exact ⟨[], by simp [State.complete, h]⟩

theorem State.complete_mem_wf {s : State} (h : s.mem.wf) (r : CmdRun) : (s.complete r).mem.wf := by
  obtain ⟨v, hv⟩ := s.complete_mem r
  rw [hv]
  exact Memory.setOut_wf h v

/-- What Complete leaves unchanged, whatever the outcome (R221). -/
theorem completeFrame_complete (s : State) (r : CmdRun) : CompleteFrame s (s.complete r) where
  cmd := by simp
  len0 := by simp
  len1 := by simp
  len2 := by simp
  mem a ha := by
    obtain ⟨v, hv⟩ := s.complete_mem r
    rw [hv, Memory.read_setOut, if_neg (by simp [ha])]
  script := by simp
  readData := by simp
  snap := by simp

theorem Memory.setOut_read_out (m : Memory) (v : List Byte) {k : Nat} (hk : k < 128) :
    (m.setOut v).read (0x200 + k) = v.getD k 0 := by
  rw [Memory.read_setOut, if_pos (by rw [isOut_iff]; omega), Nat.add_sub_cancel_left]

/-- The Ok arm of Complete (R221). -/
theorem published_complete (s : State) (ret : CmdReturn) (calls : List (List Byte)) :
    Published s (s.complete ⟨.ok ret, calls⟩) ret.out ret.flag calls where
  frame := completeFrame_complete s _
  out k hk := by
    rw [State.complete_ok]
    exact Memory.setOut_read_out s.mem ret.out hk
  status := by
    rw [State.complete_ok]
    rfl
  xofCalls := by simp

/-- The error arm of Complete (R221, R235). -/
theorem raised_complete (s : State) (e : ErrCode) (calls : List (List Byte)) :
    Raised s (s.complete ⟨.error e, calls⟩) (errNumber e) calls where
  frame := completeFrame_complete s _
  out k hk := by
    rw [State.complete_error]
    exact (Memory.setOut_read_out s.mem [] hk).trans rfl
  status := by
    rw [State.complete_error]
    rfl
  xofCalls := by simp

/-! ## Running a command -/

theorem runCommand_of_snap {f : Snap → CmdRun} {s : State} {sn : Snap} (h : s.snap = some sn) :
    runCommand f s = .next (s.complete (f sn)) := by simp [runCommand, h]

theorem runPure_of_snap {f : Snap → CmdOutcome} {s : State} {sn : Snap} (h : s.snap = some sn) :
    runPure f s = .next (s.complete ⟨f sn, []⟩) := runCommand_of_snap h

/-- All that running a command can do: it goes on exactly when a command is in flight, and then it is Complete. -/
theorem runCommand_eq_next {f : Snap → CmdRun} {s t : State} :
    runCommand f s = .next t ↔ ∃ sn, s.snap = some sn ∧ t = s.complete (f sn) := by
  unfold runCommand
  split <;> simp_all [eq_comm]

/-- What a command runs on its snapshot; `exec_eq` says that this is `exec`. -/
def runOf : Instr → Snap → CmdRun
  | .nop => fun sn => ⟨nopCmd sn, []⟩
  | .fpAdd => fun sn => ⟨fpAddCmd sn, []⟩
  | .fpSub => fun sn => ⟨fpSubCmd sn, []⟩
  | .fpNeg => fun sn => ⟨fpNegCmd sn, []⟩
  | .fpMul => fun sn => ⟨fpMulCmd sn, []⟩
  | .fpSqr => fun sn => ⟨fpSqrCmd sn, []⟩
  | .fpDiv2 => fun sn => ⟨fpDiv2Cmd sn, []⟩
  | .fpInv => fun sn => ⟨fpInvCmd sn, []⟩
  | .fpSqrt => fun sn => ⟨fpSqrtCmd sn, []⟩
  | .fpCanon => fun sn => ⟨fpCanonCmd sn, []⟩
  | .f2Add => fun sn => ⟨f2AddCmd sn, []⟩
  | .f2Sub => fun sn => ⟨f2SubCmd sn, []⟩
  | .f2Neg => fun sn => ⟨f2NegCmd sn, []⟩
  | .f2Mul => fun sn => ⟨f2MulCmd sn, []⟩
  | .f2Sqr => fun sn => ⟨f2SqrCmd sn, []⟩
  | .f2Inv => fun sn => ⟨f2InvCmd sn, []⟩
  | .f2Sqrt => fun sn => ⟨f2SqrtCmd sn, []⟩
  | .ptAdd => fun sn => ⟨ptAddCmd coreConfig sn, []⟩
  | .ptDbl => fun sn => ⟨ptDblCmd sn, []⟩
  | .ptAffine => fun sn => ⟨ptAffineCmd sn, []⟩
  | .ptOncurve => fun sn => ⟨ptOncurveCmd coreConfig sn, []⟩
  | .ptSmul => fun sn => ⟨ptSmulCmd coreConfig sn, []⟩
  | .ptSmulb => fun sn => ⟨ptSmulbCmd coreConfig sn, []⟩
  | .ptSign => fun sn => ⟨ptSignCmd sn, []⟩
  | .ptEnc => fun sn => ⟨ptEncCmd sn, []⟩
  | .ptDec => fun sn => ⟨ptDecCmd coreConfig sn, []⟩
  | .valPk => fun sn => ⟨valPkCmd sn, []⟩
  | .valSig => fun sn => ⟨valSigCmd sn, []⟩
  | .chkPk => fun sn => ⟨chkPkCmd sn, []⟩
  | .chkSig => fun sn => ⟨chkSigCmd sn, []⟩
  | .scRed => fun sn => ⟨scRedCmd coreConfig sn, []⟩
  | .scMul => fun sn => ⟨scMulCmd coreConfig sn, []⟩
  | .scSub => fun sn => ⟨scSubCmd coreConfig sn, []⟩
  | .keygen => keygenCmd coreConfig
  | .sign => signCmd coreConfig
  | .verify => verifyCmd coreConfig

/-- Every arm of `exec` runs a function of the snapshot: a proof over all commands starts here. -/
theorem exec_eq (i : Instr) (s : State) : exec i s = runCommand (runOf i) s := by cases i <;> rfl

/-- All that `exec` can do. -/
theorem exec_eq_next {i : Instr} {s t : State} :
    exec i s = .next t ↔ ∃ sn, s.snap = some sn ∧ t = s.complete (runOf i sn) := by
  rw [exec_eq, runCommand_eq_next]

theorem exec_of_snap (i : Instr) {s : State} {sn : Snap} (h : s.snap = some sn) :
    exec i s = .next (s.complete (runOf i sn)) := by rw [exec_eq, runCommand_of_snap h]

/-! ## Host accesses -/

/-- `WinRead` gives data exactly for a legal access (R53, R55). -/
theorem State.winRead_isSome (s : State) (off n : Nat) : (s.winRead off n).isSome = accessLegal off n := by
  unfold State.winRead
  split <;> simp_all

/-- All that `WinWrite` can do (R54, R55). -/
theorem State.winWrite_cases {s t : State} {off n v : Nat} (h : s.winWrite off n v = some t) :
    accessLegal off n = true ∧ v < 256 ^ n ∧
      ((off = 0x000 ∧ t = s.writeCmd (BitVec.ofNat 32 v))
        ∨ (off = 0x008 ∧ t = { s with len0 := BitVec.ofNat 32 v })
        ∨ (off = 0x00C ∧ t = { s with len1 := BitVec.ofNat 32 v })
        ∨ (off = 0x010 ∧ t = { s with len2 := BitVec.ofNat 32 v })
        ∨ (isIn off = true ∧ t = { s with mem := s.mem.writeRange off (bytesN n v) })
        ∨ (isIn off = false ∧ off ≠ 0x000 ∧ off ≠ 0x008 ∧ off ≠ 0x00C ∧ off ≠ 0x010 ∧ t = s)) := by
  unfold State.winWrite at h
  split at h
  · rename_i hc
    rw [Bool.and_eq_true, decide_eq_true_iff] at hc
    refine ⟨hc.1, hc.2, ?_⟩
    simp only [Option.some.injEq] at h
    split at h
    · exact .inl ⟨rfl, h.symm⟩
    · exact .inr (.inl ⟨rfl, h.symm⟩)
    · exact .inr (.inr (.inl ⟨rfl, h.symm⟩))
    · exact .inr (.inr (.inr (.inl ⟨rfl, h.symm⟩)))
    · rename_i h0 h8 hC h10
      split at h
      · rename_i hin
        exact .inr (.inr (.inr (.inr (.inl ⟨hin, h.symm⟩))))
      · rename_i hin
        exact .inr (.inr (.inr (.inr (.inr ⟨Bool.eq_false_iff.mpr hin, h0, h8, hC, h10, h.symm⟩))))
  · cases h

/-- All that a `CMD` write can do (R24, R266). -/
theorem State.writeCmd_cases (s : State) (w : Word) :
    (s.busy = true ∧ s.writeCmd w = s) ∨ (s.busy = false ∧ s.writeCmd w = s.accept w) := by
  unfold State.writeCmd
  cases h : s.busy <;> simp

/-! ## Steps -/

theorem step_nil {s : State} (h : s.script = []) : step s = coreStep s := by simp [step, h]

theorem step_cons {s : State} {e : Event} {es : List Event} (h : s.script = e :: es) :
    step s = eventStep e { s with script := es } := by simp [step, h]

/-- All that CORE's own step can do: nothing while idle, a Complete step while busy. -/
theorem coreStep_cases (s : State) :
    (s.busy = false ∧ coreStep s = .next s) ∨ ∃ r, s.busy = true ∧ coreStep s = .next (s.complete r) := by
  unfold coreStep
  cases hb : s.busy with
  | false => exact .inl ⟨rfl, by simp⟩
  | true =>
    obtain ⟨sn, hsn⟩ := s.busy_iff_snap.mp hb
    right
    cases hd : decode s.cmd with
    | ok i => exact ⟨runOf i sn, rfl, by simp [exec_of_snap i hsn]⟩
    | error e => exact ⟨⟨.error .illegalCmd, []⟩, rfl, by simp [execIllegal, runPure_of_snap hsn]⟩

/-- All that one event can do, if the machine goes on. -/
theorem eventStep_cases {e : Event} {s t : State} (h : eventStep e s = .next t) :
    (∃ off n v, e = .winRead off n ∧ s.winRead off n = some v ∧ t = { s with readData := some v })
      ∨ (∃ off n v, e = .winWrite off n v ∧ s.winWrite off n v = some t)
      ∨ (e = .rst ∧ t = s.applyReset)
      ∨ (e = .core ∧ coreStep s = .next t) := by
  cases e with
  | winRead off n =>
    simp only [eventStep] at h
    split at h
    · rename_i v hv
      cases h
      exact .inl ⟨off, n, v, rfl, hv, rfl⟩
    · cases h
  | winWrite off n v =>
    simp only [eventStep] at h
    split at h
    · rename_i u hu
      cases h
      exact .inr (.inl ⟨off, n, v, rfl, hu⟩)
    · cases h
  | rst =>
    cases h
    exact .inr (.inr (.inl ⟨rfl, rfl⟩))
  | core => exact .inr (.inr (.inr ⟨rfl, h⟩))

end Sys2Proof.Machine
end

