-- ==== Sys2Proof/Laws/PerInstr.lean ====
section
/-! SUPPORT. Statements about every command as syntax, one lemma per constructor of `Instr`. -/

namespace Sys2Proof.Laws.RoundTrip

/-- The command's word is well formed, decodes to the command, and so do its four bytes as they lie in the window
(30_encoding.md R70, R71, R80). -/
def Statement (i : Instr) : Prop :=
  i.wf = true ∧ commandWordWf (encode i) = true ∧ decode (encode i) = .ok i ∧ decodeBytes (encodeBytes i) = .ok i

theorem nop : Statement .nop := ⟨rfl, rfl, rfl, rfl⟩
theorem fpAdd : Statement .fpAdd := ⟨rfl, rfl, rfl, rfl⟩
theorem fpSub : Statement .fpSub := ⟨rfl, rfl, rfl, rfl⟩
theorem fpNeg : Statement .fpNeg := ⟨rfl, rfl, rfl, rfl⟩
theorem fpMul : Statement .fpMul := ⟨rfl, rfl, rfl, rfl⟩
theorem fpSqr : Statement .fpSqr := ⟨rfl, rfl, rfl, rfl⟩
theorem fpDiv2 : Statement .fpDiv2 := ⟨rfl, rfl, rfl, rfl⟩
theorem fpInv : Statement .fpInv := ⟨rfl, rfl, rfl, rfl⟩
theorem fpSqrt : Statement .fpSqrt := ⟨rfl, rfl, rfl, rfl⟩
theorem fpCanon : Statement .fpCanon := ⟨rfl, rfl, rfl, rfl⟩
theorem f2Add : Statement .f2Add := ⟨rfl, rfl, rfl, rfl⟩
theorem f2Sub : Statement .f2Sub := ⟨rfl, rfl, rfl, rfl⟩
theorem f2Neg : Statement .f2Neg := ⟨rfl, rfl, rfl, rfl⟩
theorem f2Mul : Statement .f2Mul := ⟨rfl, rfl, rfl, rfl⟩
theorem f2Sqr : Statement .f2Sqr := ⟨rfl, rfl, rfl, rfl⟩
theorem f2Inv : Statement .f2Inv := ⟨rfl, rfl, rfl, rfl⟩
theorem f2Sqrt : Statement .f2Sqrt := ⟨rfl, rfl, rfl, rfl⟩
theorem ptAdd : Statement .ptAdd := ⟨rfl, rfl, rfl, rfl⟩
theorem ptDbl : Statement .ptDbl := ⟨rfl, rfl, rfl, rfl⟩
theorem ptAffine : Statement .ptAffine := ⟨rfl, rfl, rfl, rfl⟩
theorem ptOncurve : Statement .ptOncurve := ⟨rfl, rfl, rfl, rfl⟩
theorem ptSmul : Statement .ptSmul := ⟨rfl, rfl, rfl, rfl⟩
theorem ptSmulb : Statement .ptSmulb := ⟨rfl, rfl, rfl, rfl⟩
theorem ptSign : Statement .ptSign := ⟨rfl, rfl, rfl, rfl⟩
theorem ptEnc : Statement .ptEnc := ⟨rfl, rfl, rfl, rfl⟩
theorem ptDec : Statement .ptDec := ⟨rfl, rfl, rfl, rfl⟩
theorem valPk : Statement .valPk := ⟨rfl, rfl, rfl, rfl⟩
theorem valSig : Statement .valSig := ⟨rfl, rfl, rfl, rfl⟩
theorem chkPk : Statement .chkPk := ⟨rfl, rfl, rfl, rfl⟩
theorem chkSig : Statement .chkSig := ⟨rfl, rfl, rfl, rfl⟩
theorem scRed : Statement .scRed := ⟨rfl, rfl, rfl, rfl⟩
theorem scMul : Statement .scMul := ⟨rfl, rfl, rfl, rfl⟩
theorem scSub : Statement .scSub := ⟨rfl, rfl, rfl, rfl⟩
theorem keygen : Statement .keygen := ⟨rfl, rfl, rfl, rfl⟩
theorem sign : Statement .sign := ⟨rfl, rfl, rfl, rfl⟩
theorem verify : Statement .verify := ⟨rfl, rfl, rfl, rfl⟩

end Sys2Proof.Laws.RoundTrip
end

