-- ==== Sys2Proof/Tests/Slice0.lean ====
section
/-! SUPPORT. Tests of our own. Expected values come from the spec: the command words of 30_encoding.md R80 and R81,
the rows of 95_test_vectors.md sections 2.1 to 2.7, and its programs. The last part shows, for every statement of
`Sys2Proof/Certificates/Slice0/Obligations.lean` that has hypotheses, a state and operands that meet them. -/

namespace Sys2Proof.Tests

-- one theorem at a time: the evaluations below are long, and each keeps a thread of its own otherwise
set_option Elab.async false

open Sys2Proof Sys2Proof.Machine

/-! ## Helpers -/

/-- `n` bytes as the spec prints them, byte 0 first, given as one hexadecimal number. -/
def hex (n v : Nat) : List Byte := (bytesN n v).reverse

/-- A slot with the integer `lo` in its low half and `hi` in its high half. -/
def two (lo hi : Nat) : List Byte := bytesN 16 lo ++ bytesN 16 hi

/-- The reset state with `bytes` in IN from byte 0 on and the three lengths. -/
def loaded (bytes : List Byte) (l0 l1 l2 : Nat) : State :=
  { State.reset with
    mem := Memory.writeRange [] 0x100 bytes
    len0 := BitVec.ofNat 32 l0
    len1 := BitVec.ofNat 32 l1
    len2 := BitVec.ofNat 32 l2 }

/-- `loaded`, with the command word `w` in flight. -/
def inFlight (w : Nat) (bytes : List Byte) (l0 l1 l2 : Nat) : State := (loaded bytes l0 l1 l2).withFetchWord 32 w

/-- What one step leaves in OUT and in STATUS. -/
def outcome (s : State) : Option (List Byte × Word) :=
  match step s with
  | .next t => some (t.mem.readRange 0x200 128, t.statusWord)
  | _ => none

/-- The command word `w` on these operands leaves `out` followed by zeros in OUT, and the STATUS word `status`. -/
def gives (w : Nat) (bytes : List Byte) (lens : Nat × Nat × Nat) (out : List Byte) (status : Word) : Bool :=
  outcome (inFlight w bytes lens.1 lens.2.1 lens.2.2) == some (out ++ zeroBytes (128 - out.length), status)

/-- A snapshot of these bytes, zero up to 256, and these lengths. -/
def snapOf (bytes : List Byte) (l0 l1 l2 : Nat) : Snap where
  bytes := (bytes ++ zeroBytes 256).take 256
  len0 := BitVec.ofNat 32 l0
  len1 := BitVec.ofNat 32 l1
  len2 := BitVec.ofNat 32 l2

/-- A state with this snapshot in flight, under the command word of `i`. -/
def flying (i : Instr) (sn : Snap) : State := { State.reset with cmd := encode i, snap := some sn }

/-- The same as `gives`, from the snapshot on: CORE's own step only, OUT compared as memory. -/
def completes (w : Nat) (bytes : List Byte) (lens : Nat × Nat × Nat) (out : List Byte) (status : Word) : Bool :=
  match coreStep { State.reset with
      cmd := BitVec.ofNat 32 w, snap := some (snapOf bytes lens.1 lens.2.1 lens.2.2) } with
  | .next t => t.mem == cellsOf 0x200 out && t.statusWord == status
  | _ => false

/-- The lengths of the reset state. -/
def noLens : Nat × Nat × Nat := (0, 0, 0)

/-- The step of one host access, from `s`. -/
def access (s : State) (e : Event) : Host.Outcome State Fault Refusal := step { s with script := [e] }

/-- The state after one host write, or `s` if it is refused. -/
def wrote (s : State) (off n v : Nat) : State :=
  match access s (.winWrite off n v) with
  | .next t => t
  | _ => s

/-- The value of one host read, `none` if it is refused. -/
def readBack (s : State) (off n : Nat) : Option Word :=
  match access s (.winRead off n) with
  | .next t => t.readData
  | _ => none

/-- The host access is refused as an access error (R55). -/
def refusedAccess (s : State) (e : Event) : Bool :=
  match access s e with
  | .refused (.accessError _ _) => true
  | _ => false

/-! ## Decoding: one word written out for every row of R80 -/

theorem test_decode_system : decode 0x00000000 = .ok .nop := by decide +kernel

theorem test_decode_fp : [decode 0x00000010, decode 0x00000011, decode 0x00000012, decode 0x00000013,
    decode 0x00000014, decode 0x00000015, decode 0x00000016, decode 0x00000017, decode 0x00000018]
    = [.ok .fpAdd, .ok .fpSub, .ok .fpNeg, .ok .fpMul, .ok .fpSqr, .ok .fpDiv2, .ok .fpInv, .ok .fpSqrt, .ok .fpCanon]
    := by decide +kernel

theorem test_decode_fp2 : [decode 0x00000020, decode 0x00000021, decode 0x00000022, decode 0x00000023,
    decode 0x00000024, decode 0x00000025, decode 0x00000026]
    = [.ok .f2Add, .ok .f2Sub, .ok .f2Neg, .ok .f2Mul, .ok .f2Sqr, .ok .f2Inv, .ok .f2Sqrt] := by decide +kernel

theorem test_decode_point : [decode 0x00000030, decode 0x00000031, decode 0x00000032, decode 0x00000033,
    decode 0x00000034, decode 0x00000035, decode 0x00000036]
    = [.ok .ptAdd, .ok .ptDbl, .ok .ptAffine, .ok .ptOncurve, .ok .ptSmul, .ok .ptSmulb, .ok .ptSign] := by
  decide +kernel

theorem test_decode_codec : [decode 0x00000040, decode 0x00000041, decode 0x00000042, decode 0x00000043,
    decode 0x00000044, decode 0x00000045]
    = [.ok .ptEnc, .ok .ptDec, .ok .valPk, .ok .valSig, .ok .chkPk, .ok .chkSig] := by decide +kernel

theorem test_decode_scalar : [decode 0x00000050, decode 0x00000051, decode 0x00000052]
    = [.ok .scRed, .ok .scMul, .ok .scSub] := by decide +kernel

theorem test_decode_protocol : [decode 0x00000060, decode 0x00000061, decode 0x00000062]
    = [.ok .keygen, .ok .sign, .ok .verify] := by decide +kernel

/-- FP_MUL bit by bit: RSV 24 zero bits, then OPC 0001 0011 (R70, R80). -/
theorem test_decode_fpMul_bits : decode (0#24 ++ 0b0001#4 ++ 0b0011#4) = .ok .fpMul := by decide +kernel

/-- The bytes of the word of SIGN in the window, the least significant first (R52). -/
theorem test_decode_sign_bytes : decodeBytes [0x61, 0x00, 0x00, 0x00] = .ok .sign
    ∧ decodeBytes [0x00, 0x00, 0x00, 0x61] = .error .reservedBits ∧ decodeBytes [0x61, 0x00, 0x00] = .error .truncated
    := by decide +kernel

/-- The illegal words of 95_test_vectors.md section 2.7. -/
theorem test_decode_illegal : [decode 0x00000001, decode 0x0000000F, decode 0x00000019, decode 0x00000027,
    decode 0x00000037, decode 0x00000046, decode 0x00000053, decode 0x00000063, decode 0x000000FF]
    = List.replicate 9 (.error .unknownOpcode)
    ∧ [decode 0x00000100, decode 0x00000113, decode 0x80000000, decode 0xFFFFFFFF]
    = List.replicate 4 (.error .reservedBits) := by decide +kernel

/-! ## WellFormed: an ill-formed word for each check -/

theorem test_wf_commands : [Instr.nop, .fpCanon, .f2Sqrt, .ptSign, .chkSig, .scSub, .verify].all
    (fun i => i.wf && commandWordWf (encode i)) = true := by decide +kernel

theorem test_wf_reserved_bits : reservedZero 0x00000113 = false ∧ commandWordWf 0x00000113 = false
    ∧ reservedZero 0x80000000 = false ∧ reservedZero 0x000000FF = true := by decide +kernel

/-- One past the last opcode of each family, and one before the first of the next (R81). -/
theorem test_wf_opcode : [0x01, 0x0F, 0x19, 0x1F, 0x27, 0x2F, 0x37, 0x3F, 0x46, 0x4F, 0x53, 0x5F, 0x63, 0xFF].all
    (fun w => !opcodeAssigned w && !commandWordWf w) = true := by decide +kernel

/-! ## Reset, window, life cycle -/

theorem test_reset_mem_wf : State.reset.mem.wf := by decide

/-- From reset with nothing placed, nothing happens (R223). -/
theorem test_reset_idle : step State.reset = .next State.reset := rfl

theorem test_window_little_endian :
    readBack (wrote State.reset 0x100 4 0x04030201) 0x101 1 = some 0x02
      ∧ readBack (wrote State.reset 0x100 4 0x04030201) 0x102 2 = some 0x0403
      ∧ readBack (wrote (wrote State.reset 0x100 4 0x04030201) 0x103 1 0xAA) 0x100 4 = some 0xAA030201 := by
  decide +kernel

/-- Writes to OUT, STATUS and the reserved ranges, at the edges of IN and OUT. -/
theorem test_window_ignored_writes :
    [0x004, 0x014, 0x0FC, 0x200, 0x27C, 0x280, 0x3FC].all (fun off =>
      readBack (wrote State.reset off 4 0xFFFFFFFF) off 4 == some 0) = true
      ∧ [0x008, 0x00C, 0x010, 0x100, 0x1FC].all (fun off =>
        readBack (wrote State.reset off 4 0xFFFFFFFF) off 4 == some 0xFFFFFFFF) = true := by
  decide +kernel

/-- Each of the access errors of R55. -/
theorem test_window_refused :
    [Event.winRead 0x101 2, .winRead 0x102 4, .winRead 0x004 1, .winRead 0x004 2, .winWrite 0x000 2 0x0010,
      .winWrite 0x008 1 32, .winRead 0x400 4, .winRead 0x400 1, .winRead 0x100 8, .winRead 0x100 3, .winRead 0x100 0,
      .winWrite 0x3FE 4 0].all (refusedAccess State.reset) = true := by decide +kernel

/-- Writing 0x00 over a listed byte takes the entry out: equal memories are equal data. -/
theorem test_window_canonical : (wrote (wrote State.reset 0x100 4 0x04030201) 0x100 4 0).mem = [] := by decide +kernel

/-- Accept, from the host's write of CMD: STATUS = 0x00000001, OUT wiped, BUSY (R220). -/
theorem test_accept : (wrote (loaded [5] 0 0 0) 0x000 4 0x10).statusWord = 0x00000001
    ∧ (wrote (loaded [5] 0 0 0) 0x000 4 0x10).cmd = 0x10 := by decide +kernel

/-- 95_test_vectors.md P4, second part: a CMD write while BUSY is ignored, an IN write while BUSY does not reach the
command in flight. -/
theorem test_hazards_while_busy :
    (wrote (wrote (inFlight 0x12 (two 1 0) 0 0 0) 0x000 4 0x10) 0x100 1 0x05).cmd = 0x12
      ∧ outcome (wrote (wrote (inFlight 0x12 (two 1 0) 0 0 0) 0x000 4 0x10) 0x100 1 0x05)
        = some (bytesN 16 (P - 1) ++ zeroBytes 112, 0x00000002) := by decide +kernel

/-- `RUN FP_SQR` as window accesses: the last STATUS the host reads has DONE = 1. -/
theorem test_run_line : (match Host.Core.run core 3 { loaded [3] 0 0 0 with script := runLine .fpSqr } with
    | .next t => some (t.readData, t.mem.read 0x200, t.busy)
    | _ => none) = some (some 0x00000002, 9, false) := by decide +kernel

theorem test_reset_abandons : (match access (inFlight 0x34 (hex 32 1) 7 8 9) .rst with
    | .next t => t == State.reset
    | _ => false) = true := by decide +kernel

/-- An illegal word completes with E_ILLEGAL_CMD, OUT zero (R71). -/
theorem test_illegal_word : gives 0x00000113 (two 3 3) noLens [] 0x00000106 = true
    ∧ gives 0x00000019 (two 3 3) noLens [] 0x00000106 = true := by decide +kernel

/-- The table "every command on the reset snapshot" of section 2.7, LEN = (0,0,0): STATUS row by row. -/
theorem test_reset_snapshot_status :
    [0x00, 0x10, 0x11, 0x12, 0x13, 0x14, 0x15, 0x16, 0x17, 0x18, 0x20, 0x21, 0x22, 0x23, 0x24, 0x25, 0x26, 0x30, 0x31,
      0x32, 0x33, 0x34, 0x35, 0x36, 0x40, 0x41, 0x42, 0x43, 0x44, 0x45, 0x50, 0x51, 0x52, 0x60, 0x61, 0x62].map
        (fun w => (outcome (State.reset.withFetchWord 32 w)).map (fun r => r.2))
      = ([0x002, 0x002, 0x002, 0x002, 0x002, 0x002, 0x002, 0x306, 0x00A, 0x002, 0x002, 0x002, 0x002, 0x002, 0x002,
          0x306, 0x00A, 0x002, 0x002, 0x306, 0x002, 0x002, 0x002, 0x002, 0x306, 0x206, 0x002, 0x002, 0x206, 0x206,
          0x002, 0x002, 0x002, 0x206, 0x206, 0x002] : List Word).map some := by decide +kernel

/-! ## System and Fp (section 2.1) -/

theorem test_nop : gives 0x00 (hex 32 5) (1, 2, 3) [] 0x00000002 = true := by decide +kernel

theorem test_fpAdd : gives 0x10 (two (P - 1) 0 ++ two (P - 1) 0) noLens (bytesN 16 (P - 2)) 0x2 = true := by
  decide +kernel

/-- The upper halves of the slots are ignored. -/
theorem test_fpAdd_upper : gives 0x10
    (hex 32 0x05000000000000000000000000000000aaaaaaaaaaaaaaaaaaaaaaaaaaaaaaaa
      ++ hex 32 0x07000000000000000000000000000000bbbbbbbbbbbbbbbbbbbbbbbbbbbbbbbb) noLens [0x0c] 0x2 = true
    := by decide +kernel

theorem test_fpSub : gives 0x11 (two 5 0 ++ two 7 0) noLens (bytesN 16 (P - 2)) 0x2 = true
    ∧ gives 0x11 (two 7 0 ++ two 5 0) noLens [2] 0x2 = true := by decide +kernel

theorem test_fpNeg : gives 0x12 (two 0 0) noLens [] 0x2 = true
    ∧ gives 0x12 (two 1 0) noLens (bytesN 16 (P - 1)) 0x2 = true := by decide +kernel

theorem test_fpMul : gives 0x13
    (hex 16 0xefcdab8967452301efcdab8967452301 ++ zeroBytes 16 ++ hex 16 0x1032547698badcfe1032547698badc7e) noLens
    (hex 16 0xe93558dc4a2c096ab7d17e49ba59b046) 0x2 = true := by decide +kernel

theorem test_fpSqr : gives 0x14 (two 0x40000000000000000000000000000000 0) noLens
    (bytesN 16 0x20000000000000000000000000000000) 0x2 = true := by decide +kernel

theorem test_fpDiv2 : gives 0x15 (two 4 0) noLens [2] 0x2 = true
    ∧ gives 0x15 (two 3 0) noLens (bytesN 16 0x40000000000000000000000000000001) 0x2 = true := by decide +kernel

theorem test_fpInv : gives 0x16 (two 0x0123456789ABCDEF0123456789ABCDEF 0) noLens
    (bytesN 16 0x55B47E9BFDDDDB74AEEB30D9FDDB99B9) 0x2 = true := by decide +kernel

/-- An operand whose bytes are P reads as 0. -/
theorem test_fpInv_zero : gives 0x16 (two P 0) noLens [] 0x306 = true := by decide +kernel

theorem test_fpSqrt : gives 0x17 (two 9 0) noLens (bytesN 16 (P - 3)) 0xA = true
    ∧ gives 0x17 (two 0 0) noLens [] 0xA = true := by decide +kernel

theorem test_fpSqrt_none : gives 0x17 (two 3 0) noLens [] 0x2 = true := by decide +kernel

theorem test_fpCanon : gives 0x18 (hex 16 0xffffffffffffffffffffffffffffffff) noLens [1] 0x2 = true
    ∧ gives 0x18 (hex 16 0xfeffffffffffffffffffffffffffff7f) noLens (hex 16 0xfeffffffffffffffffffffffffffff7f) 0x2
      = true := by decide +kernel

/-! ## Fp2 (section 2.2) -/

theorem test_f2Add : gives 0x20 (two (P - 1) (P - 1) ++ two 2 3) noLens (two 1 2) 0x2 = true := by decide +kernel

theorem test_f2Sub : gives 0x21 (two 1 2 ++ two 3 5) noLens (two (P - 2) (P - 3)) 0x2 = true := by decide +kernel

theorem test_f2Neg : gives 0x22 (two 0 1) noLens (two 0 (P - 1)) 0x2 = true := by decide +kernel

theorem test_f2Mul : gives 0x23 (two 1 2 ++ two 3 4) noLens (two (P - 5) 10) 0x2 = true
    ∧ gives 0x23 (two (P - 1) (P - 1) ++ two 2 3) noLens (two 1 (P - 5)) 0x2 = true := by decide +kernel

theorem test_f2Sqr : gives 0x24 (two 3 (P - 2)) noLens (two 5 (P - 12)) 0x2 = true := by decide +kernel

theorem test_f2Inv : gives 0x25 (two 1 2) noLens
    (two 0x33333333333333333333333333333333 0x19999999999999999999999999999999) 0x2 = true
    ∧ gives 0x25 (two 0 1) noLens (two 0 (P - 1)) 0x2 = true := by decide +kernel

theorem test_f2Inv_zero : gives 0x25 (two P 0) noLens [] 0x306 = true := by decide +kernel

theorem test_f2Sqrt : gives 0x26 (two 5 12) noLens (two (P - 3) (P - 2)) 0xA = true
    ∧ gives 0x26 (two 0 1) noLens (two 0x8000000000000000 0x8000000000000000) 0xA = true
    ∧ gives 0x26 (two 1 2) noLens [] 0x2 = true := by decide +kernel

/-- The real-only gap: (P − 1, 0) = (0, 1)² is missed (R126). -/
theorem test_f2Sqrt_gap : gives 0x26 (two (P - 1) 0) noLens [] 0x2 = true ∧ gives 0x26 (two 4 0) noLens [2] 0xA = true
    := by decide +kernel

/-! ## Points (section 2.3) -/

def gX : List Byte := hex 32 0xaa33387bad92652805b32f7c2372341af677ac60b39f86969caa78283f551f1e
def gY : List Byte := hex 32 0x87b2cb2b46a224b95a7820a19bee3f0e5c8b4c8444c3a74942020e63f84a1c6e
def gT : List Byte := hex 32 0x16e4cee86ea34b893e91b07f94a1bf35d0d86c294d573c67ac76708ea341fb7b

/-- GB, slot by slot. -/
def gb : List Byte := gX ++ gY ++ two 1 0 ++ gT

/-- PT_ADD(PT_ID, GB), PT_SMULB k = 1: every coordinate of GB times 4. -/
def gb4 : List Byte :=
  hex 32 0xa8cee0ecb54a96a114ccbef08dc8d168d8dfb182cd7e1a5a72aae2a1fc547d78
    ++ hex 32 0x1cca2eaf188992e46ae181846ebaff38732d3211120d9f260909388ce12b7138 ++ two 4 0
    ++ hex 32 0x59903ba3bb8d2e25fa44c2fe5186fe564363b3a5345df19cb1dac1398e06ed6f

/-- pt_dbl(GB). -/
def gbDbl : List Byte :=
  hex 32 0xa136e6c3def6a60cc99cd0821ab0a14f6652407fdf6583724fe85a30354d4219
    ++ hex 32 0xc6a0d8b1b70770f4cc2ce0a06b51f265a76846ed23a8633a0b195fb3785abb33
    ++ hex 32 0x4929e9eb2644bb8caf2c2ee9c49afa1285e8071898c708600a0a7206341f0b71
    ++ hex 32 0xfe56f3715693566c17800d5b41507b12aead09a1e50be60ff256648bc001e958

/-- x and y of 2·G. -/
def g2X : List Byte := hex 32 0x43ce11d35665fddf8ca382979f7d0a21f41dc6af595e3c027b1e26fc9c17d458
def g2Y : List Byte := hex 32 0x6c62cb013d32a235fe3dd9c378fcb32df89b91e225957cee5254018ab94cc044

theorem test_ptAdd : completes 0x30 (two 0 0 ++ two 1 0 ++ two 1 0 ++ two 0 0 ++ gb) noLens gb4 0x2 = true := by
  decide +kernel

/-- S3 is not read. -/
theorem test_ptDbl : completes 0x31 (gX ++ gY ++ two 1 0 ++ List.replicate 32 0xaa) noLens gbDbl 0x2 = true := by
  decide +kernel

theorem test_ptAffine : completes 0x32 gbDbl noLens (g2X ++ g2Y) 0x2 = true := by decide +kernel

theorem test_ptAffine_zero : completes 0x32 (two 1 0 ++ two 1 0) noLens [] 0x306 = true := by decide +kernel

theorem test_ptOncurve : completes 0x33 (gX ++ gY) noLens [] 0xA = true ∧ completes 0x33 (gY ++ gX) noLens [] 0x2 = true
    ∧ completes 0x33 (two 0 1) noLens [] 0xA = true := by decide +kernel

theorem test_ptSmul : completes 0x34 (gb ++ hex 1 5) noLens
    (hex 32 0xdfc612c76723b1d1aa66eb43e3681a60cd374046f9c1c00c8c5e0cc379954b59
      ++ hex 32 0xb4dd71f41471c43527a7d0f81354c70791d5baf5e1ea170ab5f182d57d4a620b
      ++ hex 32 0xdea2e342250b1aa7f84967e65c4d2628fe7fd8736aa1be7fa20ab92c09f4464e
      ++ hex 32 0x6e388ff82673995eeae0a73e43990272a6276e966e532c71bd90bfb7dd0e3d08) 0x2 = true := by decide +kernel

theorem test_ptSmulb : completes 0x35 (hex 1 1) noLens gb4 0x2 = true := by decide +kernel

/-- k = Q: a representative of the identity; the scalar is not reduced. -/
theorem test_ptSmulb_order : completes 0x35
    (hex 32 0xe78c76c70e54b22f99790ffe4d00bddfe514bc9c829753f0720a5e4ec1cb2900) noLens
    (two 0 0 ++ hex 32 0x6dab48f07ea74861e624fde891497a465d3ff7c34c912d50d03e95a216b61a48
      ++ hex 32 0x6dab48f07ea74861e624fde891497a465d3ff7c34c912d50d03e95a216b61a48) 0x2 = true := by decide +kernel

theorem test_ptSign : completes 0x36 (two 1 (P - 1)) noLens [] 0x2 = true
    ∧ completes 0x36 (two 0 (2 ^ 126)) noLens [] 0xA = true ∧ completes 0x36 (two 0 (2 ^ 126 - 1)) noLens [] 0x2 = true
    ∧ completes 0x36 (two (2 ^ 126) 0) noLens [] 0xA = true := by decide +kernel

/-! ## Codec (section 2.4) -/

theorem test_ptEnc : completes 0x40 gbDbl noLens g2Y 0x2 = true := by decide +kernel

/-- −GB: the sign bit is the top bit of byte 31. -/
theorem test_ptEnc_sign : completes 0x40
    (two 0x65CB8DDC83D04CFAD79A6D5284C7CC55 0x61E0AAC0D78755636979604C9F538809 ++ gY ++ two 1 0) noLens
    (hex 32 0x87b2cb2b46a224b95a7820a19bee3f0e5c8b4c8444c3a74942020e63f84a1cee) 0x2 = true := by decide +kernel

/-- The identity with the sign bit set, and with P written for y.im (R171, corner cases 1 and 2). The decoding of the
key of E10, whose sign bit is set, is in `test_verify`. -/
theorem test_ptDec :
    completes 0x41 (two 1 (2 ^ 127)) (32, 0, 0) (two 0 0 ++ two 1 0 ++ two 1 0) 0x2 = true
      ∧ completes 0x41 (two 1 P) (32, 0, 0) (two 0 0 ++ two 1 0 ++ two 1 0) 0x2 = true := by decide +kernel

theorem test_ptDec_errors : completes 0x41 gY (31, 0, 0) [] 0x206 = true ∧ completes 0x41 gY (33, 0, 0) [] 0x206 = true
    ∧ completes 0x41 (hex 32 0x87b2cb2b46a224b95a7820a19bee3f8e5c8b4c8444c3a74942020e63f84a1c6e) (32, 0, 0) [] 0x406 = true
    ∧ completes 0x41 [] (32, 0, 0) [] 0x506 = true := by decide +kernel

theorem test_valPk : completes 0x42 (zeroBytes 15 ++ [0x7f]) (32, 0, 0) [] 0xA = true
    ∧ completes 0x42 (zeroBytes 15 ++ [0x80]) (32, 0, 0) [] 0x2 = true ∧ completes 0x42 [] (31, 0, 0) [] 0x2 = true
    ∧ completes 0x42 (zeroBytes 31 ++ [0x80]) (32, 0, 0) [] 0xA = true := by decide +kernel

theorem test_valSig : completes 0x43 (zeroBytes 62 ++ [0x3f]) (64, 0, 0) [] 0xA = true
    ∧ completes 0x43 (zeroBytes 62 ++ [0x40]) (64, 0, 0) [] 0x2 = true
    ∧ completes 0x43 (zeroBytes 63 ++ [0x01]) (64, 0, 0) [] 0x2 = true ∧ completes 0x43 [] (65, 0, 0) [] 0x2 = true
    := by decide +kernel

theorem test_chkPk : completes 0x44 (zeroBytes 15 ++ [0x80]) (32, 0, 0) [] 0x806 = true
    ∧ completes 0x44 (zeroBytes 15 ++ [0x80]) (31, 0, 0) [] 0x206 = true
    ∧ completes 0x44 (zeroBytes 15 ++ [0x7f]) (32, 0, 0) [] 0x2 = true := by decide +kernel

theorem test_chkSig : completes 0x45 (zeroBytes 62 ++ [0x80]) (64, 0, 0) [] 0x906 = true
    ∧ completes 0x45 (zeroBytes 63 ++ [0x01]) (63, 0, 0) [] 0x206 = true
    ∧ completes 0x45 (zeroBytes 62 ++ [0x3f]) (64, 0, 0) [] 0x2 = true := by decide +kernel

/-! ## Scalars (section 2.5) -/

def ff32 : List Byte := List.replicate 32 0xff

theorem test_scRed : completes 0x50 ff32 noLens
    (hex 32 0x1ff9e0497a25bddbbb3537e14b225e9a05000000000000000000000000000000) 0x2 = true
    ∧ completes 0x50 (hex 32 0xe88c76c70e54b22f99790ffe4d00bddfe514bc9c829753f0720a5e4ec1cb2900) noLens [1] 0x2 = true
    := by decide +kernel

theorem test_scMul : completes 0x51 (ff32 ++ ff32) noLens
    (hex 32 0xe2e331cc846da31006cdfc27136182e210f63621c7b7013dd3f9c86af1a50600) 0x2 = true := by decide +kernel

/-- The underflow of an operand above Q (90_conflicts.md C6). -/
theorem test_scSub : completes 0x52 (zeroBytes 32 ++ ff32) noLens
    (hex 32 0xc893957d942ef553dd43d81c02de5e45e014bc9c829753f0720a5e4ec1cb2900) 0x2 = true
    ∧ completes 0x52 (bytesN 32 3 ++ bytesN 32 5) noLens
      (hex 32 0xe58c76c70e54b22f99790ffe4d00bddfe514bc9c829753f0720a5e4ec1cb2900) 0x2 = true := by decide +kernel

/-! ## Protocol (section 2.6, E10) -/

def subSeed : List Byte := hex 32 0x179c2d6db171f1af86efbaded25aeb0bc12bf90c0244566aee23e08f082d3863
def publicKey : List Byte := hex 32 0x39665f596c87c5eb34b7c2027ea87737dc5a178dda273a1e67d673e5925b4e82
def digest : List Byte := hex 32 0x3ee42f561ac090694fb35e12ba6f642fd0725f77368fc6f0ebaa4d6181476d9d
def rEnc : List Byte := hex 32 0x77a4fecbd22d99e419c44408e11f8921194c06309c255fc21edc9fce4782b92b
def sBytes : List Byte := hex 32 0xfec0190c01169fe0e6eb10b55188bb7daf28746faa552e0e564379a9400a2700

/-- XOF(empty, 64), a spot value of GK4. -/
theorem test_xof_empty : k12Xof [] 64
    = hex 64 0x1ac2d450fc3b4205d19da7bfca1b37513c0803577ac7167f06fe2ce1f0ef39e54269c056b8c82e48276038b6d292966cc07a3d4645272e31ff38508139eb0a71
    := by decide +kernel

theorem test_keygen : completes 0x60 subSeed (32, 7, 99) publicKey 0x2 = true := by decide +kernel

theorem test_keygen_length : completes 0x60 subSeed (31, 0, 0) [] 0x206 = true ∧ completes 0x60 subSeed (33, 0, 0) [] 0x206 = true
    := by decide +kernel

theorem test_sign : completes 0x61 (subSeed ++ publicKey ++ digest) (32, 32, 32) (rEnc ++ sBytes) 0x2 = true := by
  decide +kernel

theorem test_sign_length : completes 0x61 (subSeed ++ publicKey ++ digest) (32, 33, 32) [] 0x206 = true
    ∧ completes 0x61 (subSeed ++ publicKey ++ digest) (32, 32, 64) [] 0x206 = true := by decide +kernel

theorem test_verify : completes 0x62 (publicKey ++ digest ++ rEnc ++ sBytes) (32, 32, 64) [] 0xA = true := by
  decide +kernel

/-- One length off; signature byte 63 not zero; bit 7 of byte 15 of the key set. -/
theorem test_verify_false :
    completes 0x62 (publicKey ++ digest ++ rEnc ++ sBytes) (32, 32, 63) [] 0x2 = true
      ∧ completes 0x62 (publicKey ++ digest ++ rEnc ++ sBytes.set 31 0x01) (32, 32, 64) [] 0x2 = true
      ∧ completes 0x62 (publicKey.set 15 0x80 ++ digest ++ rEnc ++ sBytes) (32, 32, 64) [] 0x2 = true := by
  decide +kernel

/-! ## Witnesses: the hypotheses of each statement can be met, clause by clause -/

/-- A busy state that differs from reset in IN, LEN0 and CMD too: FP_ADD in flight. -/
def busyState : State := inFlight 0x10 (two 1 2 ++ two 3 4) 32 0 0

/-- The same with the host still to act. -/
def busyWith (es : List Event) : State := { busyState with script := es }

theorem test_witness_ResetStepClearsEverything : (busyWith [.rst, .core]).script = .rst :: [.core] := rfl

/-- A state with FP_ADD in flight meets the invariant, and steps. -/
theorem test_witness_EveryStepKeepsTheInvariant : busyState.Inv ∧ ∃ t, step busyState = .next t :=
  ⟨{ memWf := by decide +kernel
     memMapped := by decide +kernel
     snapSize := fun sn h => by
       have h' : busyState.snap = some busyState.takeSnap := by decide +kernel
       rw [h'] at h
       cases h
       decide +kernel
     busyNotDone := by decide +kernel
     notDone := by decide +kernel
     errored := by decide +kernel
     notErrored := by decide +kernel }, _, rfl⟩

theorem test_witness_StatusStaysInTheTable :
    busyState.statusWord ∈ reachableStatusWords ∧ ∃ t, step busyState = .next t := ⟨by decide +kernel, _, rfl⟩

theorem test_witness_StepRunsTheDecodedCommand : busyState.busy = true ∧ decode busyState.cmd = .ok .fpAdd
    ∧ busyState.script = [] ∧ (busyWith [.core, .rst]).busy = true ∧ (busyWith [.core, .rst]).script = .core :: [.rst] := by
  decide +kernel

theorem test_witness_CommandInFlightCompletes : busyState.busy = true ∧ busyState.script = [] := by decide +kernel

theorem test_witness_CommandCompletesWithinTheScript :
    (busyWith [.winRead 4 4, .winWrite 0 4 17, .winWrite 0x1FF 1 255]).busy = true
      ∧ ∀ e ∈ (busyWith [.winRead 4 4, .winWrite 0 4 17, .winWrite 0x1FF 1 255]).script,
        e ≠ .rst ∧ eventLegal e = true := by decide +kernel

theorem test_witness_RunLineEndsWithDone :
    ({ loaded [3] 0 0 0 with script := runLine .verify } : State).busy = false
      ∧ ({ loaded [3] 0 0 0 with script := runLine .verify } : State).script = runLine .verify := by decide +kernel

theorem test_witness_OnlyAccessErrorsStopTheMachine : State.reset.snap = none
    ∧ (flying .verify (snapOf [] 0 0 0)).snap = some (snapOf [] 0 0 0) := ⟨rfl, rfl⟩

theorem test_witness_EveryWordIsACommandOrIllegal :
    commandWordWf 0x00000062 = true ∧ commandWordWf 0x00000063 = false ∧ commandWordWf 0x00000100 = false
      ∧ (loaded [1] 0 0 0).busy = false
      ∧ ({ loaded [1] 0 0 0 with script := [.winWrite 0x000 4 0x63] } : State).script
        = [.winWrite 0x000 4 (0x00000063 : Word).toNat]
      ∧ (inFlight 0x63 [1] 0 0 0).busy = true ∧ (inFlight 0x63 [1] 0 0 0).cmd = 0x00000063
      ∧ (inFlight 0x63 [1] 0 0 0).script = []
      ∧ ({ inFlight 0x63 [1] 0 0 0 with script := [.core, .rst] } : State).script = .core :: [.rst] := by decide +kernel

theorem test_witness_AcceptTakesTheSnapshot :
    ({ loaded [1, 2] 3 4 5 with script := [.winWrite 0x000 4 0xFFFFFFFF, .core] } : State).busy = false
      ∧ ({ loaded [1, 2] 3 4 5 with script := [.winWrite 0x000 4 0xFFFFFFFF, .core] } : State).script
        = .winWrite 0x000 4 (0xFFFFFFFF : Word).toNat :: [.core] := by decide +kernel

theorem test_witness_CmdWriteWhileBusyIsIgnored : (busyWith [.winWrite 0x000 4 (2 ^ 32 - 1)]).busy = true
    ∧ 2 ^ 32 - 1 < 2 ^ 32 ∧ (busyWith [.winWrite 0x000 4 (2 ^ 32 - 1)]).script = .winWrite 0x000 4 (2 ^ 32 - 1) :: []
    := by decide +kernel

/-- Writes to CMD, LEN0 and the two ends of IN while BUSY. -/
theorem test_witness_HostWritesWhileBusyKeepTheOutcome : busyState.busy = true
    ∧ (∃ t, busyState.winWrite 0x000 4 0x11 = some t) ∧ (∃ t, busyState.winWrite 0x008 4 7 = some t)
    ∧ (∃ t, busyState.winWrite 0x100 1 255 = some t) ∧ (∃ t, busyState.winWrite 0x1FC 4 1 = some t)
    ∧ ∃ u, coreStep busyState = .next u :=
  ⟨by decide +kernel, ⟨_, rfl⟩, ⟨_, rfl⟩, ⟨_, rfl⟩, ⟨_, rfl⟩, _, rfl⟩

/-- Both ends of IN, every width. -/
theorem test_witness_InWriteReplacesItsBytes :
    [(0x100, 4), (0x100, 1), (0x102, 2), (0x1FC, 4), (0x1FE, 2), (0x1FF, 1)].all (fun p : Nat × Nat =>
      accessLegal p.1 p.2 && decide (0x100 ≤ p.1) && decide (p.1 < 0x200) && decide (256 ^ p.2 - 1 < 256 ^ p.2)) = true
      ∧ (busyWith [.winWrite 0x1FC 4 5]).script = .winWrite 0x1FC 4 5 :: [] := by decide +kernel

/-- The ends of every range of the window from 0x014 on. -/
theorem test_witness_WideReadIsLittleEndian :
    [(0x014, 4), (0x0FC, 4), (0x100, 4), (0x1FC, 4), (0x200, 4), (0x27E, 2), (0x27C, 4), (0x280, 4), (0x3FF, 1)].all
      (fun p : Nat × Nat => accessLegal p.1 p.2 && decide (0x014 ≤ p.1)) = true := by decide +kernel

theorem test_witness_ReadOnlyAndReservedIgnoreWrites :
    [(0x004, 4), (0x014, 1), (0x0FF, 1), (0x200, 4), (0x27F, 1), (0x280, 2), (0x3FC, 4)].all
      (fun p : Nat × Nat => accessLegal p.1 p.2 && decide (256 ^ p.2 - 1 < 256 ^ p.2)
        && decide (p.1 = 0x004 ∨ (0x014 ≤ p.1 ∧ p.1 < 0x100) ∨ 0x200 ≤ p.1)) = true := by decide +kernel

/-- Each access error, and a legal access at each edge. -/
theorem test_witness_BadAccessIsRefused :
    [(0x000, 2), (0x010, 1), (0x101, 2), (0x3FE, 4), (0x400, 1), (0x100, 8), (0x100, 0)].all (fun p : Nat × Nat =>
      decide (¬((p.2 = 1 ∨ p.2 = 2 ∨ p.2 = 4) ∧ p.2 ∣ p.1 ∧ p.1 + p.2 ≤ 0x400 ∧ (p.1 < 0x014 → p.2 = 4)))) = true
      ∧ [(0x000, 4), (0x010, 4), (0x014, 1), (0x3FC, 4), (0x3FF, 1)].all (fun p : Nat × Nat =>
        decide ((p.2 = 1 ∨ p.2 = 2 ∨ p.2 = 4) ∧ p.2 ∣ p.1 ∧ p.1 + p.2 ≤ 0x400 ∧ (p.1 < 0x014 → p.2 = 4))) = true
      ∧ (busyWith [.winRead 0x3FE 4]).script = .winRead 0x3FE 4 :: []
      ∧ (busyWith [.winWrite 0x3FF 1 255]).script = .winWrite 0x3FF 1 255 :: [] := by decide +kernel

/-- Two different states with the same snapshot. -/
theorem test_witness_OutcomeDependsOnTheSnapshotAlone :
    busyState ≠ busyWith [.rst] ∧ busyState.snap = (busyWith [.rst]).snap ∧ ∃ t, exec .fpAdd busyState = .next t :=
  ⟨by decide +kernel, rfl, _, rfl⟩

/-- FP_INV of zero raises. -/
theorem test_witness_OnlyTheListedErrorsAreRaised :
    ∃ t, exec .fpInv (flying .fpInv (snapOf [] 0 0 0)) = .next t ∧ t.status.err = true :=
  ⟨_, rfl, by decide +kernel⟩

theorem test_witness_XofPortIsUsedAsListed :
    (∃ t, exec .keygen (flying .keygen (snapOf subSeed 32 0 0)) = .next t ∧ t.status.err = false)
      ∧ (∃ t, exec .sign (flying .sign (snapOf (subSeed ++ publicKey ++ digest) 32 32 32)) = .next t
        ∧ t.status.err = false)
      ∧ (∃ t, exec .verify (flying .verify (snapOf [] 0 0 0)) = .next t ∧ t.xofCalls = [])
      ∧ ∃ t, exec .keygen (flying .keygen (snapOf subSeed 31 0 0)) = .next t ∧ t.status.errCode = 2 :=
  ⟨⟨_, rfl, by decide +kernel⟩, ⟨_, rfl, by decide +kernel⟩, ⟨_, rfl, by decide +kernel⟩, _, rfl, by decide +kernel⟩

/-- The hypothesis `s.snap = some sn`, which is the whole hypothesis of NopWipesOut and of the statements named
below. -/
theorem test_witness_NopWipesOut : (flying .nop (snapOf [1] 0 0 0)).snap = some (snapOf [1] 0 0 0) := rfl

theorem test_witness_FpRingCommandsPublishResidues :
    (flying .fpSub (snapOf (two 5 0 ++ two 7 0) 0 0 0)).snap = some (snapOf (two 5 0 ++ two 7 0) 0 0 0) := rfl

theorem test_witness_FpCanonReducesItsBytes :
    (flying .fpCanon (snapOf (two P 0) 0 0 0)).snap = some (snapOf (two P 0) 0 0 0) := rfl

theorem test_witness_FpDiv2Halves :
    (flying .fpDiv2 (snapOf (two 3 0) 0 0 0)).snap = some (snapOf (two 3 0) 0 0 0) := rfl

/-- Operand 1, and operand P, which reads as 0. -/
theorem test_witness_FpInvPublishesThePower :
    (flying .fpInv (snapOf (two 1 0) 0 0 0)).snap = some (snapOf (two 1 0) 0 0 0)
      ∧ loVal (snapOf (two 1 0) 0 0 0) 0 ≠ 0
      ∧ (flying .fpInv (snapOf (two P 0) 0 0 0)).snap = some (snapOf (two P 0) 0 0 0)
      ∧ loVal (snapOf (two P 0) 0 0 0) 0 = 0 := by decide +kernel

theorem candidate_of_zero (n : Nat) (h : n ≠ 0) : 0 ^ n % P * (0 ^ n % P) % P = 0 := by simp [zero_pow h]

/-- (−1)^(2n) = 1. -/
theorem candidate_of_minus_one (n : Nat) : (P - 1) ^ (2 * n) % P * ((P - 1) ^ (2 * n) % P) % P = 1 := by
  have h : (P - 1) ^ (2 * n) % P = 1 := by
    rw [pow_mul, Nat.pow_mod, show (P - 1) ^ 2 % P = 1 by decide +kernel, one_pow]
    decide +kernel
  rw [h]
  decide +kernel

/-- Operand 0, whose candidate is a root, and operand P − 1, whose candidate 1 is none. -/
theorem test_witness_FpSqrtPublishesTheCandidate :
    (∃ s sn, s = flying .fpSqrt sn ∧ s.snap = some sn
        ∧ loVal sn 0 ^ 2 ^ 125 % P * (loVal sn 0 ^ 2 ^ 125 % P) % P = loVal sn 0)
      ∧ ∃ s sn, s = flying .fpSqrt sn ∧ s.snap = some sn
        ∧ loVal sn 0 ^ 2 ^ 125 % P * (loVal sn 0 ^ 2 ^ 125 % P) % P ≠ loVal sn 0 := by
  refine ⟨⟨_, snapOf [] 0 0 0, rfl, rfl, ?_⟩, _, snapOf (two (P - 1) 0) 0 0 0, rfl, rfl, ?_⟩
  · rw [show loVal (snapOf [] 0 0 0) 0 = 0 by decide +kernel]
    exact candidate_of_zero _ (by positivity)
  · rw [show loVal (snapOf (two (P - 1) 0) 0 0 0) 0 = P - 1 by decide +kernel,
      show (2 : Nat) ^ 125 = 2 * 2 ^ 124 from pow_succ' 2 124, candidate_of_minus_one]
    decide +kernel

theorem test_witness_FpSqrtDecidesSquares :
    (flying .fpSqrt (snapOf [9] 0 0 0)).snap = some (snapOf [9] 0 0 0) := rfl

theorem test_witness_F2LinearCommandsAreComponentwise :
    (flying .f2Add (snapOf (two 1 2 ++ two 3 4) 0 0 0)).snap = some (snapOf (two 1 2 ++ two 3 4) 0 0 0) := rfl

theorem test_witness_F2ProductsAreComplex :
    (flying .f2Mul (snapOf (two 1 2 ++ two 3 4) 0 0 0)).snap = some (snapOf (two 1 2 ++ two 3 4) 0 0 0)
      ∧ loVal (snapOf (two 1 2 ++ two 3 4) 0 0 0) 0 = 1 ∧ hiVal (snapOf (two 1 2 ++ two 3 4) 0 0 0) 0 = 2
      ∧ loVal (snapOf (two 1 2 ++ two 3 4) 0 0 0) 1 = 3 ∧ hiVal (snapOf (two 1 2 ++ two 3 4) 0 0 0) 1 = 4 := by
  decide +kernel

theorem test_witness_F2InvInvertsEveryNonzero :
    (flying .f2Inv (snapOf (two 0 1) 0 0 0)).snap = some (snapOf (two 0 1) 0 0 0)
      ∧ f2Val (snapOf (two 0 1) 0 0 0) 0 ≠ f2Zero
      ∧ (flying .f2Inv (snapOf (two P P) 0 0 0)).snap = some (snapOf (two P P) 0 0 0)
      ∧ f2Val (snapOf (two P P) 0 0 0) 0 = f2Zero := by decide +kernel

theorem test_witness_F2SqrtFindsRootsButForTheRealGap :
    (flying .f2Sqrt (snapOf (two (P - 1) 0) 0 0 0)).snap = some (snapOf (two (P - 1) 0) 0 0 0)
      ∧ f2Val (snapOf (two (P - 1) 0) 0 0 0) 0 = { re := Fp.ofNat (P - 1), im := Fp.ofNat 0 } := by decide +kernel

theorem test_witness_PtAddPublishesTheFormulas :
    (flying .ptAdd (snapOf (gb ++ gb) 0 0 0)).snap = some (snapOf (gb ++ gb) 0 0 0)
      ∧ f2Val (snapOf (gb ++ gb) 0 0 0) 0 = baseGx ∧ f2Val (snapOf (gb ++ gb) 0 0 0) 5 = baseGy := by decide +kernel

theorem test_witness_PtDblPublishesTheFormulas :
    (flying .ptDbl (snapOf gb 0 0 0)).snap = some (snapOf gb 0 0 0) ∧ f2Val (snapOf gb 0 0 0) 0 = baseGx
      ∧ f2Val (snapOf gb 0 0 0) 1 = baseGy ∧ f2Val (snapOf gb 0 0 0) 2 = f2One := by decide +kernel

theorem test_witness_PtAddFacts : ∃ four : Fp2, four = { re := Fp.ofNat 4, im := Fp.ofNat 0 } := ⟨_, rfl⟩

/-- The base point and the identity are valid; the all-zero tuple is not. -/
theorem test_witness_ValidPointsStayValid : ValidPoint coreConfig (basePoint coreConfig) ∧ ValidPoint coreConfig ptId
    ∧ ¬ ValidPoint coreConfig { x := f2Zero, y := f2Zero, z := f2Zero, t := f2Zero } :=
  ⟨⟨by decide +kernel, by decide +kernel, by decide +kernel⟩, ⟨by decide +kernel, by decide +kernel, by decide +kernel⟩,
    fun h => h.zNonzero rfl⟩

theorem test_witness_PtAffineDividesByZ :
    (flying .ptAffine (snapOf gbDbl 0 0 0)).snap = some (snapOf gbDbl 0 0 0)
      ∧ f2Val (snapOf gbDbl 0 0 0) 2 ≠ f2Zero
      ∧ (flying .ptAffine (snapOf (two 1 0) 0 0 0)).snap = some (snapOf (two 1 0) 0 0 0)
      ∧ f2Val (snapOf (two 1 0) 0 0 0) 2 = f2Zero := by decide +kernel

theorem test_witness_PtOncurveTestsTheEquation :
    (flying .ptOncurve (snapOf (gX ++ gY) 0 0 0)).snap = some (snapOf (gX ++ gY) 0 0 0)
      ∧ f2Val (snapOf (gX ++ gY) 0 0 0) 0 = baseGx ∧ f2Val (snapOf (gX ++ gY) 0 0 0) 1 = baseGy := by decide +kernel

theorem test_witness_PtSignPublishesBit126 :
    (flying .ptSign (snapOf (two 0 (2 ^ 126)) 0 0 0)).snap = some (snapOf (two 0 (2 ^ 126)) 0 0 0) := rfl

theorem test_witness_SignBitFlipsUnderNegation : f2One ≠ f2Zero := by decide +kernel

theorem test_witness_ScalarMultiplicationIsDoubleAndAdd :
    (flying .ptSmul (snapOf (gb ++ ff32) 0 0 0)).snap = some (snapOf (gb ++ ff32) 0 0 0) := rfl

theorem test_witness_PtEncPublishesYAndSign :
    (flying .ptEnc (snapOf gb 0 0 0)).snap = some (snapOf gb 0 0 0) ∧ f2Val (snapOf gb 0 0 0) 2 ≠ f2Zero
      ∧ (flying .ptEnc (snapOf [] 0 0 0)).snap = some (snapOf [] 0 0 0) ∧ f2Val (snapOf [] 0 0 0) 2 = f2Zero := by
  decide +kernel

/-- Lengths 31, 32 and 33; byte 15 at 127 and 128. -/
theorem test_witness_PtDecChecksLengthThenGuard :
    (flying .ptDec (snapOf gY 31 0 0)).snap = some (snapOf gY 31 0 0) ∧ (snapOf gY 31 0 0).len0.toNat ≠ 32
      ∧ (snapOf gY 33 0 0).len0.toNat ≠ 32 ∧ (snapOf (zeroBytes 15 ++ [0x80]) 32 0 0).len0.toNat = 32
      ∧ 128 ≤ ((snapOf (zeroBytes 15 ++ [0x80]) 32 0 0).bytes.getD 15 0).toNat
      ∧ ¬ 128 ≤ ((snapOf (zeroBytes 15 ++ [0x7F]) 32 0 0).bytes.getD 15 0).toNat := by decide +kernel

/-- LEN0 = 32 with byte 15 at 0 and at 127; y = 2 and y = 0, of which no root is found; the identity with the sign bit
set and with P for y.im, where y² = 1; and the encoding of G, whose root is found. -/
theorem test_witness_PtDecDecidesByTheRoot :
    (flying .ptDec (snapOf (two P 0) 32 0 0)).snap = some (snapOf (two P 0) 32 0 0)
      ∧ [two P 0, two 2 0, two 0 0, two 1 (2 ^ 127), two 1 P, gY].all (fun b : List Byte =>
        decide ((snapOf b 32 0 0).len0.toNat = 32 ∧ ((snapOf b 32 0 0).bytes.getD 15 0).toNat < 128)) = true
      ∧ ((snapOf (two P 0) 32 0 0).bytes.getD 15 0).toNat = 127
      ∧ completes 0x41 (two 2 0) (32, 0, 0) [] 0x506 = true ∧ completes 0x41 (two P 0) (32, 0, 0) [] 0x506 = true
      ∧ f2Sqr f2One = f2One ∧ leNat (slice (snapOf (two 1 (2 ^ 127)) 32 0 0).bytes 16 16) / 2 ^ 127 = 1 := by
  decide +kernel

/-- The encodings of G, of the identity, and of the two points (i, 0) and (−i, 0) of the real-only gap. -/
theorem test_witness_PtDecInvertsPtEnc :
    [(gY, baseGx, baseGy), (two 1 0, f2Zero, f2One),
      (zeroBytes 32, { re := Fp.ofNat 0, im := Fp.ofNat 1 }, f2Zero),
      (two 0 (2 ^ 127), { re := Fp.ofNat 0, im := Fp.ofNat (P - 1) }, f2Zero)].all
      (fun r : List Byte × Fp2 × Fp2 =>
        decide ((snapOf r.1 32 0 0).len0.toNat = 32
          ∧ ptOnCurve coreConfig { x := r.2.1, y := r.2.2 } = true
          ∧ leNat (slice (snapOf r.1 32 0 0).bytes 0 16) = r.2.2.re.val
          ∧ leNat (slice (snapOf r.1 32 0 0).bytes 16 16) = r.2.2.im.val + 2 ^ 127 * xSign r.2.1
          ∧ (r.2.1.re.val ≠ 0 ∨ r.2.1 = f2Zero ∨ r.2.1.re.val = 0 ∧ r.2.1.im.val ≠ 0))) = true
      ∧ (flying .ptDec (snapOf gY 32 0 0)).snap = some (snapOf gY 32 0 0) ∧ baseGx.re.val ≠ 0 := by decide +kernel

/-- PT_DEC of the encoding of the identity with the sign bit set raises nothing. -/
theorem test_witness_PtDecPublishesACurvePoint :
    ∃ t, exec .ptDec (flying .ptDec (snapOf (two 1 (2 ^ 127)) 32 0 0)) = .next t ∧ t.status.err = false :=
  ⟨_, exec_of_snap (sn := snapOf (two 1 (2 ^ 127)) 32 0 0) .ptDec rfl, by decide +kernel⟩

theorem test_witness_ValidatorsPublishTheStructure :
    (flying .valSig (snapOf [] 64 0 0)).snap = some (snapOf [] 64 0 0) := rfl

/-- Every clause: lengths 31, 32, 33, 63, 64, 65; byte 15 at 127 and 128, byte 62 at 63 and 64, byte 63 at 0 and 1. -/
theorem test_witness_AssertionsRaiseByCause :
    (flying .chkPk (snapOf [] 31 0 0)).snap = some (snapOf [] 31 0 0)
      ∧ (snapOf [] 31 0 0).len0.toNat ≠ 32 ∧ (snapOf [] 33 0 0).len0.toNat ≠ 32 ∧ (snapOf [] 32 0 0).len0.toNat = 32
      ∧ 128 ≤ ((snapOf (zeroBytes 15 ++ [0x80]) 32 0 0).bytes.getD 15 0).toNat
      ∧ ((snapOf (zeroBytes 15 ++ [0x7F]) 32 0 0).bytes.getD 15 0).toNat < 128
      ∧ (snapOf [] 63 0 0).len0.toNat ≠ 64 ∧ (snapOf [] 65 0 0).len0.toNat ≠ 64 ∧ (snapOf [] 64 0 0).len0.toNat = 64
      ∧ 64 ≤ ((snapOf (zeroBytes 62 ++ [0x40]) 64 0 0).bytes.getD 62 0).toNat
      ∧ ((snapOf (zeroBytes 63 ++ [0x01]) 64 0 0).bytes.getD 63 0).toNat ≠ 0
      ∧ ((snapOf (zeroBytes 62 ++ [0x3F]) 64 0 0).bytes.getD 62 0).toNat < 64
      ∧ ((snapOf (zeroBytes 62 ++ [0x3F]) 64 0 0).bytes.getD 63 0).toNat = 0
      ∧ ((snapOf (zeroBytes 62 ++ [0x3F]) 64 0 0).bytes.getD 15 0).toNat < 128 := by decide +kernel

theorem test_witness_ScalarCommandsPublishResidues :
    (flying .scSub (snapOf (zeroBytes 32 ++ ff32) 0 0 0)).snap = some (snapOf (zeroBytes 32 ++ ff32) 0 0 0) := rfl

/-- The smallest modulus and the largest; operands below the modulus, with and without underflow. -/
theorem test_witness_ScalarReductionLaws :
    0 < ({ coreConfig with q := 1 } : Config).q ∧ ({ coreConfig with q := 1 } : Config).q < 2 ^ 256
      ∧ 0 < ({ coreConfig with q := 2 ^ 256 - 1 } : Config).q
      ∧ ({ coreConfig with q := 2 ^ 256 - 1 } : Config).q < 2 ^ 256
      ∧ 0 < coreConfig.q ∧ coreConfig.q < 2 ^ 256 ∧ leNat (bytesN 32 3) < coreConfig.q
      ∧ leNat (bytesN 32 (orderQ - 1)) < coreConfig.q ∧ leNat (bytesN 32 3) ≤ leNat (bytesN 32 (orderQ - 1)) := by
  decide +kernel

theorem test_witness_KeygenPublishesThePublicKey :
    (flying .keygen (snapOf subSeed 32 0 0)).snap = some (snapOf subSeed 32 0 0)
      ∧ subSeed = slice (snapOf subSeed 32 0 0).bytes 0 32
      ∧ (snapOf subSeed 32 0 0).len0.toNat = 32 ∧ (snapOf subSeed 31 0 0).len0.toNat ≠ 32
      ∧ ptEncode (ptSmulBase coreConfig (leNat (slice (coreConfig.xof subSeed 64) 0 32) % orderQ)) = .ok publicKey := by
  decide +kernel

theorem test_witness_SignPublishesTheSignature :
    (flying .sign (snapOf (subSeed ++ publicKey ++ digest) 32 32 32)).snap
        = some (snapOf (subSeed ++ publicKey ++ digest) 32 32 32)
      ∧ subSeed = slice (snapOf (subSeed ++ publicKey ++ digest) 32 32 32).bytes 0 32
      ∧ publicKey = slice (snapOf (subSeed ++ publicKey ++ digest) 32 32 32).bytes 32 32
      ∧ digest = slice (snapOf (subSeed ++ publicKey ++ digest) 32 32 32).bytes 64 32
      ∧ (snapOf (subSeed ++ publicKey ++ digest) 32 32 32).len0.toNat = 32
      ∧ (snapOf (subSeed ++ publicKey ++ digest) 32 32 32).len1.toNat = 32
      ∧ (snapOf (subSeed ++ publicKey ++ digest) 32 32 32).len2.toNat = 32
      ∧ (snapOf (subSeed ++ publicKey ++ digest) 32 32 33).len2.toNat ≠ 32
      ∧ ptEncode (ptSmulBase coreConfig
          (leNat (slice (coreConfig.xof (slice (coreConfig.xof subSeed 64) 32 32 ++ digest) 64) 0 32) % orderQ)) = .ok rEnc
    := by decide +kernel

theorem test_witness_VerifyNeverRaises :
    (flying .verify (snapOf (publicKey ++ digest ++ rEnc ++ sBytes) 32 32 64)).snap
        = some (snapOf (publicKey ++ digest ++ rEnc ++ sBytes) 32 32 64)
      ∧ publicKey = slice (snapOf (publicKey ++ digest ++ rEnc ++ sBytes) 32 32 64).bytes 0 32
      ∧ digest = slice (snapOf (publicKey ++ digest ++ rEnc ++ sBytes) 32 32 64).bytes 32 32
      ∧ rEnc ++ sBytes = slice (snapOf (publicKey ++ digest ++ rEnc ++ sBytes) 32 32 64).bytes 64 64 := by
  decide +kernel

theorem test_witness_KeygenAndSignAlwaysComplete :
    (flying .sign (snapOf (subSeed ++ publicKey ++ digest) 32 32 32)).snap
        = some (snapOf (subSeed ++ publicKey ++ digest) 32 32 32)
      ∧ (snapOf (subSeed ++ publicKey ++ digest) 32 32 32).len0.toNat = 32
      ∧ (snapOf (subSeed ++ publicKey ++ digest) 32 32 32).len1.toNat = 32
      ∧ (snapOf (subSeed ++ publicKey ++ digest) 32 32 32).len2.toNat = 32 := by decide +kernel

end Sys2Proof.Tests
end

section
/-! PROOFS, family 00_scope.md: the supplied constants (R7 to R9), and that what a command leaves for the host to see is
computed from its snapshot (R16, R27). -/

namespace Sys2Proof.Machine

/-! ## The supplied configuration -/

/-- The hash answers with as many bytes as are asked for, on the listed path of GK4 and beyond it (R9). -/
@[simp] theorem k12Xof_length (m : List Byte) (n : Nat) : (k12Xof m n).length = n := by
  unfold k12Xof
  split
  · rw [List.length_map, List.length_range]
  · exact Vector.length_toList

/-- The size of the subgroup order (92_eei_decisions.md D22). -/
theorem orderQ_bounds : 2 ^ 245 < orderQ ∧ orderQ < 2 ^ 246 := by decide

/-- The curve equation at the supplied base point (R143, D21). -/
theorem basePoint_onCurve : ptOnCurve coreConfig { x := baseGx, y := baseGy } = true := by decide +kernel

/-- Settles O59. -/
theorem suppliedConstantsAreSound : Obligations.SuppliedConstantsAreSound where
  qLow := orderQ_bounds.1
  qHigh := orderQ_bounds.2
  base := basePoint_onCurve
  xofLength := k12Xof_length

/-! ## What Complete publishes is the run's alone -/

/-- STATUS after Complete does not depend on the state that completes. -/
theorem State.complete_status_congr (s s' : State) (r : CmdRun) : (s'.complete r).status = (s.complete r).status := by
  obtain ⟨outcome, calls⟩ := r
  cases outcome with
  | ok ret => exact (published_complete s' ret calls).status.trans (published_complete s ret calls).status.symm
  | error e => exact (raised_complete s' e calls).status.trans (raised_complete s e calls).status.symm

/-- Nor does OUT: Complete writes all 128 bytes of it, whatever they were (R22, R221). -/
theorem State.complete_out_congr (s s' : State) (r : CmdRun) {k : Nat} (hk : k < 128) :
    (s'.complete r).mem.read (0x200 + k) = (s.complete r).mem.read (0x200 + k) := by
  obtain ⟨outcome, calls⟩ := r
  cases outcome with
  | ok ret => exact ((published_complete s' ret calls).out k hk).trans ((published_complete s ret calls).out k hk).symm
  | error e => exact ((raised_complete s' e calls).out k hk).trans ((raised_complete s e calls).out k hk).symm

/-- Settles O23: with equal snapshots both states complete with the same run, and Complete shows nothing else. -/
theorem outcomeDependsOnTheSnapshotAlone : Obligations.OutcomeDependsOnTheSnapshotAlone := by
  intro i s s' t hsnap hexec
  obtain ⟨sn, hsn, rfl⟩ := exec_eq_next.mp hexec
  refine ⟨s'.complete (runOf i sn), exec_of_snap i (hsnap.symm.trans hsn), ?_, ?_, ?_⟩
  · exact State.complete_status_congr s s' _
  · rw [State.complete_xofCalls, State.complete_xofCalls]
  · exact fun k hk => State.complete_out_congr s s' _ hk

end Sys2Proof.Machine
end

section
/-! PROOFS, family 10_state.md: the registers at reset and as the host reads and writes them (R23 to R25, R32), all
that one step can do to the memory, STATUS and SNAP, and the invariant of every step (R22, R25, R27, R265). -/

namespace Sys2Proof.Machine

/-! ## Registers -/

/-- Settles O1. -/
theorem resetLeavesEveryRegisterZero : Obligations.ResetLeavesEveryRegisterZero :=
  ⟨rfl, by decide, rfl, rfl, rfl, Memory.read_nil, rfl, rfl⟩

/-- Settles O20: the five register offsets are legal 32-bit accesses, and each selects its own register. -/
theorem registersReadAndWrite : Obligations.RegistersReadAndWrite := by
  intro s
  refine ⟨rfl, rfl, rfl, rfl, rfl, fun v => ?_⟩
  have hv : v.toNat < 4294967296 := v.isLt
  refine ⟨?_, ?_, ?_⟩ <;> simp [State.winWrite, accessLegal, windowSize, hv]

/-- STATUS bit by bit (R25). -/
theorem State.statusWord_getLsbD (s : State) (i : Nat) :
    s.statusWord.getLsbD i =
      if i = 0 then s.busy else if i = 1 then s.status.done else if i = 2 then s.status.err
      else if i = 3 then s.status.flag else if 8 ≤ i then s.status.errCode.getLsbD (i - 8) else false := by
  have hcode : 8 ≤ i - 8 → s.status.errCode.getLsbD (i - 8) = false := s.status.errCode.getLsbD_of_ge _
  simp only [State.statusWord, BitVec.getLsbD_append, BitVec.getLsbD_ofBool, BitVec.getLsbD_zero]
  grind

/-- Settles O21: the single bits, then bits 7:4, 15:8 and 31:16, each by its bits. -/
theorem statusWordHasItsFields : Obligations.StatusWordHasItsFields := by
  intro s
  refine ⟨s.statusWord_getLsbD 0, s.statusWord_getLsbD 1, s.statusWord_getLsbD 2, s.statusWord_getLsbD 3,
    BitVec.eq_of_getLsbD_eq fun i hi => ?_, BitVec.eq_of_getLsbD_eq fun i hi => ?_,
    BitVec.eq_of_getLsbD_eq fun i hi => ?_⟩
  all_goals
    rw [BitVec.getLsbD_extractLsb', State.statusWord_getLsbD]
    grind

/-! ## CORE's own step -/

/-- What CORE runs for the word `w` in CMD: the command it decodes to, or `raise E_ILLEGAL_CMD` (R71, R221);
`coreStep_of_snap` says that this is `coreStep`. -/
def coreRun (w : Word) (sn : Snap) : CmdRun :=
  match decode w with
  | .ok i => runOf i sn
  | .error _ => { outcome := .error .illegalCmd, xofCalls := [] }

theorem coreRun_of_decode {w : Word} {i : Instr} (h : decode w = .ok i) (sn : Snap) : coreRun w sn = runOf i sn := by
  simp [coreRun, h]

theorem coreRun_of_illegal {w : Word} {d : DecodeError} (h : decode w = .error d) (sn : Snap) :
    coreRun w sn = { outcome := .error .illegalCmd, xofCalls := [] } := by
  simp [coreRun, h]

/-- While idle no step of CORE is enabled (R223). -/
theorem coreStep_of_idle {s : State} (h : s.busy = false) : coreStep s = .next s := by simp [coreStep, h]

/-- While BUSY CORE completes the word in CMD on its snapshot (R221). -/
theorem coreStep_of_snap {s : State} {sn : Snap} (h : s.snap = some sn) :
    coreStep s = .next (s.complete (coreRun s.cmd sn)) := by
  have hb : s.busy = true := s.busy_iff_snap.mpr ⟨sn, h⟩
  cases hd : decode s.cmd with
  | ok i => simp [coreStep, hb, hd, coreRun_of_decode hd, exec_of_snap i h]
  | error d => simp [coreStep, hb, hd, coreRun_of_illegal hd, execIllegal, runPure_of_snap h]

/-! ## All that one step can do -/

/-- A legal access that begins in IN stays in IN: the accesses are aligned and IN ends at a multiple of 4 (R51, R55). -/
theorem accessLegal_in_end {off n : Nat} (h : accessLegal off n = true) (hin : isIn off = true) : off + n ≤ 0x200 := by
  rw [isIn_iff] at hin
  simp only [accessLegal, Bool.and_eq_true, Bool.or_eq_true, beq_iff_eq] at h
  obtain ⟨⟨⟨(rfl | rfl) | rfl, halign⟩, -⟩, -⟩ := h <;> omega

/-- The five things that can happen to the memory, STATUS and SNAP in one step. -/
inductive StepEffect (s : State) : State → Prop
  /-- a read, a write to LENk or to a read-only or reserved range, a CMD write while BUSY, CORE's turn while idle -/
  | quiet {t : State} (mem : t.mem = s.mem) (status : t.status = s.status) (snap : t.snap = s.snap) : StepEffect s t
  /-- a write to IN -/
  | writeIn {off n v : Nat} (low : 0x100 ≤ off) (high : off + n ≤ 0x200) :
      StepEffect s { s with mem := s.mem.writeRange off (bytesN n v) }
  /-- Accept -/
  | accept (w : Word) (idle : s.busy = false) : StepEffect s (s.accept w)
  /-- reset -/
  | reset : StepEffect s s.applyReset
  /-- Complete -/
  | complete {sn : Snap} (snap : s.snap = some sn) : StepEffect s (s.complete (coreRun s.cmd sn))

theorem winWrite_effect {s t : State} {off n v : Nat} (h : s.winWrite off n v = some t) : StepEffect s t := by
  obtain ⟨hlegal, -, hcases⟩ := State.winWrite_cases h
  obtain ⟨-, rfl⟩ | ⟨-, rfl⟩ | ⟨-, rfl⟩ | ⟨-, rfl⟩ | ⟨hin, rfl⟩ | ⟨-, -, -, -, -, rfl⟩ := hcases
  · obtain ⟨-, hw⟩ | ⟨hidle, hw⟩ := s.writeCmd_cases (BitVec.ofNat 32 v)
    · rw [hw]
      exact .quiet rfl rfl rfl
    · rw [hw]
      exact .accept _ hidle
  · exact .quiet rfl rfl rfl
  · exact .quiet rfl rfl rfl
  · exact .quiet rfl rfl rfl
  · exact .writeIn ((isIn_iff off).mp hin).1 (accessLegal_in_end hlegal hin)
  · exact .quiet rfl rfl rfl

theorem coreStep_effect {s t : State} (h : coreStep s = .next t) : StepEffect s t := by
  cases hsnap : s.snap with
  | none =>
    rw [coreStep_of_idle (by simp [State.busy, hsnap])] at h
    cases h
    exact .quiet rfl rfl rfl
  | some sn =>
    rw [coreStep_of_snap hsnap] at h
    cases h
    exact .complete hsnap

theorem eventStep_effect {e : Event} {s t : State} (h : eventStep e s = .next t) : StepEffect s t := by
  obtain ⟨off, n, v, -, -, rfl⟩ | ⟨off, n, v, -, hwrite⟩ | ⟨-, rfl⟩ | ⟨-, hcore⟩ := eventStep_cases h
  · exact .quiet rfl rfl rfl
  · exact winWrite_effect hwrite
  · exact .reset
  · exact coreStep_effect hcore

/-- Every step is one of the five effects, on the state whose script has lost its first event. -/
theorem step_effect {s t : State} (h : step s = .next t) : ∃ es, StepEffect { s with script := es } t := by
  cases hscript : s.script with
  | nil =>
    rw [step_nil hscript] at h
    exact ⟨s.script, coreStep_effect h⟩
  | cons e es =>
    rw [step_cons hscript] at h
    exact ⟨es, eventStep_effect h⟩

/-- What is kept by the five effects and does not depend on the script is kept by every step. -/
theorem step_keeps {p : State → Prop} (script : ∀ s es, p s → p { s with script := es })
    (effect : ∀ s t, p s → StepEffect s t → p t) {s t : State} (hs : p s) (h : step s = .next t) : p t := by
  obtain ⟨es, heffect⟩ := step_effect h
  exact effect _ t (script s es hs) heffect

/-! ## The invariant -/

/-- `OUT <- v` adds entries of OUT only. -/
theorem Memory.mem_setOut {m : Memory} {v : List Byte} {c : Host.Cell} (h : c ∈ m.setOut v) :
    c ∈ m ∨ isOut c.1 = true := by
  obtain hm | ⟨hlow, hhigh⟩ := Memory.mem_writeRange h
  · exact .inl hm
  · rw [paddedOut_length] at hhigh
    exact .inr ((isOut_iff c.1).mpr ⟨hlow, hhigh⟩)

/-- The invariant speaks of the memory, STATUS and SNAP only. -/
theorem State.Inv.congr {s t : State} (h : s.Inv) (mem : t.mem = s.mem) (status : t.status = s.status)
    (snap : t.snap = s.snap) : t.Inv where
  memWf := mem ▸ h.memWf
  memMapped := mem ▸ h.memMapped
  snapSize := snap ▸ h.snapSize
  busyNotDone hb := by
    rw [status]
    exact h.busyNotDone (by rwa [State.busy, snap] at hb)
  notDone := by
    rw [status, mem]
    exact h.notDone
  errored := by
    rw [status, mem]
    exact h.errored
  notErrored := status ▸ h.notErrored

/-- Settles O3. -/
theorem resetMeetsTheInvariant : Obligations.ResetMeetsTheInvariant where
  memWf := ⟨.nil, by simp [State.reset]⟩
  memMapped := by simp [State.reset]
  snapSize := by simp [State.reset]
  busyNotDone _ := rfl
  notDone _ := ⟨rfl, fun _ _ => rfl⟩
  errored h := absurd h (by decide)
  notErrored _ := rfl

theorem State.Inv.applyReset (s : State) : s.applyReset.Inv := resetMeetsTheInvariant.congr rfl rfl rfl

/-- A write inside IN keeps the canonical form and does not touch OUT. -/
theorem State.Inv.writeIn {s : State} (h : s.Inv) {off n v : Nat} (low : 0x100 ≤ off) (high : off + n ≤ 0x200) :
    State.Inv { s with mem := s.mem.writeRange off (bytesN n v) } := by
  have hout : ∀ k, (s.mem.writeRange off (bytesN n v)).read (0x200 + k) = s.mem.read (0x200 + k) := fun k => by
    rw [Memory.read_writeRange, bytesN_length, if_neg (by omega)]
  exact
    { memWf := Memory.writeRange_wf h.memWf _ _
      memMapped := fun c hc => by
        obtain hm | ⟨hlow, hhigh⟩ := Memory.mem_writeRange hc
        · exact h.memMapped c hm
        · rw [bytesN_length] at hhigh
          exact .inl ((isIn_iff c.1).mpr ⟨by omega, by omega⟩)
      snapSize := h.snapSize
      busyNotDone := h.busyNotDone
      notDone := fun hd => ⟨(h.notDone hd).1, fun k hk => (hout k).trans ((h.notDone hd).2 k hk)⟩
      errored := fun he => by
        obtain ⟨hflag, hlow, hhigh, hzero⟩ := h.errored he
        exact ⟨hflag, hlow, hhigh, fun k hk => (hout k).trans (hzero k hk)⟩
      notErrored := h.notErrored }

theorem Memory.mapped_setOut {m : Memory} (h : ∀ c ∈ m, isIn c.1 = true ∨ isOut c.1 = true) (v : List Byte) :
    ∀ c ∈ m.setOut v, isIn c.1 = true ∨ isOut c.1 = true :=
  fun c hc => (Memory.mem_setOut hc).elim (h c) .inr

/-- Accept clears STATUS and OUT and takes a snapshot of 256 bytes (R27, R220). -/
theorem State.Inv.accept {s : State} (h : s.Inv) (w : Word) : (s.accept w).Inv where
  memWf := Memory.setOut_wf h.memWf []
  memMapped := Memory.mapped_setOut h.memMapped []
  snapSize sn hsn := by
    cases hsn
    exact Memory.readRange_length _ _ _
  busyNotDone _ := rfl
  notDone _ := ⟨rfl, fun _ hk => Memory.setOut_read_out s.mem [] hk⟩
  errored he := absurd he (by simp)
  notErrored _ := rfl

/-- The nine error codes are 1 to 9 (R231). -/
theorem errNumber_bounds (e : ErrCode) : 1 ≤ (errNumber e).toNat ∧ (errNumber e).toNat ≤ 9 := by
  cases e <;> decide

/-- Complete sets DONE, discards SNAP, and an error leaves OUT all zero (R22, R221). -/
theorem State.Inv.complete {s : State} (h : s.Inv) (r : CmdRun) : (s.complete r).Inv := by
  obtain ⟨outcome, calls⟩ := r
  have hmapped : ∀ c ∈ (s.complete ⟨outcome, calls⟩).mem, isIn c.1 = true ∨ isOut c.1 = true := by
    obtain ⟨v, hv⟩ := s.complete_mem ⟨outcome, calls⟩
    rw [hv]
    exact Memory.mapped_setOut h.memMapped v
  cases outcome with
  | ok ret =>
    have hst := (published_complete s ret calls).status
    exact
      { memWf := State.complete_mem_wf h.memWf _
        memMapped := hmapped
        snapSize := by simp
        busyNotDone := fun hb => by simp at hb
        notDone := fun hd => by simp [hst] at hd
        errored := fun he => by simp [hst] at he
        notErrored := fun _ => by rw [hst] }
  | error e =>
    have hraised := raised_complete s e calls
    have hst := hraised.status
    obtain ⟨hlow, hhigh⟩ := errNumber_bounds e
    exact
      { memWf := State.complete_mem_wf h.memWf _
        memMapped := hmapped
        snapSize := by simp
        busyNotDone := fun hb => by simp at hb
        notDone := fun hd => by simp [hst] at hd
        errored := fun _ => by
          rw [hst]
          exact ⟨rfl, hlow, hhigh, hraised.out⟩
        notErrored := fun he => by simp [hst] at he }

theorem State.Inv.effect {s t : State} (h : s.Inv) (heffect : StepEffect s t) : t.Inv := by
  cases heffect with
  | quiet mem status snap => exact h.congr mem status snap
  | writeIn low high => exact h.writeIn low high
  | accept w => exact h.accept w
  | reset => exact .applyReset s
  | complete => exact h.complete _

/-- Settles O4. -/
theorem everyStepKeepsTheInvariant : Obligations.EveryStepKeepsTheInvariant := fun _ _ hs hstep =>
  step_keeps (p := State.Inv) (fun _ _ h => h.congr rfl rfl rfl) (fun _ _ h heffect => h.effect heffect) hs hstep

/-! ## Writes while BUSY -/

/-- A host write while BUSY leaves the word in CMD and the snapshot as they are (R27, R266). -/
theorem State.winWrite_of_busy {s t : State} {off n v : Nat} (hb : s.busy = true) (h : s.winWrite off n v = some t) :
    t.cmd = s.cmd ∧ t.snap = s.snap := by
  obtain ⟨-, -, hcases⟩ := State.winWrite_cases h
  obtain ⟨-, rfl⟩ | ⟨-, rfl⟩ | ⟨-, rfl⟩ | ⟨-, rfl⟩ | ⟨-, rfl⟩ | ⟨-, -, -, -, -, rfl⟩ := hcases
  · rw [State.writeCmd, if_pos hb]
    exact ⟨rfl, rfl⟩
  all_goals exact ⟨rfl, rfl⟩

/-- Settles O16: the word and the snapshot determine the run that CORE completes with, and Complete shows nothing
else. -/
theorem hostWritesWhileBusyKeepTheOutcome : Obligations.HostWritesWhileBusyKeepTheOutcome := by
  intro s t u off n v hb hwrite hcore
  obtain ⟨hcmd, hsnap⟩ := State.winWrite_of_busy hb hwrite
  obtain ⟨sn, hsn⟩ := s.busy_iff_snap.mp hb
  rw [coreStep_of_snap hsn] at hcore
  cases hcore
  refine ⟨hcmd, hsnap, t.complete (coreRun s.cmd sn), ?_, ?_, ?_, ?_⟩
  · rw [coreStep_of_snap (hsnap.trans hsn), hcmd]
  · exact State.complete_status_congr s t _
  · rw [State.complete_xofCalls, State.complete_xofCalls]
  · exact fun k hk => State.complete_out_congr s t _ hk

end Sys2Proof.Machine
end

section
/-! PROOFS, family 10_state.md: Fp and Fp2 as rings (40_fp.md, 41_fp2.md), and what follows for square roots and for
the decoded point (43_codec.md R171): the arithmetic that rules out E_OFF_CURVE. -/

namespace Sys2Proof.Machine

/-- P is the Mersenne number 2^127 − 1 (R6), a prime by the Lucas-Lehmer test. -/
theorem P_prime : P.Prime :=
  show (mersenne 127).Prime from lucas_lehmer_sufficiency 127 (by norm_num) (by norm_num)

theorem two_le_P : 2 ≤ P := by decide

theorem P_coprime_two : P.Coprime 2 := Nat.coprime_two_right.mpr (Nat.odd_iff.mpr (by decide))

/-! ## Fp as the field ZMod P -/

/-- The residue class that an Fp value stands for (R14). -/
def residue (a : Fp) : ZMod P := (a.val : ZMod P)

theorem residue_injective : Function.Injective residue := by
  intro a b h
  have hmod := (ZMod.natCast_eq_natCast_iff' a.val b.val P).mp h
  rw [Nat.mod_eq_of_lt a.isLt, Nat.mod_eq_of_lt b.isLt] at hmod
  exact Fin.ext hmod

@[simp] theorem residue_ofNat (x : Nat) : residue (Fp.ofNat x) = (x : ZMod P) := by
  rw [residue, Fp.ofNat_val, ZMod.natCast_mod]

@[simp] theorem residue_fpAdd (a b : Fp) : residue (fpAdd a b) = residue a + residue b := by
  simp [fpAdd, residue]

@[simp] theorem residue_fpSub (a b : Fp) : residue (fpSub a b) = residue a - residue b := by
  rw [fpSub, residue_ofNat]
  split
  · next h => rw [Nat.cast_sub h, residue, residue]
  · rw [Nat.cast_sub (by have := b.isLt; omega), Nat.cast_add, ZMod.natCast_self, add_zero, residue, residue]

@[simp] theorem residue_fpNeg (a : Fp) : residue (fpNeg a) = -residue a := by
  rw [fpNeg, residue_ofNat]
  split
  · next h => simp [residue, h]
  · rw [Nat.cast_sub a.isLt.le, ZMod.natCast_self, zero_sub, residue]

@[simp] theorem residue_fpMul (a b : Fp) : residue (fpMul a b) = residue a * residue b := by
  simp [fpMul, residue]

@[simp] theorem residue_fpSqr (a : Fp) : residue (fpSqr a) = residue a * residue a := residue_fpMul a a

theorem residue_eq_zero_iff (a : Fp) : residue a = 0 ↔ a.val = 0 := by
  rw [residue, ZMod.natCast_eq_zero_iff]
  exact ⟨fun h => Nat.eq_zero_of_dvd_of_lt h a.isLt, fun h => h ▸ dvd_zero P⟩

/-- The loop invariant of binary exponentiation (R108). -/
theorem residue_fpPowLoop (n : Nat) (acc b : Fp) (e : Nat) (he : e < 2 ^ n) :
    residue (fpPowLoop n acc b e) = residue acc * residue b ^ e := by
  induction n generalizing acc b e with
  | zero =>
    obtain rfl : e = 0 := by simpa using he
    simp [fpPowLoop]
  | succ n ih =>
    rw [fpPowLoop]
    split
    · next h0 => simp [h0]
    · have hsplit : residue b ^ e = (residue b * residue b) ^ (e / 2) * residue b ^ (e % 2) := by
        rw [← sq, ← pow_mul, ← pow_add, Nat.div_add_mod]
      rw [ih _ _ _ (by omega), residue_fpMul, hsplit]
      rcases Nat.mod_two_eq_zero_or_one e with hbit | hbit
      · simp [hbit]
      · simp only [hbit, if_true, residue_fpMul, pow_one]
        ring

/-- `fp_pow` is the power (R108). -/
@[simp] theorem residue_fpPow (a : Fp) (e : Nat) : residue (fpPow a e) = residue a ^ e := by
  rw [fpPow, residue_fpPowLoop _ _ _ _ Nat.lt_log2_self]
  simp

/-- `fp_inv` case by case (R109). -/
theorem fpInv_of_zero {a : Fp} (h : a.val = 0) : fpInv a = .error .domain := if_pos h

theorem fpInv_of_ne_zero {a : Fp} (h : a.val ≠ 0) : fpInv a = .ok (fpPow a (P - 2)) := if_neg h

/-- `fp_inv` answers the inverse, by Fermat's little theorem (R109). -/
theorem residue_mul_fpInv {a b : Fp} (h : fpInv a = .ok b) : residue a * residue b = 1 := by
  have : Fact P.Prime := ⟨P_prime⟩
  by_cases hzero : a.val = 0
  · simp [fpInv_of_zero hzero] at h
  · rw [fpInv_of_ne_zero hzero] at h
    obtain rfl := Except.ok.inj h
    have hres : residue a ≠ 0 := mt (residue_eq_zero_iff a).mp hzero
    rw [residue_fpPow, ← pow_succ', show P - 2 + 1 = P - 1 by have := two_le_P; omega]
    exact ZMod.pow_card_sub_one_eq_one hres

/-! ## Fp2 as the ring ZMod P [i], i² = −1 -/

/-- The ring that Fp2 stands for (R14): a + b·i over ZMod P with i² = −1. -/
abbrev QuadP : Type := QuadraticAlgebra (ZMod P) (-1) 0

/-- The ring element that an Fp2 value stands for: `quad_f2Add` and the lemmas after it tie it to the model. -/
def quad (x : Fp2) : QuadP := ⟨residue x.re, residue x.im⟩

theorem quad_injective : Function.Injective quad := by
  rintro ⟨a, b⟩ ⟨c, d⟩ h
  obtain ⟨hre, him⟩ := QuadraticAlgebra.mk.inj h
  obtain rfl : a = c := residue_injective hre
  obtain rfl : b = d := residue_injective him
  rfl

@[simp] theorem quad_f2One : quad f2One = 1 := by
  ext <;> simp [quad, f2One, QuadraticAlgebra.re_one, QuadraticAlgebra.im_one]

@[simp] theorem quad_f2Add (x y : Fp2) : quad (f2Add x y) = quad x + quad y := by
  ext <;> simp [quad, f2Add]

@[simp] theorem quad_f2Sub (x y : Fp2) : quad (f2Sub x y) = quad x - quad y := by
  ext <;> simp [quad, f2Sub]

@[simp] theorem quad_f2Neg (x : Fp2) : quad (f2Neg x) = -quad x := by
  ext <;> simp [quad, f2Neg]

@[simp] theorem quad_f2Mul (x y : Fp2) : quad (f2Mul x y) = quad x * quad y := by
  ext
  · simp only [quad, f2Mul, residue_fpSub, residue_fpMul, QuadraticAlgebra.re_mul]
    ring
  · simp [quad, f2Mul]

@[simp] theorem quad_f2Sqr (x : Fp2) : quad (f2Sqr x) = quad x * quad x := by
  ext
  · simp only [quad, f2Sqr, residue_fpSub, residue_fpSqr, QuadraticAlgebra.re_mul]
    ring
  · simp only [quad, f2Sqr, residue_fpAdd, residue_fpMul, QuadraticAlgebra.im_mul]
    ring

/-- `f2_inv` answers the inverse: conjugate over norm (R125). -/
theorem quad_mul_f2Inv {x y : Fp2} (h : f2Inv x = .ok y) : quad x * quad y = 1 := by
  unfold f2Inv at h
  cases hni : fpInv (fpAdd (fpSqr x.re) (fpSqr x.im)) with
  | error e => simp [hni, Bind.bind, Except.bind] at h
  | ok ni =>
    have hnorm := residue_mul_fpInv hni
    simp only [residue_fpAdd, residue_fpSqr] at hnorm
    simp only [hni, Bind.bind, Except.bind, Pure.pure, Except.pure] at h
    cases h
    ext
    · simp only [quad, residue_fpMul, residue_fpNeg, QuadraticAlgebra.re_mul, QuadraticAlgebra.re_one]
      linear_combination hnorm
    · simp only [quad, residue_fpMul, residue_fpNeg, QuadraticAlgebra.im_mul, QuadraticAlgebra.im_one]
      ring

/-! ## Square roots and decoding -/

theorem fpSqr_of_fpSqrt {a r : Fp} (h : fpSqrt a = some r) : fpSqr r = a := by
  simp only [fpSqrt] at h
  split at h
  · next hsq => rwa [Option.some.inj h] at hsq
  · cases h

/-- Twice a nonzero element is nonzero: P is odd (R6). -/
theorem fpAdd_self_ne_zero {r : Fp} (h : r.val ≠ 0) : (fpAdd r r).val ≠ 0 := by
  intro hsum
  have hdvd : P ∣ r.val * 2 := Nat.dvd_of_mod_eq_zero (by rwa [Nat.mul_two])
  exact h (Nat.eq_zero_of_dvd_of_lt (P_coprime_two.dvd_of_dvd_mul_right hdvd) r.isLt)

/-- The last part of `f2_sqrt` never fails, and verifies the root it finds (R126). -/
theorem f2SqrtFrom_spec (x : Fp2) (r : Fp) :
    ∃ o, f2SqrtFrom x r = .ok o ∧ ∀ c, o = some c → f2Sqr c = x := by
  unfold f2SqrtFrom
  split
  · exact ⟨none, rfl, by simp⟩
  · next hr =>
    simp only [fpInv_of_ne_zero (fpAdd_self_ne_zero hr), Bind.bind, Except.bind, Pure.pure, Except.pure]
    split
    · next hc => exact ⟨_, rfl, by rintro c ⟨⟩; exact hc⟩
    · split
      · next hc => exact ⟨_, rfl, by rintro c ⟨⟩; exact hc⟩
      · exact ⟨none, rfl, by simp⟩

/-- `f2_sqrt` never fails, and a root it finds is one (R126). -/
theorem f2Sqrt_spec (x : Fp2) : ∃ o, f2Sqrt x = .ok o ∧ ∀ c, o = some c → f2Sqr c = x := by
  unfold f2Sqrt
  split
  · next him =>
    refine ⟨_, rfl, fun c hc => ?_⟩
    obtain ⟨r, hr, rfl⟩ := Option.map_eq_some_iff.mp hc
    apply quad_injective
    rw [quad_f2Sqr]
    have hsq : residue r * residue r = residue x.re := by rw [← residue_fpSqr, fpSqr_of_fpSqrt hr]
    have hzero : residue x.im = 0 := (residue_eq_zero_iff _).mpr him
    ext <;> simp [quad, hsq, hzero]
  · split
    · exact ⟨none, rfl, by simp⟩
    · split
      · exact ⟨none, rfl, by simp⟩
      · exact f2SqrtFrom_spec x _

/-- A root of (y² − 1)/(D·y² + 1) is the x of a curve point (R143, R171, U14). -/
theorem ptOnCurve_of_root {cfg : Config} {x y di : Fp2}
    (hinv : f2Inv (f2Add (f2Mul cfg.d (f2Sqr y)) f2One) = .ok di)
    (hroot : f2Sqr x = f2Mul (f2Sub (f2Sqr y) f2One) di) : ptOnCurve cfg { x := x, y := y } = true := by
  have hq := quad_mul_f2Inv hinv
  have hr := congrArg quad hroot
  simp only [quad_f2Add, quad_f2Mul, quad_f2Sqr, quad_f2One, quad_f2Sub] at hq hr
  simp only [ptOnCurve, beq_iff_eq]
  apply quad_injective
  simp only [quad_f2Add, quad_f2Mul, quad_f2Sqr, quad_f2One, quad_f2Sub]
  linear_combination (-1 - quad cfg.d * (quad y * quad y)) * hr - (quad y * quad y - 1) * hq

theorem f2Sqr_f2Neg (x : Fp2) : f2Sqr (f2Neg x) = f2Sqr x := by
  apply quad_injective
  simp

end Sys2Proof.Machine
end

section
/-! PROOFS, family 10_state.md: the errors that each function and command can raise (60_exceptions.md R231), and from
them the STATUS words (95_test_vectors.md section 2.7). -/

namespace Sys2Proof.Machine

/-! ## Errors -/

/-- Every error that `o` can raise has its number among `codes` (R231). -/
def RaisesOnly {α : Type} (codes : List (BitVec 8)) (o : Except ErrCode α) : Prop :=
  ∀ e, o = .error e → errNumber e ∈ codes

namespace RaisesOnly

theorem ok {α : Type} {codes : List (BitVec 8)} (a : α) : RaisesOnly codes (.ok a) := nofun

theorem error {α : Type} {codes : List (BitVec 8)} {e : ErrCode} (h : errNumber e ∈ codes) :
    RaisesOnly (α := α) codes (.error e) := by
  rintro _ ⟨⟩
  exact h

theorem mono {α : Type} {codes codes' : List (BitVec 8)} {o : Except ErrCode α} (h : RaisesOnly codes o)
    (hsub : codes ⊆ codes') : RaisesOnly codes' o := fun e he => hsub (h e he)

/-- A sequence raises what its first part raises, or what the rest raises on the value of the first part. -/
theorem bind {α β : Type} {codes : List (BitVec 8)} {o : Except ErrCode α} {f : α → Except ErrCode β}
    (h : RaisesOnly codes o) (hf : ∀ a, o = .ok a → RaisesOnly codes (f a)) : RaisesOnly codes (o >>= f) := by
  cases o with
  | ok a => exact hf a rfl
  | error e => exact .error (h e rfl)

end RaisesOnly

/-! ### The returns of commands never raise (R101: the range check of `fp_enc` never fires) -/

theorem retFp_raises {codes : List (BitVec 8)} (a : Fp) : RaisesOnly codes (retFp a) := by
  rw [retFp_eq]
  exact .ok _

theorem retF2_raises {codes : List (BitVec 8)} (x : Fp2) : RaisesOnly codes (retF2 x) := by
  rw [retF2_eq]
  exact .ok _

theorem retPt_raises {codes : List (BitVec 8)} (p : Point) : RaisesOnly codes (retPt p) := by
  rw [retPt_eq]
  exact .ok _

theorem f2Enc_raises {codes : List (BitVec 8)} (x : Fp2) : RaisesOnly codes (f2Enc x) := by
  rw [f2Enc_eq]
  exact .ok _

/-! ### Functions -/

theorem fpInv_raises (a : Fp) : RaisesOnly [3] (fpInv a) := by
  by_cases h : a.val = 0
  · rw [fpInv_of_zero h]
    exact .error (by decide)
  · rw [fpInv_of_ne_zero h]
    exact .ok _

theorem f2Inv_raises (x : Fp2) : RaisesOnly [3] (f2Inv x) := (fpInv_raises _).bind fun _ _ => .ok _

theorem f2Sqrt_raises {codes : List (BitVec 8)} (x : Fp2) : RaisesOnly codes (f2Sqrt x) := by
  obtain ⟨o, ho, -⟩ := f2Sqrt_spec x
  rw [ho]
  exact .ok o

theorem ptAffine_raises (p : Point) : RaisesOnly [3] (ptAffine p) := (f2Inv_raises _).bind fun _ _ => .ok _

theorem ptEncode_raises (p : Point) : RaisesOnly [3] (ptEncode p) :=
  (ptAffine_raises p).bind fun _ _ => (f2Enc_raises _).bind fun _ _ => .ok _

/-- A root that is found lies on the curve, with either sign: E_OFF_CURVE is never raised (R171, U14). -/
theorem ptDecodeY_raises (cfg : Config) (y : Fp2) (sign : Nat) : RaisesOnly [3, 5] (ptDecodeY cfg y sign) := by
  refine ((f2Inv_raises _).mono (by decide)).bind fun di hdi => (f2Sqrt_raises _).bind fun root hroot => ?_
  cases root with
  | none => exact .error (by decide)
  | some x0 =>
    obtain ⟨o, ho, hsqr⟩ := f2Sqrt_spec (f2Mul (f2Sub (f2Sqr y) f2One) di)
    have hx0 := hsqr x0 (Except.ok.inj (ho.symm.trans hroot))
    have hcurve : ptOnCurve cfg { x := if xSign x0 ≠ sign then f2Neg x0 else x0, y := y } = true := by
      refine ptOnCurve_of_root hdi ?_
      split
      · rw [f2Sqr_f2Neg, hx0]
      · exact hx0
    simp only [hcurve, if_true]
    exact .ok _

theorem ptDecode_raises (cfg : Config) (b : List Byte) : RaisesOnly [3, 4, 5] (ptDecode cfg b) := by
  unfold ptDecode
  split
  · exact .error (by decide)
  · exact (ptDecodeY_raises cfg _ _).mono (by decide)

/-! ### Commands whose arms can raise, or hide a branch -/

theorem fpInvCmd_raises (sn : Snap) : RaisesOnly [3] (fpInvCmd sn) := by
  unfold fpInvCmd
  exact (fpInv_raises _).bind fun r _ => retFp_raises r

/-- FP_SQRT case by case (R110). -/
theorem fpSqrtCmd_of_none {sn : Snap} (h : fpSqrt (sn.fpOperand 0) = none) :
    fpSqrtCmd sn = .ok { out := zeroBytes 16, flag := false } := by
  unfold fpSqrtCmd
  rw [h]
  rfl

theorem fpSqrtCmd_of_some {sn : Snap} {c : Fp} (h : fpSqrt (sn.fpOperand 0) = some c) :
    fpSqrtCmd sn = .ok { out := bytesN 16 c.val, flag := true } := by
  unfold fpSqrtCmd
  rw [h]
  simp [flagFound]

theorem fpSqrtCmd_raises (sn : Snap) : RaisesOnly [] (fpSqrtCmd sn) := by
  cases h : fpSqrt (sn.fpOperand 0) with
  | none =>
    rw [fpSqrtCmd_of_none h]
    exact .ok _
  | some c =>
    rw [fpSqrtCmd_of_some h]
    exact .ok _

theorem f2SqrtCmd_raises (sn : Snap) : RaisesOnly [] (f2SqrtCmd sn) := by
  refine (f2Sqrt_raises _).bind fun root _ => ?_
  cases root with
  | none => exact .ok _
  | some c => exact (f2Enc_raises c).bind fun _ _ => .ok _

theorem ptAffineCmd_raises (sn : Snap) : RaisesOnly [3] (ptAffineCmd sn) :=
  (ptAffine_raises _).bind fun _ _ => (f2Enc_raises _).bind fun _ _ => (f2Enc_raises _).bind fun _ _ => .ok _

theorem ptDecCmd_raises (cfg : Config) (sn : Snap) : RaisesOnly [2, 3, 4, 5] (ptDecCmd cfg sn) := by
  unfold ptDecCmd
  split
  · exact .error (by decide)
  · exact ((ptDecode_raises cfg _).mono (by decide)).bind fun p _ => retPt_raises p

theorem valPkCmd_raises (sn : Snap) : RaisesOnly [] (valPkCmd sn) := by
  unfold valPkCmd
  split <;> exact .ok _

theorem valSigCmd_raises (sn : Snap) : RaisesOnly [] (valSigCmd sn) := by
  unfold valSigCmd
  split <;> exact .ok _

theorem chkPkCmd_raises (sn : Snap) : RaisesOnly [2, 8] (chkPkCmd sn) := by
  unfold chkPkCmd
  split
  · exact .error (by decide)
  · split
    · exact .ok _
    · exact .error (by decide)

theorem chkSigCmd_raises (sn : Snap) : RaisesOnly [2, 9] (chkSigCmd sn) := by
  unfold chkSigCmd
  split
  · exact .error (by decide)
  · split
    · exact .ok _
    · exact .error (by decide)

theorem keygenCmd_raises (cfg : Config) (sn : Snap) : RaisesOnly [2, 3] (keygenCmd cfg sn).outcome := by
  unfold keygenCmd
  split
  · exact .error (by decide)
  · exact ((ptEncode_raises _).mono (by decide)).bind fun _ _ => .ok _

theorem signWith_raises (cfg : Config) (subSeed pk md : List Byte) :
    RaisesOnly [3] (signWith cfg subSeed pk md).outcome := by
  unfold signWith
  dsimp only
  split
  · next e he => exact .error (ptEncode_raises _ e he)
  · exact .ok _

theorem signCmd_raises (cfg : Config) (sn : Snap) : RaisesOnly [2, 3] (signCmd cfg sn).outcome := by
  unfold signCmd
  split
  · exact (signWith_raises cfg _ _ _).mono (by decide)
  · exact .error (by decide)

theorem verifyWith_raises (cfg : Config) (pk md sig : List Byte) :
    RaisesOnly [] (verifyWith cfg pk md sig).outcome := by
  unfold verifyWith
  split
  · exact .ok _
  · split
    · exact .ok _
    · split <;> exact .ok _

theorem verifyCmd_raises (cfg : Config) (sn : Snap) : RaisesOnly [] (verifyCmd cfg sn).outcome := by
  unfold verifyCmd
  split
  · exact verifyWith_raises cfg _ _ _
  · exact .ok _

/-- Every command raises only what R231 lists for it. -/
theorem runOf_raises (i : Instr) (sn : Snap) : RaisesOnly (mayRaise i) (runOf i sn).outcome := by
  cases i with
  | nop | ptOncurve | ptSign | scRed | scMul | scSub => exact .ok _
  | fpAdd | fpSub | fpNeg | fpMul | fpSqr | fpDiv2 | fpCanon => exact retFp_raises _
  | fpInv => exact fpInvCmd_raises sn
  | fpSqrt =>
    dsimp only [runOf]
    exact fpSqrtCmd_raises sn
  | f2Add | f2Sub | f2Neg | f2Mul | f2Sqr => exact retF2_raises _
  | f2Inv => exact (f2Inv_raises _).bind fun r _ => retF2_raises r
  | f2Sqrt => exact f2SqrtCmd_raises sn
  | ptAdd | ptDbl | ptSmul | ptSmulb => exact retPt_raises _
  | ptAffine => exact ptAffineCmd_raises sn
  | ptEnc => exact (ptEncode_raises _).bind fun _ _ => .ok _
  | ptDec => exact ptDecCmd_raises coreConfig sn
  | valPk => exact valPkCmd_raises sn
  | valSig => exact valSigCmd_raises sn
  | chkPk => exact chkPkCmd_raises sn
  | chkSig => exact chkSigCmd_raises sn
  | keygen => exact keygenCmd_raises coreConfig sn
  | sign => exact signCmd_raises coreConfig sn
  | verify => exact verifyCmd_raises coreConfig sn

/-- The numbers of the errors that occur: all of R231 but E_OFF_CURVE (6) and E_RANGE (7). -/
def reachableCodes : List (BitVec 8) := [1, 2, 3, 4, 5, 8, 9]

theorem mayRaise_subset_reachableCodes (i : Instr) : mayRaise i ⊆ reachableCodes := by
  cases i <;> decide

/-- What CORE runs for any word raises a reachable error only. -/
theorem coreRun_raises (w : Word) (sn : Snap) : RaisesOnly reachableCodes (coreRun w sn).outcome := by
  cases hd : decode w with
  | ok i =>
    rw [coreRun_of_decode hd]
    exact (runOf_raises i sn).mono (mayRaise_subset_reachableCodes i)
  | error d =>
    rw [coreRun_of_illegal hd]
    exact .error (by decide)

/-! ## STATUS words -/

/-- The STATUS word of given fields and BUSY (R25). -/
def statusWordOf (st : Status) (busy : Bool) : Word :=
  0#16 ++ st.errCode ++ 0#4 ++ BitVec.ofBool st.flag ++ BitVec.ofBool st.err ++ BitVec.ofBool st.done
    ++ BitVec.ofBool busy

theorem State.statusWord_eq (s : State) : s.statusWord = statusWordOf s.status s.busy := rfl

theorem statusWordOf_statusOk_mem (flag : Bool) : statusWordOf (statusOk flag) false ∈ reachableStatusWords := by
  cases flag <;> decide

theorem statusWordOf_statusErr_mem {e : ErrCode} (h : errNumber e ∈ reachableCodes) :
    statusWordOf (statusErr e) false ∈ reachableStatusWords := by
  revert h
  cases e <;> decide

/-- Complete leaves a word of the table, if the run raises a reachable error only. -/
theorem State.complete_statusWord_mem (s : State) {r : CmdRun} (h : RaisesOnly reachableCodes r.outcome) :
    (s.complete r).statusWord ∈ reachableStatusWords := by
  rw [State.statusWord_eq, State.complete_busy]
  obtain ⟨outcome, calls⟩ := r
  cases outcome with
  | ok ret =>
    rw [(published_complete s ret calls).status]
    exact statusWordOf_statusOk_mem ret.flag
  | error e =>
    rw [(raised_complete s e calls).status]
    exact statusWordOf_statusErr_mem (h e rfl)

theorem StepEffect.statusWord_mem {s t : State} (hs : s.statusWord ∈ reachableStatusWords) (h : StepEffect s t) :
    t.statusWord ∈ reachableStatusWords := by
  cases h with
  | quiet _ status snap =>
    rw [State.statusWord_eq, status, State.busy, snap]
    exact hs
  | writeIn => exact hs
  | accept w =>
    rw [State.statusWord_eq, State.accept_status, State.accept_busy]
    decide
  | reset =>
    rw [State.statusWord_eq, State.applyReset_status, State.applyReset_busy]
    decide
  | complete => exact State.complete_statusWord_mem s (coreRun_raises _ _)

/-- Settles O5. -/
theorem statusStaysInTheTable : Obligations.StatusStaysInTheTable := fun _ _ hs hstep =>
  step_keeps (p := fun s => s.statusWord ∈ reachableStatusWords) (fun _ _ h => h)
    (fun _ _ h heffect => heffect.statusWord_mem h) hs hstep

end Sys2Proof.Machine
end

section
/-! PROOFS, family 20_memory.md: the host's accesses (R51 to R55): which are refused, and what every other one reads
and writes. -/

namespace Sys2Proof.Machine

/-! ## Legal accesses -/

/-- The access errors of R55, in the rule's own terms. -/
theorem accessLegal_iff (off n : Nat) :
    accessLegal off n = true ↔
      (n = 1 ∨ n = 2 ∨ n = 4) ∧ n ∣ off ∧ off + n ≤ 0x400 ∧ (off < 0x014 → n = 4) := by
  have hregs : (off < 0x014 → n = 4) ↔ 0x014 ≤ off ∨ n = 4 := by rw [← not_lt, imp_iff_not_or]
  simp only [accessLegal, Bool.and_eq_true, Bool.or_eq_true, beq_iff_eq, decide_eq_true_iff, hregs,
    Nat.dvd_iff_mod_eq_zero, and_assoc, or_assoc]
  rfl

/-- A legal access that begins below a multiple of 4 ends there at the latest: it is aligned (R55). -/
theorem accessLegal_end {off n b : Nat} (h : accessLegal off n = true) (hb : 4 ∣ b) (hoff : off < b) :
    off + n ≤ b := by
  obtain ⟨hn, halign, -, -⟩ := (accessLegal_iff off n).mp h
  obtain rfl | rfl | rfl := hn <;> omega

theorem accessLegal_width {off n : Nat} (h : accessLegal off n = true) : n ≤ 4 := by
  obtain ⟨hn, -, -, -⟩ := (accessLegal_iff off n).mp h
  omega

/-- Each byte that a legal access from 0x014 on touches can be accessed alone. -/
theorem accessLegal_byte {off n k : Nat} (h : accessLegal off n = true) (hregs : 0x014 ≤ off) (hk : k < n) :
    accessLegal (off + k) 1 = true := by
  obtain ⟨-, -, hend, -⟩ := (accessLegal_iff off n).mp h
  exact (accessLegal_iff _ _).mpr ⟨.inl rfl, one_dvd _, by omega, by omega⟩

/-! ## Reads -/

theorem State.winRead_of_illegal {s : State} {off n : Nat} (h : accessLegal off n = false) : s.winRead off n = none := by
  rw [← Option.isNone_iff_eq_none, ← Option.not_isSome, s.winRead_isSome, h, Bool.not_false]

theorem State.winRead_of_legal (s : State) {off n : Nat} (h : accessLegal off n = true) :
    ∃ d, s.winRead off n = some d :=
  Option.isSome_iff_exists.mp ((s.winRead_isSome off n).trans h)

/-- From 0x014 on a read gives the bytes of the window, least significant first (R52, R53). -/
theorem State.winRead_window (s : State) {off n : Nat} (h : accessLegal off n = true) (hregs : 0x014 ≤ off) :
    s.winRead off n = some (BitVec.ofNat 32 (leNat ((List.range n).map fun k => s.windowByte (off + k)))) := by
  unfold State.winRead
  rw [if_pos h]
  split
  case h_6 => rfl
  all_goals omega

/-- `le(B)` as the sum that R13 writes. -/
theorem leNat_map_range (b : Nat → Byte) (n : Nat) :
    leNat ((List.range n).map b) = ((List.range n).map fun k => (b k).toNat * 256 ^ k).sum := by
  induction n generalizing b with
  | zero => rfl
  | succ n ih =>
    have htail := ih fun k => b (k + 1)
    simp only [List.range_succ_eq_map, List.map_cons, List.map_map, Function.comp_def, leNat, List.sum_cons] at htail ⊢
    rw [htail, ← List.sum_map_mul_left]
    simp only [pow_succ, pow_zero, mul_one, Nat.succ_eq_add_one]
    congr 3
    funext k
    ring

/-- The value that a read from 0x014 on gives is the sum of its bytes: four bytes fit the bus word (R53). -/
theorem State.winRead_window_toNat (s : State) {off n : Nat} (h : accessLegal off n = true) :
    (BitVec.ofNat 32 (leNat ((List.range n).map fun k => s.windowByte (off + k)))).toNat =
      ((List.range n).map fun k => (s.windowByte (off + k)).toNat * 256 ^ k).sum := by
  have hlt := leNat_lt ((List.range n).map fun k => s.windowByte (off + k))
  rw [List.length_map, List.length_range] at hlt
  have hle : (256 : Nat) ^ n ≤ 256 ^ 4 := Nat.pow_le_pow_right (by decide) (accessLegal_width h)
  rw [BitVec.toNat_ofNat, Nat.mod_eq_of_lt (by omega), leNat_map_range]

/-- Settles O18: the byte at each offset is `windowByte`. -/
theorem wideReadIsLittleEndian : Obligations.WideReadIsLittleEndian := by
  intro s off n hlegal hregs
  refine ⟨_, fun k => s.windowByte (off + k), s.winRead_window hlegal hregs, fun k hk => ⟨?_, rfl⟩,
    s.winRead_window_toNat hlegal⟩
  rw [s.winRead_window (accessLegal_byte hlegal hregs hk) (by omega)]
  simp [leNat, BitVec.ofNat_toNat]

/-- A read that touches neither IN nor OUT nor a register gives 0 (R51, R53). -/
theorem State.winRead_reserved (s : State) {off n : Nat} (h : accessLegal off n = true)
    (hoff : (0x014 ≤ off ∧ off < 0x100) ∨ 0x280 ≤ off) : s.winRead off n = some 0 := by
  have hzero : ∀ k ∈ List.range n, s.windowByte (off + k) = 0 := fun k hk => by
    have hk := List.mem_range.mp hk
    have hend : off < 0x100 → off + n ≤ 0x100 := accessLegal_end h (by decide)
    have hin : ¬ isIn (off + k) = true := by
      rw [isIn_iff]
      omega
    have hout : ¬ isOut (off + k) = true := by
      rw [isOut_iff]
      omega
    simp [State.windowByte, hin, hout]
  rw [s.winRead_window h (by omega), List.map_congr_left hzero, leNat_map_range]
  simp

/-! ## Writes -/

theorem State.winWrite_of_illegal {s : State} {off n v : Nat} (h : accessLegal off n = false) :
    s.winWrite off n v = none := by
  simp [State.winWrite, h]

/-- Every legal write of a value that fits goes on (R54). -/
theorem State.winWrite_of_legal (s : State) {off n v : Nat} (h : accessLegal off n = true) (hv : v < 256 ^ n) :
    ∃ t, s.winWrite off n v = some t := by
  simp [State.winWrite, h, hv]

/-- A write leaves the rest of the script to the steps that follow. -/
theorem State.winWrite_script {s t : State} {off n v : Nat} (h : s.winWrite off n v = some t) :
    t.script = s.script := by
  obtain ⟨-, -, hcases⟩ := State.winWrite_cases h
  obtain ⟨-, rfl⟩ | ⟨-, rfl⟩ | ⟨-, rfl⟩ | ⟨-, rfl⟩ | ⟨-, rfl⟩ | ⟨-, -, -, -, -, rfl⟩ := hcases
  · obtain ⟨-, hw⟩ | ⟨-, hw⟩ := s.writeCmd_cases (BitVec.ofNat 32 v)
    · rw [hw]
    · rw [hw, State.accept_script]
  all_goals rfl

/-- A write to IN replaces bytes of the memory and nothing else (R54). -/
theorem State.winWrite_in (s : State) {off n v : Nat} (h : accessLegal off n = true) (hv : v < 256 ^ n)
    (hin : 0x100 ≤ off ∧ off < 0x200) :
    s.winWrite off n v = some { s with mem := s.mem.writeRange off (bytesN n v) } := by
  obtain ⟨t, ht⟩ := s.winWrite_of_legal h hv
  obtain ⟨-, -, hcases⟩ := State.winWrite_cases ht
  obtain ⟨hoff, -⟩ | ⟨hoff, -⟩ | ⟨hoff, -⟩ | ⟨hoff, -⟩ | ⟨-, rfl⟩ | ⟨hnot, -⟩ := hcases
  case inr.inr.inr.inr.inl => exact ht
  case inr.inr.inr.inr.inr => exact absurd ((isIn_iff off).mpr hin) (by simp [hnot])
  all_goals omega

/-- A write to a read-only or reserved offset changes nothing (R51, R54). -/
theorem State.winWrite_ignored (s : State) {off n v : Nat} (h : accessLegal off n = true) (hv : v < 256 ^ n)
    (hoff : off = 0x004 ∨ (0x014 ≤ off ∧ off < 0x100) ∨ 0x200 ≤ off) : s.winWrite off n v = some s := by
  obtain ⟨t, ht⟩ := s.winWrite_of_legal h hv
  obtain ⟨-, -, hcases⟩ := State.winWrite_cases ht
  obtain ⟨hreg, -⟩ | ⟨hreg, -⟩ | ⟨hreg, -⟩ | ⟨hreg, -⟩ | ⟨hin, -⟩ | ⟨-, -, -, -, -, rfl⟩ := hcases
  case inr.inr.inr.inr.inl =>
    rw [isIn_iff] at hin
    omega
  case inr.inr.inr.inr.inr => exact ht
  all_goals omega

/-- Settles O19, from the two lemmas on ignored writes and reserved reads. -/
theorem readOnlyAndReservedIgnoreWrites : Obligations.ReadOnlyAndReservedIgnoreWrites := fun s _ _ _ hlegal =>
  ⟨fun hv hoff => s.winWrite_ignored hlegal hv hoff, fun hoff => s.winRead_reserved hlegal hoff⟩

/-! ## The steps of host accesses -/

theorem step_winRead_of_none {s : State} {off n : Nat} {es : List Event} (hs : s.script = .winRead off n :: es)
    (h : State.winRead { s with script := es } off n = none) : step s = .refused (.accessError off n) := by
  simp [step_cons hs, eventStep, h]

theorem step_winRead_of_some {s : State} {off n : Nat} {d : Word} {es : List Event}
    (hs : s.script = .winRead off n :: es) (h : State.winRead { s with script := es } off n = some d) :
    step s = .next { s with script := es, readData := some d } := by
  simp [step_cons hs, eventStep, h]

theorem step_winWrite_of_none {s : State} {off n v : Nat} {es : List Event} (hs : s.script = .winWrite off n v :: es)
    (h : State.winWrite { s with script := es } off n v = none) : step s = .refused (.accessError off n) := by
  simp [step_cons hs, eventStep, h]

theorem step_winWrite_of_some {s t : State} {off n v : Nat} {es : List Event}
    (hs : s.script = .winWrite off n v :: es) (h : State.winWrite { s with script := es } off n v = some t) :
    step s = .next t := by
  simp [step_cons hs, eventStep, h]

/-- Settles O17, by what a write of a range does to the memory. -/
theorem inWriteReplacesItsBytes : Obligations.InWriteReplacesItsBytes := by
  intro s off n v es hlegal hlow hhigh hv hscript
  have hwrite := State.winWrite_in { s with script := es } hlegal hv ⟨hlow, hhigh⟩
  refine ⟨_, step_winWrite_of_some hscript hwrite, fun a ha hn => ?_, fun a ha => ?_, rfl⟩
  · rw [Memory.read_writeRange, bytesN_length, if_pos ⟨ha, hn⟩, bytesN_getD, if_pos (by omega), BitVec.toNat_ofNat]
  · rw [Memory.read_writeRange, bytesN_length, if_neg (by omega)]

/-- Settles O22: the condition of R55 is `accessLegal`, on which both accesses turn. -/
theorem badAccessIsRefused : Obligations.BadAccessIsRefused := by
  intro s off n v es
  rw [← accessLegal_iff]
  constructor
  · intro hbad
    have hillegal := Bool.eq_false_iff.mpr hbad
    exact ⟨fun hs => step_winRead_of_none hs (State.winRead_of_illegal hillegal),
      fun hs => step_winWrite_of_none hs (State.winWrite_of_illegal hillegal)⟩
  · intro hlegal
    constructor
    · intro hs
      obtain ⟨d, hd⟩ := s.winRead_of_legal hlegal
      exact ⟨d, hd, step_winRead_of_some hs hd⟩
    · intro hs hv
      obtain ⟨t, ht⟩ := State.winWrite_of_legal { s with script := es } hlegal hv
      exact ⟨t, step_winWrite_of_some hs ht, State.winWrite_script ht⟩

/-! ## What stops the machine -/

/-- CORE's own step always goes on (R221, R223). -/
theorem coreStep_next (s : State) : ∃ t, coreStep s = .next t := by
  obtain ⟨-, h⟩ | ⟨r, -, h⟩ := coreStep_cases s
  · exact ⟨s, h⟩
  · exact ⟨s.complete r, h⟩

/-- Without a command in flight `exec` has no step (R221; log entry 10). -/
theorem exec_of_no_snap (i : Instr) {s : State} (h : s.snap = none) : exec i s = .fault .noCommandInFlight := by
  rw [exec_eq, runCommand, h]

/-- A step stops only on the access at the head of the script (R55; log entry 9). -/
theorem step_next_or_accessError (s : State) :
    (∃ t, step s = .next t) ∨ ∃ off n es, step s = .refused (.accessError off n)
      ∧ (s.script = .winRead off n :: es ∨ ∃ v, s.script = .winWrite off n v :: es) := by
  cases hs : s.script with
  | nil =>
    rw [step_nil hs]
    exact .inl (coreStep_next s)
  | cons e es =>
    cases e with
    | winRead off n =>
      cases hr : State.winRead { s with script := es } off n with
      | none => exact .inr ⟨off, n, es, step_winRead_of_none hs hr, .inl rfl⟩
      | some d => exact .inl ⟨_, step_winRead_of_some hs hr⟩
    | winWrite off n v =>
      cases hw : State.winWrite { s with script := es } off n v with
      | none => exact .inr ⟨off, n, es, step_winWrite_of_none hs hw, .inr ⟨v, rfl⟩⟩
      | some t => exact .inl ⟨t, step_winWrite_of_some hs hw⟩
    | rst => exact .inl ⟨_, step_cons hs⟩
    | core =>
      rw [step_cons hs]
      exact .inl (coreStep_next _)

/-- Settles O10, by the event at the head of the script. -/
theorem onlyAccessErrorsStopTheMachine : Obligations.OnlyAccessErrorsStopTheMachine :=
  ⟨step_next_or_accessError, fun i _ _ hsn => ⟨_, exec_of_snap i hsn⟩, fun i _ h => exec_of_no_snap i h⟩

end Sys2Proof.Machine
end

section
/-! PROOFS, family 20_memory.md: the messages at the XOF port (R62, 45_protocol.md R200). -/

namespace Sys2Proof.Machine

/-! ## Encodings -/

/-- `pt_encode` is the affine y with the sign bit of x on top (R170). -/
theorem ptEncode_eq_ok {p : Point} {e : List Byte} :
    ptEncode p = .ok e ↔ ∃ a, ptAffine p = .ok a ∧ e = (f2Bytes a.y).modify 31 (withSignBit (xSign a.x)) := by
  unfold ptEncode
  cases ptAffine p <;> simp [Bind.bind, Except.bind, Pure.pure, Except.pure, eq_comm]

theorem ptEncode_length {p : Point} {e : List Byte} (h : ptEncode p = .ok e) : e.length = 32 := by
  obtain ⟨a, -, rfl⟩ := ptEncode_eq_ok.mp h
  rw [List.length_modify, f2Bytes_length]

/-! ## STATUS after Complete tells the outcome -/

theorem State.complete_err_false {s : State} {r : CmdRun} (h : (s.complete r).status.err = false) :
    ∃ ret, r.outcome = .ok ret := by
  obtain ⟨outcome, calls⟩ := r
  cases outcome with
  | ok ret => exact ⟨ret, rfl⟩
  | error e => simp [(raised_complete s e calls).status] at h

/-- Only E_INVALID_LENGTH has the code 2 (R231). -/
theorem State.complete_errCode_two {s : State} {r : CmdRun} (h : (s.complete r).status.errCode = 2) :
    r.outcome = .error .invalidLength := by
  obtain ⟨outcome, calls⟩ := r
  cases outcome with
  | ok ret => simp [(published_complete s ret calls).status] at h
  | error e =>
    rw [(raised_complete s e calls).status] at h
    cases e
    case invalidLength => rfl
    all_goals exact absurd h (by decide)

/-! ## The messages of each command -/

/-- The XOF port is left alone by every command but three (R62). -/
theorem runOf_xofCalls {i : Instr} (hk : i ≠ .keygen) (hs : i ≠ .sign) (hv : i ≠ .verify) (sn : Snap) :
    (runOf i sn).xofCalls = [] := by
  cases i
  case keygen => exact absurd rfl hk
  case sign => exact absurd rfl hs
  case verify => exact absurd rfl hv
  all_goals rfl

/-- KEYGEN by its length register (R201). -/
theorem keygenCmd_of_length {cfg : Config} {sn : Snap} (h : sn.len0.toNat = 32) :
    keygenCmd cfg sn = keygenFrom cfg (slice sn.bytes 0 32) := by
  simp [keygenCmd, Snap.bytesOperand, h]

theorem keygenCmd_of_bad_length {cfg : Config} {sn : Snap} (h : sn.len0.toNat ≠ 32) :
    keygenCmd cfg sn = noCalls (.error .invalidLength) := by
  simp [keygenCmd, Snap.bytesOperand, h]

/-- KEYGEN raises what `pt_encode` raises (R201). -/
theorem keygenFrom_ne_invalidLength (cfg : Config) (subSeed : List Byte) :
    (keygenFrom cfg subSeed).outcome ≠ .error .invalidLength := by
  have hraises : RaisesOnly [3] (keygenFrom cfg subSeed).outcome := (ptEncode_raises _).bind fun _ _ => .ok _
  exact fun h => absurd (hraises _ h) (by decide)

/-- KEYGEN that ends in Ok has presented one message of 32 bytes (R201). -/
theorem keygenCmd_xofCalls {cfg : Config} {sn : Snap} {ret : CmdReturn} (h : (keygenCmd cfg sn).outcome = .ok ret) :
    (keygenCmd cfg sn).xofCalls.map List.length = [32] := by
  by_cases hlen : sn.len0.toNat = 32
  · rw [keygenCmd_of_length hlen]
    simp [keygenFrom]
  · rw [keygenCmd_of_bad_length hlen] at h
    cases h

/-- SIGN by its three length registers (R203). -/
theorem signCmd_of_lengths {cfg : Config} {sn : Snap}
    (h : sn.len0.toNat = 32 ∧ sn.len1.toNat = 32 ∧ sn.len2.toNat = 32) :
    signCmd cfg sn = signWith cfg (slice sn.bytes 0 32) (slice sn.bytes 32 32) (slice sn.bytes 64 32) := by
  simp [signCmd, Snap.bytesOperand, h]

theorem signCmd_of_bad_lengths {cfg : Config} {sn : Snap}
    (h : ¬(sn.len0.toNat = 32 ∧ sn.len1.toNat = 32 ∧ sn.len2.toNat = 32)) :
    signCmd cfg sn = noCalls (.error .invalidLength) := by
  unfold signCmd
  split
  · next h0 h1 h2 =>
    simp only [Snap.bytesOperand_eq_some] at h0 h1 h2
    exact absurd ⟨h0.1, h1.1, h2.1⟩ h
  · rfl

theorem signWith_ne_invalidLength (cfg : Config) (subSeed pk md : List Byte) :
    (signWith cfg subSeed pk md).outcome ≠ .error .invalidLength := fun h =>
  absurd (signWith_raises cfg subSeed pk md _ h) (by decide)

/-- What SIGN hashes for its nonce: H1[32:64] ‖ messageDigest (R203). -/
def signNonceInput (cfg : Config) (subSeed md : List Byte) : List Byte := slice (hash64 cfg subSeed) 32 32 ++ md

@[simp] theorem signNonceInput_length (cfg : Config) (subSeed md : List Byte) :
    (signNonceInput cfg subSeed md).length = 32 + md.length := by
  simp [signNonceInput]

/-- SIGN's nonce r (R203). -/
def signNonce (cfg : Config) (subSeed md : List Byte) : Nat :=
  leNat (slice (hash64 cfg (signNonceInput cfg subSeed md)) 0 32) % cfg.q

/-- SIGN by the encoding of r·G (R203). -/
theorem signWith_of_encode {cfg : Config} {subSeed md renc : List Byte} (pk : List Byte)
    (h : ptEncode (ptSmulBase cfg (signNonce cfg subSeed md)) = .ok renc) :
    signWith cfg subSeed pk md =
      { outcome := .ok
          { out := signFrom cfg (hash64 cfg subSeed) (hash64 cfg (signNonceInput cfg subSeed md)) renc pk md
            flag := false }
        xofCalls := [subSeed, signNonceInput cfg subSeed md, transcript renc pk md] } := by
  unfold signWith
  dsimp only
  split
  · next e he => cases h.symm.trans he
  · next renc' hrenc =>
    cases h.symm.trans hrenc
    rfl

theorem signWith_of_encode_error {cfg : Config} {subSeed md : List Byte} {e : ErrCode} (pk : List Byte)
    (h : ptEncode (ptSmulBase cfg (signNonce cfg subSeed md)) = .error e) :
    signWith cfg subSeed pk md = { outcome := .error e, xofCalls := [subSeed, signNonceInput cfg subSeed md] } := by
  unfold signWith
  dsimp only
  split
  · next e' he =>
    cases h.symm.trans he
    rfl
  · next renc hrenc => cases h.symm.trans hrenc

/-- A SIGN that ends in Ok has presented three messages (R203). -/
theorem signWith_xofCalls {cfg : Config} {subSeed pk md : List Byte} {ret : CmdReturn}
    (h : (signWith cfg subSeed pk md).outcome = .ok ret) :
    (signWith cfg subSeed pk md).xofCalls.map List.length
      = [subSeed.length, 32 + md.length, 32 + pk.length + md.length] := by
  cases henc : ptEncode (ptSmulBase cfg (signNonce cfg subSeed md)) with
  | error e =>
    rw [signWith_of_encode_error pk henc] at h
    cases h
  | ok renc =>
    rw [signWith_of_encode pk henc]
    simp [transcript, ptEncode_length henc, Nat.add_assoc]

/-- SIGN that ends in Ok has presented three messages, of 32, 64 and 96 bytes (R203). -/
theorem signCmd_xofCalls {cfg : Config} {sn : Snap} {ret : CmdReturn} (h : (signCmd cfg sn).outcome = .ok ret) :
    (signCmd cfg sn).xofCalls.map List.length = [32, 64, 96] := by
  by_cases hlens : sn.len0.toNat = 32 ∧ sn.len1.toNat = 32 ∧ sn.len2.toNat = 32
  · rw [signCmd_of_lengths hlens] at h ⊢
    rw [signWith_xofCalls h]
    simp
  · rw [signCmd_of_bad_lengths hlens] at h
    cases h

/-- VERIFY presents nothing, or the transcript of its operands (R205). -/
theorem verifyWith_xofCalls (cfg : Config) (pk md sig : List Byte) :
    (verifyWith cfg pk md sig).xofCalls = []
      ∨ (verifyWith cfg pk md sig).xofCalls = [transcript (slice sig 0 32) pk md] := by
  unfold verifyWith
  split
  · exact .inl rfl
  · split
    · exact .inl rfl
    · split
      · exact .inl rfl
      · exact .inr rfl

theorem verifyCmd_xofCalls (cfg : Config) (sn : Snap) :
    (verifyCmd cfg sn).xofCalls = [] ∨ (verifyCmd cfg sn).xofCalls.map List.length = [96] := by
  unfold verifyCmd
  split
  · next pk md sig hpk hmd _ =>
    obtain ⟨-, rfl⟩ := Snap.bytesOperand_eq_some.mp hpk
    obtain ⟨-, rfl⟩ := Snap.bytesOperand_eq_some.mp hmd
    refine (verifyWith_xofCalls cfg _ _ sig).imp_right fun h => ?_
    simp [h, transcript]
  · exact .inl rfl

/-- A command that ends in E_INVALID_LENGTH has presented nothing: the lengths come first (R201, R203). -/
theorem runOf_xofCalls_of_invalidLength {i : Instr} {sn : Snap} (h : (runOf i sn).outcome = .error .invalidLength) :
    (runOf i sn).xofCalls = [] := by
  by_cases hk : i = .keygen
  · subst hk
    by_cases hlen : sn.len0.toNat = 32
    · rw [runOf, keygenCmd_of_length hlen] at h
      exact absurd h (keygenFrom_ne_invalidLength _ _)
    · rw [runOf, keygenCmd_of_bad_length hlen]
      rfl
  by_cases hs : i = .sign
  · subst hs
    by_cases hlens : sn.len0.toNat = 32 ∧ sn.len1.toNat = 32 ∧ sn.len2.toNat = 32
    · rw [runOf, signCmd_of_lengths hlens] at h
      exact absurd h (signWith_ne_invalidLength _ _ _ _)
    · rw [runOf, signCmd_of_bad_lengths hlens]
      rfl
  by_cases hv : i = .verify
  · subst hv
    exact absurd (runOf_raises .verify sn _ h) (by decide)
  exact runOf_xofCalls hk hs hv sn

/-- Settles O25: Complete records the messages of the run, and STATUS tells how the run ended. -/
theorem xofPortIsUsedAsListed : Obligations.XofPortIsUsedAsListed := by
  intro i s t hexec
  obtain ⟨sn, -, rfl⟩ := exec_eq_next.mp hexec
  rw [State.complete_xofCalls]
  refine ⟨fun hk hs hv => runOf_xofCalls hk hs hv sn, ?_, ?_, ?_, ?_⟩
  · rintro rfl herr
    obtain ⟨ret, hret⟩ := State.complete_err_false herr
    exact keygenCmd_xofCalls hret
  · rintro rfl herr
    obtain ⟨ret, hret⟩ := State.complete_err_false herr
    exact signCmd_xofCalls hret
  · rintro rfl
    exact verifyCmd_xofCalls coreConfig sn
  · exact fun hcode => runOf_xofCalls_of_invalidLength (State.complete_errCode_two hcode)

end Sys2Proof.Machine
end

section
/-! PROOFS, family 20_memory.md: the group law of 42_point.md over any domain in which −1 is a square and d is none: the
adder and the doubler never meet a zero Z and stay on the curve (R140, R143 to R145). -/

namespace Sys2Proof.Machine

/-! ## The curve −x² + y² = 1 + d·x²·y² over a domain -/

section Curve

variable {R : Type*} [CommRing R]

/-- What makes the group law complete: −1 is a square and `d` is none. -/
structure CompleteCurve (d : R) : Prop where
  two_ne_zero : (2 : R) ≠ 0
  root : ∃ i : R, i * i = -1
  nonsquare : ∀ a b : R, d * (a * a) = b * b → a = 0

/-- An extended representative of a curve point (R140, R143). -/
structure IsExtendedPoint (d x y z t : R) : Prop where
  z_ne_zero : z ≠ 0
  segre : t * z = x * y
  curve : y * y - x * x = z * z + d * (t * t)

variable {d : R}

/-- (X² + Y²)² on the curve, without X and Y. -/
theorem IsExtendedPoint.sum_sq {x y z t : R} (p : IsExtendedPoint d x y z t) :
    (y * y + x * x) ^ 2 = (z * z + d * (t * t)) ^ 2 + 4 * (t * z) ^ 2 := by
  linear_combination (y * y - x * x + z * z + d * (t * t)) * p.curve - 4 * (t * z + x * y) * p.segre

variable [IsDomain R]

/-- The denominators of the addition law are no zeros: d·T₁·T₂ = ε·Z₁·Z₂ with ε = ±1 would make d a square (R144). -/
theorem CompleteCurve.denominator_ne_zero (hd : CompleteCurve d) {ε x₁ y₁ z₁ t₁ x₂ y₂ z₂ t₂ : R} (hε : ε * ε = 1)
    (p : IsExtendedPoint d x₁ y₁ z₁ t₁) (q : IsExtendedPoint d x₂ y₂ z₂ t₂) : d * (t₁ * t₂) ≠ ε * (z₁ * z₂) := by
  intro h
  obtain ⟨i, hi⟩ := hd.root
  have hε0 : ε ≠ 0 := fun h0 => by simp [h0] at hε
  have htt : d * (t₁ * t₂) ≠ 0 := by
    rw [h]
    exact mul_ne_zero hε0 (mul_ne_zero p.z_ne_zero q.z_ne_zero)
  obtain ⟨ht₁, ht₂⟩ := mul_ne_zero_iff.mp (right_ne_zero_of_mul htt)
  have hsquare : ∀ j : R, j * j = -1 →
      d * ((t₁ * (j * x₂ + y₂)) * (t₁ * (j * x₂ + y₂))) = (z₂ * (j * x₁ + ε * y₁)) * (z₂ * (j * x₁ + ε * y₁)) := by
    intro j hj
    linear_combination (d * t₁ ^ 2 * x₂ ^ 2 - z₂ ^ 2 * x₁ ^ 2) * hj
      + (z₁ ^ 2 * z₂ ^ 2 - z₂ ^ 2 * y₁ ^ 2) * hε
      + d * t₁ ^ 2 * q.curve - 2 * j * d * t₁ ^ 2 * q.segre
      - z₂ ^ 2 * p.curve + 2 * j * ε * z₂ ^ 2 * p.segre
      + (d * (t₁ * t₂) + ε * (z₁ * z₂) + 2 * j * t₁ * z₂) * h
  have hsum : ∀ j : R, j * j = -1 → j * x₂ + y₂ = 0 := fun j hj =>
    (mul_eq_zero.mp (hd.nonsquare _ _ (hsquare j hj))).resolve_left ht₁
  have hplus := hsum i hi
  have hminus := hsum (-i) (by rw [neg_mul_neg, hi])
  have hy : y₂ = 0 := by
    have h2 : 2 * y₂ = 0 := by linear_combination hplus + hminus
    exact (mul_eq_zero.mp h2).resolve_left hd.two_ne_zero
  have hzero : t₂ * z₂ = 0 := by rw [q.segre, hy, mul_zero]
  exact mul_ne_zero ht₂ q.z_ne_zero hzero

/-- The last lines of R144 and R145: X = EF, Y = GH, Z = FG, T = EH. -/
theorem IsExtendedPoint.of_efgh {e f g h : R} (hf : f ≠ 0) (hg : g ≠ 0)
    (hcurve : g * h * (g * h) - e * f * (e * f) = f * g * (f * g) + d * (e * h * (e * h))) :
    IsExtendedPoint d (e * f) (g * h) (f * g) (e * h) where
  z_ne_zero := mul_ne_zero hf hg
  segre := by ring
  curve := hcurve

/-- The addition law is complete (R140, R144). -/
theorem IsExtendedPoint.add (hd : CompleteCurve d) {x₁ y₁ z₁ t₁ x₂ y₂ z₂ t₂ e f g h : R}
    (p : IsExtendedPoint d x₁ y₁ z₁ t₁) (q : IsExtendedPoint d x₂ y₂ z₂ t₂)
    (he : e = 2 * (x₁ * y₂ + y₁ * x₂)) (hf : f = 2 * (z₁ * z₂ - d * (t₁ * t₂)))
    (hg : g = 2 * (z₁ * z₂ + d * (t₁ * t₂))) (hh : h = 2 * (y₁ * y₂ + x₁ * x₂)) :
    IsExtendedPoint d (e * f) (g * h) (f * g) (e * h) := by
  have hminus : d * (t₁ * t₂) ≠ z₁ * z₂ := by
    simpa using hd.denominator_ne_zero (ε := 1) (by ring) p q
  have hplus : d * (t₁ * t₂) ≠ -(z₁ * z₂) := by
    simpa using hd.denominator_ne_zero (ε := -1) (by ring) p q
  have hdiff : (y₁ * y₂ + x₁ * x₂) ^ 2 - (x₁ * y₂ + y₁ * x₂) ^ 2 =
      (z₁ * z₁ + d * (t₁ * t₁)) * (z₂ * z₂ + d * (t₂ * t₂)) := by
    rw [← p.curve, ← q.curve]
    ring
  have hsum : (y₁ * y₂ + x₁ * x₂) ^ 2 + (x₁ * y₂ + y₁ * x₂) ^ 2 =
      (y₁ * y₁ + x₁ * x₁) * (y₂ * y₂ + x₂ * x₂) + 4 * ((t₁ * z₁) * (t₂ * z₂)) := by
    rw [p.segre, q.segre]
    ring
  have hprod : (x₁ * y₂ + y₁ * x₂) * (y₁ * y₂ + x₁ * x₂) =
      t₁ * z₁ * (y₂ * y₂ + x₂ * x₂) + t₂ * z₂ * (y₁ * y₁ + x₁ * x₁) := by
    rw [p.segre, q.segre]
    ring
  subst he hf hg hh
  refine .of_efgh (mul_ne_zero hd.two_ne_zero (sub_ne_zero.mpr hminus.symm))
    (mul_ne_zero hd.two_ne_zero fun h0 => hplus (by linear_combination h0)) ?_
  linear_combination 16 * (((z₁ * z₂) ^ 2 + (d * (t₁ * t₂)) ^ 2) * hdiff + 2 * (z₁ * z₂) * (d * (t₁ * t₂)) * hsum
    - d * ((x₁ * y₂ + y₁ * x₂) * (y₁ * y₂ + x₁ * x₂)
        + t₁ * z₁ * (y₂ * y₂ + x₂ * x₂) + t₂ * z₂ * (y₁ * y₁ + x₁ * x₁)) * hprod
    - d * (t₂ * z₂) ^ 2 * p.sum_sq - d * (t₁ * z₁) ^ 2 * q.sum_sq)

/-- The doubling law is complete (R140, R145). -/
theorem IsExtendedPoint.double (hd : CompleteCurve d) {x y z t e f g h : R} (p : IsExtendedPoint d x y z t)
    (he : e = 2 * (x * y)) (hg : g = y * y - x * x) (hf : f = g - 2 * (z * z)) (hh : h = -(y * y + x * x)) :
    IsExtendedPoint d (e * f) (g * h) (f * g) (e * h) := by
  obtain ⟨i, hi⟩ := hd.root
  have hg' : g = z * z + d * (t * t) := hg.trans p.curve
  have hf' : f = d * (t * t) - z * z := by linear_combination hf + hg'
  have ht : ∀ b : R, d * (t * t) = b * b → b = 0 := fun b hb => by
    rw [hd.nonsquare t b hb] at hb
    simpa using hb
  have hf0 : f ≠ 0 := fun h0 => p.z_ne_zero (ht z (by linear_combination h0 - hf'))
  have hg0 : g ≠ 0 := fun h0 => by
    have hiz : i * z = 0 := ht (i * z) (by linear_combination h0 - hg' - z ^ 2 * hi)
    have hi0 : i ≠ 0 := fun h0 => by simp [h0] at hi
    exact mul_ne_zero hi0 p.z_ne_zero hiz
  have he' : e = 2 * (t * z) := by rw [he, p.segre]
  have hh' : h ^ 2 = g ^ 2 + 4 * (t * z) ^ 2 := by
    rw [hh, hg', ← p.sum_sq]
    ring
  refine .of_efgh hf0 hg0 ?_
  rw [he', hf']
  rw [hg'] at hh' ⊢
  linear_combination ((z * z + d * (t * t)) ^ 2 - 4 * d * (t * z) ^ 2) * hh'

end Curve

end Sys2Proof.Machine
end

section
/-! PROOFS, family 20_memory.md: valid points of the supplied curve stay valid (R140), and so KEYGEN and SIGN complete
with well-formed results (R201, R203, R174, R175; U17). -/

namespace Sys2Proof.Machine

/-! ## The supplied curve is complete -/

theorem norm_quad (x : Fp2) :
    QuadraticAlgebra.norm (quad x) = residue x.re * residue x.re + residue x.im * residue x.im := by
  simp [QuadraticAlgebra.norm_def, quad]

/-- The norm re² + im² (R125) vanishes at 0 only: −1 is no square modulo P. -/
theorem norm_quadP_eq_zero {x : QuadP} (h : QuadraticAlgebra.norm x = 0) : x = 0 := by
  have : Fact P.Prime := ⟨P_prime⟩
  have : Fact (∀ r : ZMod P, r ^ 2 ≠ -1 + 0 * r) := ⟨fun r hr =>
    ZMod.mod_four_ne_three_of_sq_eq_neg_one (by simpa using hr) (by decide)⟩
  exact QuadraticAlgebra.norm_eq_zero_iff_eq_zero.mp h

/-- The norm is multiplicative, so that Fp2 has no zero divisors. -/
theorem quadP_noZeroDivisors : NoZeroDivisors QuadP where
  eq_zero_or_eq_zero_of_mul_eq_zero {x y} h := by
    have : Fact P.Prime := ⟨P_prime⟩
    have hnorm : QuadraticAlgebra.norm x * QuadraticAlgebra.norm y = 0 := by
      rw [← map_mul, h, QuadraticAlgebra.norm_zero]
    exact (mul_eq_zero.mp hnorm).imp norm_quadP_eq_zero norm_quadP_eq_zero

theorem quadP_nontrivial : Nontrivial QuadP where
  exists_pair_ne := ⟨0, 1, fun h => absurd (congrArg QuadraticAlgebra.re h) (by decide)⟩

theorem quadP_isDomain : IsDomain QuadP :=
  have := quadP_noZeroDivisors
  have := quadP_nontrivial
  NoZeroDivisors.to_isDomain QuadP

/-- The norm of the supplied D is no square modulo P (GK5). -/
theorem norm_curveD_nonsquare : ¬ IsSquare (QuadraticAlgebra.norm (quad curveD)) := by
  have hnorm : QuadraticAlgebra.norm (quad curveD) =
      ((0xE40000000000000142 ^ 2 + 0x5E472F846657E0FCB3821488F1FC0C8D ^ 2 : Int) : ZMod P) := by
    rw [norm_quad]
    simp only [curveD, residue_ofNat]
    push_cast
    ring
  rw [hnorm]
  refine ZMod.nonsquare_of_jacobiSym_eq_neg_one ?_
  unfold P
  norm_num

/-- The supplied D is no square of Fp2 (GK5): its norm is none of Fp. -/
theorem curveD_complete : CompleteCurve (quad curveD) where
  two_ne_zero h := absurd (congrArg QuadraticAlgebra.re h) (by decide)
  root := ⟨⟨0, 1⟩, by ext <;> simp [QuadraticAlgebra.re_one, QuadraticAlgebra.im_one]⟩
  nonsquare a b h := by
    have : Fact P.Prime := ⟨P_prime⟩
    have hnorm := congrArg QuadraticAlgebra.norm h
    simp only [map_mul] at hnorm
    by_contra ha
    have ha0 : QuadraticAlgebra.norm a ≠ 0 := mt norm_quadP_eq_zero ha
    refine norm_curveD_nonsquare ⟨QuadraticAlgebra.norm b / QuadraticAlgebra.norm a, ?_⟩
    field_simp
    linear_combination hnorm

/-! ## Valid points -/

@[simp] theorem quad_f2Zero : quad f2Zero = 0 := by
  ext <;> simp [quad, f2Zero]

theorem quad_ne_zero_iff {x : Fp2} : quad x ≠ 0 ↔ x ≠ f2Zero := by
  rw [← quad_f2Zero, quad_injective.ne_iff]

/-- A valid point of the model is one of the curve over the ring that Fp2 stands for. -/
theorem validPoint_iff {cfg : Config} {p : Point} :
    ValidPoint cfg p ↔ IsExtendedPoint (quad cfg.d) (quad p.x) (quad p.y) (quad p.z) (quad p.t) := by
  constructor
  · intro h
    have hsegre := congrArg quad h.segre
    have hcurve := congrArg quad h.curve
    simp only [quad_f2Mul, quad_f2Sub, quad_f2Add, quad_f2Sqr] at hsegre hcurve
    exact ⟨quad_ne_zero_iff.mpr h.zNonzero, hsegre, hcurve⟩
  · intro h
    exact ⟨quad_ne_zero_iff.mp h.z_ne_zero, quad_injective (by simpa using h.segre),
      quad_injective (by simpa using h.curve)⟩

theorem ValidPoint.add {p q : Point} (hp : ValidPoint coreConfig p) (hq : ValidPoint coreConfig q) :
    ValidPoint coreConfig (ptAdd coreConfig p q) := by
  have := quadP_isDomain
  rw [validPoint_iff] at hp hq ⊢
  simp only [ptAdd, quad_f2Mul]
  refine IsExtendedPoint.add curveD_complete hp hq ?_ ?_ ?_ ?_ <;>
    simp only [quad_f2Mul, quad_f2Sub, quad_f2Add, coreConfig] <;> ring

theorem ValidPoint.double {p : Point} (hp : ValidPoint coreConfig p) : ValidPoint coreConfig (ptDbl p) := by
  have := quadP_isDomain
  rw [validPoint_iff] at hp ⊢
  simp only [ptDbl, quad_f2Mul]
  refine IsExtendedPoint.double curveD_complete hp ?_ ?_ ?_ ?_ <;>
    simp only [quad_f2Sub, quad_f2Add, quad_f2Sqr, quad_f2Neg] <;> ring

theorem f2One_ne_f2Zero : f2One ≠ f2Zero := by decide

/-- A pair on the curve is a valid point (R141, R143). -/
theorem validPoint_ptFromAffine {cfg : Config} {a : Affine} (h : ptOnCurve cfg a = true) :
    ValidPoint cfg (ptFromAffine a) := by
  have hcurve := congrArg quad (beq_iff_eq.mp h)
  simp only [quad_f2Add, quad_f2Sub, quad_f2Mul, quad_f2Sqr, quad_f2One] at hcurve
  refine validPoint_iff.mpr ⟨quad_ne_zero_iff.mpr f2One_ne_f2Zero, ?_, ?_⟩
  · simp [ptFromAffine]
  · simp only [ptFromAffine, quad_f2One, quad_f2Mul]
    linear_combination hcurve

theorem validPoint_basePoint : ValidPoint coreConfig (basePoint coreConfig) :=
  validPoint_ptFromAffine basePoint_onCurve

theorem validPoint_ptId (cfg : Config) : ValidPoint cfg ptId := by
  refine validPoint_iff.mpr ⟨quad_ne_zero_iff.mpr f2One_ne_f2Zero, ?_, ?_⟩ <;> simp [ptId]

/-- Double-and-add stays among the valid points (R149). -/
theorem ValidPoint.smulLoop (n : Nat) {r a : Point} (k : Nat) (hr : ValidPoint coreConfig r)
    (ha : ValidPoint coreConfig a) : ValidPoint coreConfig (ptSmulLoop coreConfig n r a k) := by
  induction n generalizing r a k with
  | zero => exact hr
  | succ n ih =>
    rw [ptSmulLoop]
    split
    · exact hr
    · refine ih _ ?_ ha.double
      split
      · exact hr.add ha
      · exact hr

/-- No multiple of the base point has Z = (0, 0) (U17). -/
theorem validPoint_ptSmulBase (k : Nat) : ValidPoint coreConfig (ptSmulBase coreConfig k) :=
  .smulLoop _ k (validPoint_ptId coreConfig) validPoint_basePoint

/-! ## Encodings of valid points -/

/-- `f2_inv` answers for every nonzero operand (R125). -/
theorem f2Inv_of_ne_zero {x : Fp2} (h : x ≠ f2Zero) : ∃ y, f2Inv x = .ok y := by
  have hnorm : (fpAdd (fpSqr x.re) (fpSqr x.im)).val ≠ 0 := by
    rw [Ne, ← residue_eq_zero_iff]
    refine mt (fun h0 => norm_quadP_eq_zero ?_) (quad_ne_zero_iff.mpr h)
    simpa [norm_quad] using h0
  exact ⟨_, by rw [f2Inv, fpInv_of_ne_zero hnorm]; rfl⟩

/-- `pt_encode` answers for every valid point (R170). -/
theorem ValidPoint.encode {cfg : Config} {p : Point} (h : ValidPoint cfg p) : ∃ e, ptEncode p = .ok e := by
  obtain ⟨zi, hzi⟩ := f2Inv_of_ne_zero h.zNonzero
  exact ⟨_, ptEncode_eq_ok.mpr ⟨_, by rw [ptAffine, hzi]; rfl, rfl⟩⟩

/-- Byte `k` of `bytes_n(v)` is bounded by what `v` leaves for it. -/
theorem bytesN_getD_lt {n v k b : Nat} (h : v < 256 ^ k * b) (hk : k < n) :
    ((bytesN n v).getD k 0).toNat < b := by
  rw [bytesN_getD, if_pos hk, BitVec.toNat_ofNat]
  exact (Nat.mod_le _ _).trans_lt (Nat.div_lt_of_lt_mul h)

/-- Bit 7 of byte 15 of an encoding is 0: the real part of y is below 2^127 (R76, R174). -/
theorem ptEncode_byte15 {p : Point} {e : List Byte} (h : ptEncode p = .ok e) : (e.getD 15 0).toNat < 128 := by
  obtain ⟨a, -, rfl⟩ := ptEncode_eq_ok.mp h
  have hP : P < 256 ^ 15 * 128 := by decide
  have hre : ((bytesN 16 a.y.re.val).getD 15 0).toNat < 128 :=
    bytesN_getD_lt (a.y.re.isLt.trans hP) (by decide)
  rw [List.getD_eq_getElem?_getD, List.getElem?_modify_ne _ _ (by decide), f2Bytes,
    List.getElem?_append_left (by simp), ← List.getD_eq_getElem?_getD]
  exact hre

/-! ## KEYGEN and SIGN -/

/-- A command whose run ends in Ok completes with what the run returns (R221). -/
theorem completesOk_of_runOf {i : Instr} {s : State} {sn : Snap} {ret : CmdReturn} {calls : List (List Byte)}
    (hs : s.snap = some sn) (h : runOf i sn = { outcome := .ok ret, xofCalls := calls }) :
    CompletesOk i s ret.out ret.flag calls := by
  refine ⟨_, exec_of_snap i hs, ?_⟩
  rw [h]
  exact published_complete s ret calls

theorem keygen_completes {s : State} {sn : Snap} (hs : s.snap = some sn) (hlen : sn.len0.toNat = 32) :
    ∃ out calls, CompletesOk .keygen s out false calls ∧ out.length = 32 ∧ (out.getD 15 0).toNat < 128 := by
  obtain ⟨e, he⟩ := (validPoint_ptSmulBase
    (leNat (slice (hash64 coreConfig (slice sn.bytes 0 32)) 0 32) % coreConfig.q)).encode
  have hrun : runOf .keygen sn =
      { outcome := .ok { out := e, flag := false }, xofCalls := [slice sn.bytes 0 32] } := by
    rw [runOf, keygenCmd_of_length hlen, keygenFrom, he]
    rfl
  exact ⟨e, _, completesOk_of_runOf hs hrun, ptEncode_length he, ptEncode_byte15 he⟩

/-- A scalar result is below Q (R192), so that its top byte is 0x00 and the byte below it has bits 7:6 clear (R175). -/
theorem scSub_eq_bytesN (a b : List Byte) : ∃ v, v < 2 ^ 246 ∧ scSub coreConfig a b = bytesN 32 v := by
  refine ⟨_, ?_, rfl⟩
  have hpos : (0 : Int) < orderQ := by decide
  have hlt := Int.emod_lt_of_pos ((scInt a : Int) - scInt b) hpos
  have hnonneg := Int.emod_nonneg ((scInt a : Int) - scInt b) hpos.ne'
  have hq := orderQ_bounds.2
  show (((scInt a : Int) - scInt b) % orderQ).toNat < 2 ^ 246
  omega

/-- A signature is an encoding followed by a reduced scalar: it has the structure of R175. -/
theorem signFrom_structure {p : Point} {renc h1 h2 pk md : List Byte} (h : ptEncode p = .ok renc) :
    (signFrom coreConfig h1 h2 renc pk md).length = 64
      ∧ ((signFrom coreConfig h1 h2 renc pk md).getD 15 0).toNat < 128
      ∧ ((signFrom coreConfig h1 h2 renc pk md).getD 62 0).toNat < 64
      ∧ ((signFrom coreConfig h1 h2 renc pk md).getD 63 0).toNat = 0 := by
  have hlen := ptEncode_length h
  simp only [signFrom]
  obtain ⟨v, hv, hs⟩ := scSub_eq_bytesN (scReduce coreConfig (slice h2 0 32))
    (scMul coreConfig (scReduce coreConfig (slice h1 0 32))
      (scReduce coreConfig (slice (hash64 coreConfig (transcript renc pk md)) 0 32)))
  rw [hs, List.getD_append _ _ _ _ (by omega), List.getD_append_right _ _ _ _ (by omega),
    List.getD_append_right _ _ _ _ (by omega), hlen]
  refine ⟨by simp [hlen], ptEncode_byte15 h, bytesN_getD_lt (by omega) (by decide), ?_⟩
  exact Nat.lt_one_iff.mp (bytesN_getD_lt (by omega) (by decide))

theorem sign_completes {s : State} {sn : Snap} (hs : s.snap = some sn)
    (hlens : sn.len0.toNat = 32 ∧ sn.len1.toNat = 32 ∧ sn.len2.toNat = 32) :
    ∃ out calls, CompletesOk .sign s out false calls ∧ out.length = 64 ∧ (out.getD 15 0).toNat < 128
      ∧ (out.getD 62 0).toNat < 64 ∧ (out.getD 63 0).toNat = 0 := by
  obtain ⟨renc, hrenc⟩ := (validPoint_ptSmulBase
    (signNonce coreConfig (slice sn.bytes 0 32) (slice sn.bytes 64 32))).encode
  have hrun := (signCmd_of_lengths (cfg := coreConfig) hlens).trans (signWith_of_encode (slice sn.bytes 32 32) hrenc)
  exact ⟨_, _, completesOk_of_runOf (i := .sign) hs hrun, signFrom_structure hrenc⟩

/-- Settles O58: both commands encode a multiple of the base point, and every such multiple is a valid point. -/
theorem keygenAndSignAlwaysComplete : Obligations.KeygenAndSignAlwaysComplete := fun _ _ hs hlen0 =>
  ⟨keygen_completes hs hlen0, fun hlen1 hlen2 => sign_completes hs ⟨hlen0, hlen1, hlen2⟩⟩

end Sys2Proof.Machine
end

section
/-! PROOFS, family 30_encoding.md: decode and encode agree on command words, on their bytes in the window and on table
rows (R70, R71, R80, R81), and the sample words of R80. -/

namespace Sys2Proof.Laws.RoundTrip

/-- The round trip of all 36 commands, family by family (R80). -/
theorem roundTrip : (i : Instr) → Statement i
  | .nop => nop
  | .fpAdd => fpAdd | .fpSub => fpSub | .fpNeg => fpNeg | .fpMul => fpMul | .fpSqr => fpSqr | .fpDiv2 => fpDiv2
  | .fpInv => fpInv | .fpSqrt => fpSqrt | .fpCanon => fpCanon
  | .f2Add => f2Add | .f2Sub => f2Sub | .f2Neg => f2Neg | .f2Mul => f2Mul | .f2Sqr => f2Sqr | .f2Inv => f2Inv
  | .f2Sqrt => f2Sqrt
  | .ptAdd => ptAdd | .ptDbl => ptDbl | .ptAffine => ptAffine | .ptOncurve => ptOncurve | .ptSmul => ptSmul
  | .ptSmulb => ptSmulb | .ptSign => ptSign
  | .ptEnc => ptEnc | .ptDec => ptDec | .valPk => valPk | .valSig => valSig | .chkPk => chkPk | .chkSig => chkSig
  | .scRed => scRed | .scMul => scMul | .scSub => scSub
  | .keygen => keygen | .sign => sign | .verify => verify

end Sys2Proof.Laws.RoundTrip

namespace Sys2Proof.Machine

/-! ## Decode and encode -/

@[simp] theorem decode_encode (i : Instr) : decode (encode i) = .ok i := by
  obtain ⟨-, -, hdecode, -⟩ := Laws.RoundTrip.roundTrip i
  exact hdecode

theorem decodeBytes_encodeBytes (i : Instr) : decodeBytes (encodeBytes i) = .ok i := by
  obtain ⟨-, -, -, hbytes⟩ := Laws.RoundTrip.roundTrip i
  exact hbytes

/-- A word is a command exactly when its reserved bits are zero and its low byte is in the opcode map (R71). -/
theorem decode_eq_ok_iff_lookup {w : Word} {i : Instr} :
    decode w = .ok i ↔ w.extractLsb' 8 24 = 0 ∧ opcodeMap.lookup (w.extractLsb' 0 8) = some i := by
  unfold decode
  split
  case isTrue hrsv => exact iff_of_false (by simp) fun h => hrsv h.1
  case isFalse hrsv => cases opcodeMap.lookup (w.extractLsb' 0 8) <;> simp [not_not.mp hrsv]

/-- The command word of each row of the opcode map is its OPC, the reserved bits zero (R70, R80). -/
theorem encode_of_mem_opcodeMap : ∀ row ∈ opcodeMap, encode row.2 = row.1.setWidth 32 := by decide

/-- With the reserved bits zero a word is its low byte (R70). -/
theorem eq_opcode_of_reserved_zero {w : Word} (h : w.extractLsb' 8 24 = 0) : w = (w.extractLsb' 0 8).setWidth 32 := by
  have hrsv : w.toNat >>> 8 % 2 ^ 24 = 0 := congrArg BitVec.toNat h
  have hw := w.isLt
  apply BitVec.eq_of_toNat_eq
  rw [BitVec.toNat_setWidth, BitVec.extractLsb'_toNat]
  omega

/-- No other word decodes to a command than its own: the map is searched with the low byte, and the other bits are
zero (R71, R80). -/
theorem eq_encode_of_decode {w : Word} {i : Instr} (h : decode w = .ok i) : w = encode i := by
  obtain ⟨hrsv, hlookup⟩ := decode_eq_ok_iff_lookup.mp h
  obtain ⟨l₁, l₂, hmap, -⟩ := List.lookup_eq_some_iff.mp hlookup
  have hrow : (w.extractLsb' 0 8, i) ∈ opcodeMap := by simp [hmap]
  exact (eq_opcode_of_reserved_zero hrsv).trans (encode_of_mem_opcodeMap _ hrow).symm

theorem decode_eq_ok_iff_encode {w : Word} {i : Instr} : decode w = .ok i ↔ w = encode i :=
  ⟨eq_encode_of_decode, fun h => h ▸ decode_encode i⟩

/-- A table row of 32 bits is decoded by the bytes of its command word. -/
theorem decodeTableWord_encode (i : Instr) : decodeTableWord 32 (encode i).toNat = some i := by
  have hbytes : decodeBytes (bytesN 4 (encode i).toNat) = .ok i := decodeBytes_encodeBytes i
  rw [decodeTableWord, Nat.mod_eq_of_lt (encode i).isLt, hbytes]

/-- Settles O12. -/
theorem decodeAndEncodeAgree : Obligations.DecodeAndEncodeAgree :=
  ⟨fun _ _ => decode_eq_ok_iff_encode, fun i => ⟨decodeBytes_encodeBytes i, decodeTableWord_encode i⟩⟩

/-! ## Legal and illegal words -/

/-- The family ranges of R81 are the rows of the opcode map of R80. -/
theorem opcodeAssigned_eq_lookup (w : Word) :
    opcodeAssigned w = (opcodeMap.lookup (w.extractLsb' 0 8)).isSome := by
  unfold opcodeAssigned
  generalize w.extractLsb' 0 8 = opc
  revert opc
  decide

/-- The check of a command word is whether it decodes (R71). -/
theorem commandWordWf_iff {w : Word} : commandWordWf w = true ↔ ∃ i, decode w = .ok i := by
  simp [commandWordWf, reservedZero, opcodeAssigned_eq_lookup, decode_eq_ok_iff_lookup,
    Option.isSome_iff_exists]

theorem decode_error_of_not_commandWordWf {w : Word} (h : commandWordWf w = false) : ∃ d, decode w = .error d := by
  cases hd : decode w with
  | ok i => exact absurd (commandWordWf_iff.mpr ⟨i, hd⟩) (by simp [h])
  | error d => exact ⟨d, rfl⟩

/-- Settles O13: seven words are those of commands; one has a reserved bit set, and one an opcode not assigned. -/
theorem sampleWordsDecode : Obligations.SampleWordsDecode :=
  ⟨decode_encode .nop, decode_encode .fpMul, decode_encode .f2Sqrt, decode_encode .ptSign, decode_encode .ptDec,
    decode_encode .scSub, decode_encode .verify, rfl, rfl⟩

end Sys2Proof.Machine
end

section
/-! PROOFS, family 30_encoding.md: the host's write of a command word while idle, CORE's turn on an illegal word
(R71, R231), and the script of RUN (R82, R83). -/

namespace Sys2Proof.Machine

/-! ## The CMD write -/

/-- A 32-bit write at offset 0x000 is the CMD write (R24, R54). -/
theorem State.winWrite_cmd (s : State) (w : Word) : s.winWrite 0x000 4 w.toNat = some (s.writeCmd w) := by
  have hw : w.toNat < 4294967296 := w.isLt
  simp [State.winWrite, accessLegal, windowSize, hw]

/-- While idle the host's CMD write is Accept, whatever the word (R220). -/
theorem step_winWrite_cmd_of_idle {s : State} {w : Word} {es : List Event} (hidle : s.busy = false)
    (hs : s.script = .winWrite 0x000 4 w.toNat :: es) : step s = .next (State.accept { s with script := es } w) := by
  apply step_winWrite_of_some hs
  rw [State.winWrite_cmd, State.writeCmd, if_neg]
  exact Bool.eq_false_iff.mp hidle

/-! ## Illegal words -/

/-- CORE completes an illegal word with E_ILLEGAL_CMD (R71, R231). -/
theorem coreStep_raises_of_illegal {s : State} {d : DecodeError} (hbusy : s.busy = true)
    (hd : decode s.cmd = .error d) : ∃ t, coreStep s = .next t ∧ Raised s t 1 [] := by
  obtain ⟨sn, hsn⟩ := s.busy_iff_snap.mp hbusy
  refine ⟨_, coreStep_of_snap hsn, ?_⟩
  rw [coreRun_of_illegal hd]
  exact raised_complete s .illegalCmd []

/-- Settles O11: a word that passes the check decodes, to the command whose word it is; any other is accepted like
every word and completes with the error, at CORE's own step and so where the script gives CORE its turn. -/
theorem everyWordIsACommandOrIllegal : Obligations.EveryWordIsACommandOrIllegal := by
  intro w
  constructor
  · intro hwf
    obtain ⟨i, hi⟩ := commandWordWf_iff.mp hwf
    exact ⟨i, hi, eq_encode_of_decode hi⟩
  · intro hwf
    obtain ⟨d, hd⟩ := decode_error_of_not_commandWordWf hwf
    refine ⟨⟨d, hd⟩, fun s es hidle hs => ?_, fun s hbusy hcmd => ?_⟩
    · exact ⟨_, step_winWrite_cmd_of_idle hidle hs, rfl, rfl, fun k hk => Memory.setOut_read_out _ [] hk⟩
    · subst hcmd
      refine ⟨coreStep_raises_of_illegal hbusy hd, fun hs => ?_, fun es hs => ?_⟩
      · rw [step_nil hs]
        exact coreStep_raises_of_illegal hbusy hd
      · rw [step_cons hs]
        exact coreStep_raises_of_illegal (s := { s with script := es }) hbusy hd

/-! ## RUN -/

/-- CORE's turn in the script, with a command in flight, is Complete (R221; log entry 1). -/
theorem step_core_of_snap {s : State} {sn : Snap} {es : List Event} (hs : s.script = .core :: es)
    (hsnap : s.snap = some sn) : step s = .next (State.complete { s with script := es } (coreRun s.cmd sn)) := by
  rw [step_cons hs]
  exact coreStep_of_snap hsnap

/-- The host's read of STATUS takes the status word and changes nothing of CORE (R53). -/
theorem step_winRead_status {s : State} {es : List Event} (hs : s.script = .winRead 0x004 4 :: es) :
    step s = .next { s with script := es, readData := some s.statusWord } :=
  step_winRead_of_some hs rfl

/-- Complete sets DONE, whatever the outcome (R25, R221). -/
@[simp] theorem State.complete_done (s : State) (r : CmdRun) : (s.complete r).status.done = true := by
  cases h : r.outcome <;> simp [State.complete, h]

/-- A run of k + 1 steps is a step and a run of k. -/
theorem run_succ {M : Host.Core} {k : Nat} {s t : M.State} (h : M.step s = .next t) : M.run (k + 1) s = M.run k t := by
  simp only [Host.Core.run, h]

/-- WAIT with a command in flight: CORE completes, and the host reads the STATUS that Complete left (R82). -/
theorem run_waitLine {s : State} {es : List Event} (hbusy : s.busy = true) (hs : s.script = waitLine ++ es) :
    ∃ t, Host.Core.run core 2 s = .next t ∧ t.cmd = s.cmd ∧ t.busy = false ∧ t.status.done = true
      ∧ t.readData = some t.statusWord ∧ t.script = es := by
  obtain ⟨sn, hsn⟩ := s.busy_iff_snap.mp hbusy
  have hcomplete := step_core_of_snap hs hsn
  have hread := step_winRead_status
    (State.complete_script { s with script := .winRead 0x004 4 :: es } (coreRun s.cmd sn))
  exact ⟨_, (run_succ (M := core) hcomplete).trans (run_succ (M := core) hread), State.complete_cmd _ _,
    State.complete_busy _ _, State.complete_done _ _, rfl, rfl⟩

/-- Settles O9: Accept, then WAIT with the accepted command in flight (R83). -/
theorem runLineEndsWithDone : Obligations.RunLineEndsWithDone := by
  intro s i hidle hscript
  have haccept := step_winWrite_cmd_of_idle hidle hscript
  obtain ⟨t, hrun, hend⟩ :=
    run_waitLine (s := State.accept { s with script := waitLine } (encode i)) (es := []) rfl rfl
  exact ⟨t, (run_succ (M := core) haccept).trans hrun, hend⟩

end Sys2Proof.Machine
end

section
/-! PROOFS, family 40_fp.md: the Fp commands (R102 to R111) publish the integers of their rules, each found
from the residue class it stands for, and FP_SQRT finds a root whenever there is one. -/

namespace Sys2Proof.Machine

/-! ## From residue classes to plain integers -/

/-- An Fp value is the canonical representative of its residue class (R11, R14). -/
theorem Fp.val_eq_modP {a : Fp} {x : Int} (h : residue a = (x : ZMod P)) : a.val = modP x := by
  have hmod : (a.val : Int) % P = x % P :=
    (ZMod.intCast_eq_intCast_iff' _ _ P).mp (by rw [← h, residue, Int.cast_natCast])
  rw [modP, ← hmod, Int.emod_eq_of_lt (by omega) (by exact_mod_cast a.isLt), Int.toNat_natCast]

theorem modP_natCast (x : Nat) : modP x = x % P := by
  rw [modP, ← Int.natCast_mod, Int.toNat_natCast]

theorem Fp.val_eq_mod {a : Fp} {x : Nat} (h : residue a = (x : ZMod P)) : a.val = x % P := by
  rw [← modP_natCast]
  exact Fp.val_eq_modP (by rw [h, Int.cast_natCast])

theorem Snap.residue_fpOperand (sn : Snap) (k : Nat) : residue (sn.fpOperand k) = ((loVal sn k : Int) : ZMod P) := by
  rw [residue, Snap.fpOperand_val, Int.cast_natCast]

/-! ## Functions on plain integers -/

theorem fpAdd_val (a b : Fp) : (fpAdd a b).val = (a.val + b.val) % P := rfl

theorem fpMul_val (a b : Fp) : (fpMul a b).val = a.val * b.val % P := rfl

theorem fpSqr_val (a : Fp) : (fpSqr a).val = a.val * a.val % P := rfl

/-- `fp_pow` (R108). -/
theorem fpPow_val (a : Fp) (e : Nat) : (fpPow a e).val = a.val ^ e % P :=
  Fp.val_eq_mod (by rw [residue_fpPow, Nat.cast_pow, residue])

/-! ## Completions -/

/-- A command that returns one Fp element publishes its 16 bytes, FLAG 0 (R79). -/
theorem completesOk_of_retFp {i : Instr} {s : State} {sn : Snap} {a : Fp} (hs : s.snap = some sn)
    (h : runOf i sn = { outcome := retFp a, xofCalls := [] }) : CompletesOk i s (bytesN 16 a.val) false [] :=
  completesOk_of_runOf hs (h.trans (by rw [retFp_eq]))

/-- The same, for an element known by its residue class. -/
theorem completesOk_of_residue {i : Instr} {s : State} {sn : Snap} {a : Fp} {x : Int} (hs : s.snap = some sn)
    (h : runOf i sn = { outcome := retFp a, xofCalls := [] }) (hx : residue a = (x : ZMod P)) :
    CompletesOk i s (bytesN 16 (modP x)) false [] :=
  Fp.val_eq_modP hx ▸ completesOk_of_retFp hs h

/-- A command whose run raises completes with the code of the error (R221, R235). -/
theorem completesErr_of_runOf {i : Instr} {s : State} {sn : Snap} {e : ErrCode} {calls : List (List Byte)}
    (hs : s.snap = some sn) (h : runOf i sn = { outcome := .error e, xofCalls := calls }) :
    CompletesErr i s (errNumber e) calls := by
  refine ⟨_, exec_of_snap i hs, ?_⟩
  rw [h]
  exact raised_complete s e calls

/-- Zero bytes published leave OUT as nothing published does (R221). -/
theorem CompletesOk.nil_of_zeroBytes {i : Instr} {s : State} {n : Nat} {flag : Bool} {calls : List (List Byte)}
    (h : CompletesOk i s (zeroBytes n) flag calls) : CompletesOk i s [] flag calls := by
  obtain ⟨t, ht, hpub⟩ := h
  exact ⟨t, ht, { hpub with out := fun k hk => (hpub.out k hk).trans (zeroBytes_getD n k) }⟩

/-! ## The ring commands -/

/-- Settles O27: each function is the ring operation on residue classes. -/
theorem fpRingCommandsPublishResidues : Obligations.FpRingCommandsPublishResidues := by
  refine ⟨decode_encode .fpAdd, decode_encode .fpSub, decode_encode .fpNeg, decode_encode .fpMul,
    decode_encode .fpSqr, fun s sn hs => ⟨?add, ?sub, ?neg, ?mul, ?sqr⟩⟩
  case add => exact completesOk_of_residue hs rfl (by simp only [residue_fpAdd, Snap.residue_fpOperand, Int.cast_add])
  case sub => exact completesOk_of_residue hs rfl (by simp only [residue_fpSub, Snap.residue_fpOperand, Int.cast_sub])
  case neg => exact completesOk_of_residue hs rfl (by simp only [residue_fpNeg, Snap.residue_fpOperand, Int.cast_neg])
  case mul => exact completesOk_of_residue hs rfl (by simp only [residue_fpMul, Snap.residue_fpOperand, Int.cast_mul])
  case sqr => exact completesOk_of_residue hs rfl (by simp only [residue_fpSqr, Snap.residue_fpOperand, Int.cast_mul])

/-! ## FP_CANON -/

/-- A byte sequence is `bytes_n(v)` for no `v` in range but its own integer (R13). -/
theorem bytesN_eq_iff {bs : List Byte} {v : Nat} (hv : v < 256 ^ bs.length) :
    bytesN bs.length v = bs ↔ v = leNat bs := by
  constructor
  · intro h
    rw [← leNat_bytesN_of_lt hv, h]
  · rintro rfl
    exact bytesN_leNat bs

/-- Reduction modulo P keeps 16 bytes exactly when they are canonical (R111). -/
theorem bytesN_mod_P_eq_iff {bs : List Byte} (hlen : bs.length = 16) :
    bytesN 16 (leNat bs % P) = bs ↔ leNat bs < P := by
  have hv : leNat bs % P < 256 ^ bs.length := by
    rw [hlen]
    exact (Nat.mod_lt _ P_pos).trans (by decide)
  rw [← hlen, bytesN_eq_iff hv, Nat.mod_eq_iff_lt P_pos.ne']

/-- Settles O28: decoding reduces, and what is canonical already stays as it is. -/
theorem fpCanonReducesItsBytes : Obligations.FpCanonReducesItsBytes := by
  refine ⟨decode_encode .fpCanon, fun s sn hs => ⟨?_, bytesN_mod_P_eq_iff (slice_length _ _ _)⟩⟩
  have hrun := completesOk_of_retFp (i := .fpCanon) (a := sn.fpOperand 0) hs rfl
  rwa [Snap.fpOperand_val] at hrun

/-! ## FP_DIV2 -/

theorem P_odd : P % 2 = 1 := by decide

/-- `fp_div2` as a plain integer: the halving leaves nothing to reduce (R107). -/
theorem fpDiv2_val (a : Fp) : (fpDiv2 a).val = if a.val % 2 = 0 then a.val / 2 else (a.val + P) / 2 := by
  have ha := a.isLt
  rw [fpDiv2, Fp.ofNat_val, Nat.mod_eq_of_lt]
  split <;> omega

/-- Halving is exact (R107): an odd operand is made even by adding the odd P. -/
theorem fpAdd_fpDiv2_self (a : Fp) : fpAdd (fpDiv2 a) (fpDiv2 a) = a := by
  have ha := a.isLt
  have hP := P_odd
  apply Fin.ext
  rw [fpAdd_val, fpDiv2_val]
  split
  · rw [← Nat.two_mul, Nat.mul_div_cancel' (by omega), Nat.mod_eq_of_lt ha]
  · rw [← Nat.two_mul, Nat.mul_div_cancel' (by omega), Nat.add_mod_right, Nat.mod_eq_of_lt ha]

/-- Settles O29: h is the value of `fp_div2`, canonical as every Fp value is. -/
theorem fpDiv2Halves : Obligations.FpDiv2Halves := by
  refine ⟨decode_encode .fpDiv2, fun s sn hs =>
    ⟨(fpDiv2 (sn.fpOperand 0)).val, ?_, (fpDiv2 _).isLt, ?_, completesOk_of_retFp hs rfl⟩⟩
  · rw [fpDiv2_val, Snap.fpOperand_val]
  · rw [← Snap.fpOperand_val, ← fpAdd_val, fpAdd_fpDiv2_self]

/-! ## FP_INV -/

/-- FP_INV of an operand that reads as 0 (R109). -/
theorem fpInvCmd_of_zero {sn : Snap} (h : loVal sn 0 = 0) : fpInvCmd sn = .error .domain := by
  rw [← Snap.fpOperand_val] at h
  simp only [fpInvCmd, fpInv_of_zero h, Bind.bind, Except.bind]

/-- FP_INV of any other operand (R109). -/
theorem fpInvCmd_of_ne_zero {sn : Snap} (h : loVal sn 0 ≠ 0) :
    fpInvCmd sn = retFp (fpPow (sn.fpOperand 0) (P - 2)) := by
  rw [← Snap.fpOperand_val] at h
  simp only [fpInvCmd, fpInv_of_ne_zero h, Bind.bind, Except.bind]

/-- Fermat's little theorem on Fp values (R109). -/
theorem fpMul_fpPow_eq_one {a : Fp} (h : a.val ≠ 0) : fpMul a (fpPow a (P - 2)) = Fp.ofNat 1 := by
  apply residue_injective
  rw [residue_fpMul, residue_mul_fpInv (fpInv_of_ne_zero h), residue_ofNat, Nat.cast_one]

/-- Settles O30, by the case split of `fp_inv` on a = 0. -/
theorem fpInvPublishesThePower : Obligations.FpInvPublishesThePower := by
  refine ⟨decode_encode .fpInv, fun s sn hs => ⟨fun hne => ⟨?_, ?_⟩, fun hzero => ?_⟩⟩
  · rw [← Snap.fpOperand_val, ← fpPow_val]
    exact completesOk_of_retFp hs (by simp only [runOf, fpInvCmd_of_ne_zero hne])
  · rw [← Snap.fpOperand_val] at hne ⊢
    rw [← fpPow_val, ← fpMul_val, fpMul_fpPow_eq_one hne, Fp.ofNat_val, Nat.mod_eq_of_lt two_le_P]
  · exact completesErr_of_runOf (e := .domain) hs (by simp only [runOf, fpInvCmd_of_zero hzero])

/-! ## FP_SQRT -/

/-- The candidate of `fp_sqrt`: a^((P + 1)/4) (R110). -/
def sqrtCandidate (a : Fp) : Fp := fpPow a ((P + 1) / 4)

/-- The exponent is 2^125 (R110). -/
theorem sqrtCandidate_val (a : Fp) : (sqrtCandidate a).val = a.val ^ 2 ^ 125 % P := by
  rw [sqrtCandidate, fpPow_val, show (P + 1) / 4 = 2 ^ 125 by decide]

/-- `fp_sqrt` tests its candidate (R110). -/
theorem fpSqrt_eq (a : Fp) :
    fpSqrt a = if fpSqr (sqrtCandidate a) = a then some (sqrtCandidate a) else none := rfl

theorem fpSqrt_of_root {a : Fp} (h : fpSqr (sqrtCandidate a) = a) : fpSqrt a = some (sqrtCandidate a) := by
  rw [fpSqrt_eq, if_pos h]

theorem fpSqrt_of_no_root {a : Fp} (h : fpSqr (sqrtCandidate a) ≠ a) : fpSqrt a = none := by
  rw [fpSqrt_eq, if_neg h]

/-- The model's test of the candidate, on plain integers. -/
theorem fpSqr_eq_iff {a c : Fp} : fpSqr c = a ↔ c.val * c.val % P = a.val := by
  rw [Fin.ext_iff, fpSqr_val]

/-- FP_SQRT publishes the candidate when it is a root (R110). -/
theorem fpSqrt_completes_of_root {s : State} {sn : Snap} (hs : s.snap = some sn)
    (h : fpSqr (sqrtCandidate (sn.fpOperand 0)) = sn.fpOperand 0) :
    CompletesOk .fpSqrt s (bytesN 16 (sqrtCandidate (sn.fpOperand 0)).val) true [] := by
  have hrun : runOf .fpSqrt sn = { outcome := .ok { out := _, flag := true }, xofCalls := [] } :=
    congrArg (CmdRun.mk · []) (fpSqrtCmd_of_some (fpSqrt_of_root h))
  exact completesOk_of_runOf hs hrun

/-- FP_SQRT publishes zero bytes when the candidate is no root (R110). -/
theorem fpSqrt_completes_of_no_root {s : State} {sn : Snap} (hs : s.snap = some sn)
    (h : fpSqr (sqrtCandidate (sn.fpOperand 0)) ≠ sn.fpOperand 0) :
    CompletesOk .fpSqrt s (zeroBytes 16) false [] := by
  have hrun : runOf .fpSqrt sn = { outcome := .ok { out := zeroBytes 16, flag := false }, xofCalls := [] } :=
    congrArg (CmdRun.mk · []) (fpSqrtCmd_of_none (fpSqrt_of_no_root h))
  exact completesOk_of_runOf hs hrun

/-- Settles O31, by the case split of `fp_sqrt` on whether the candidate is a root. -/
theorem fpSqrtPublishesTheCandidate : Obligations.FpSqrtPublishesTheCandidate := by
  refine ⟨decode_encode .fpSqrt, fun s sn hs => ?_⟩
  rw [← Snap.fpOperand_val, ← sqrtCandidate_val, Ne, ← fpSqr_eq_iff]
  exact ⟨fpSqrt_completes_of_root hs, fun h => (fpSqrt_completes_of_no_root hs h).nil_of_zeroBytes⟩

/-- The candidate of a square is a root: its square is x^(P + 1), which is x² by Fermat's little theorem (R110, E3). -/
theorem fpSqr_sqrtCandidate_fpSqr (x : Fp) : fpSqr (sqrtCandidate (fpSqr x)) = fpSqr x := by
  have : Fact P.Prime := ⟨P_prime⟩
  have hexp : 2 * ((P + 1) / 4 + (P + 1) / 4) = P + 1 := by decide
  apply residue_injective
  simp only [sqrtCandidate, residue_fpSqr, residue_fpPow]
  rw [← pow_add, ← sq, ← pow_mul, hexp, pow_succ, ZMod.pow_card, sq]

/-- `fp_sqrt` decides whether there is a root (R110, E3). -/
theorem fpSqr_sqrtCandidate_eq_iff {a : Fp} : fpSqr (sqrtCandidate a) = a ↔ ∃ x, fpSqr x = a := by
  constructor
  · exact fun h => ⟨_, h⟩
  · rintro ⟨x, rfl⟩
    exact fpSqr_sqrtCandidate_fpSqr x

/-- Fp values are the integers below P. -/
theorem exists_fpSqr_eq_iff {a : Fp} : (∃ x, fpSqr x = a) ↔ ∃ x, x < P ∧ x * x % P = a.val := by
  constructor
  · rintro ⟨x, hx⟩
    exact ⟨x.val, x.isLt, fpSqr_eq_iff.mp hx⟩
  · rintro ⟨x, hlt, hx⟩
    exact ⟨⟨x, hlt⟩, fpSqr_eq_iff.mpr hx⟩

/-- Settles O32: FLAG tells whether the candidate is a root, and it is one whenever there is one. -/
theorem fpSqrtDecidesSquares : Obligations.FpSqrtDecidesSquares := by
  intro s sn hs
  rw [← Snap.fpOperand_val, ← exists_fpSqr_eq_iff, ← fpSqr_sqrtCandidate_eq_iff]
  by_cases h : fpSqr (sqrtCandidate (sn.fpOperand 0)) = sn.fpOperand 0
  · exact ⟨true, _, fpSqrt_completes_of_root hs h, by simp [h], fun _ => ⟨Fin.isLt _, fpSqr_eq_iff.mp h⟩, nofun⟩
  · exact ⟨false, 0, fpSqrt_completes_of_no_root hs h, by simp [h], nofun, fun _ => rfl⟩

end Sys2Proof.Machine
end

section
/-! PROOFS, family 41_fp2.md: the Fp2 commands (R120 to R125) publish the ring operations on components, and F2_SQRT
(R126) finds a root whenever there is one, but for the real-only gap. -/

namespace Sys2Proof.Machine

/-! ## Completions -/

/-- A command that returns one Fp2 element publishes its 32 bytes, FLAG 0 (R79). -/
theorem completesOk_of_retF2 {i : Instr} {s : State} {sn : Snap} {x : Fp2} (hs : s.snap = some sn)
    (h : runOf i sn = { outcome := retF2 x, xofCalls := [] }) : CompletesOk i s (f2Bytes x) false [] :=
  completesOk_of_runOf hs (h.trans (by rw [retF2_eq]))

/-- The same, for an element known by the residue classes of its components. -/
theorem completesOk_of_residues {i : Instr} {s : State} {sn : Snap} {x : Fp2} {re im : Int} (hs : s.snap = some sn)
    (h : runOf i sn = { outcome := retF2 x, xofCalls := [] })
    (hre : residue x.re = (re : ZMod P)) (him : residue x.im = (im : ZMod P)) :
    CompletesOk i s (bytesN 16 (modP re) ++ bytesN 16 (modP im)) false [] := by
  rw [← Fp.val_eq_modP hre, ← Fp.val_eq_modP him]
  exact completesOk_of_retF2 hs h

theorem Snap.residue_f2Operand_re (sn : Snap) (k : Nat) :
    residue (sn.f2Operand k).re = ((loVal sn k : Int) : ZMod P) := by
  rw [Snap.f2Operand_eq, f2Val, residue_ofNat, Int.cast_natCast]

theorem Snap.residue_f2Operand_im (sn : Snap) (k : Nat) :
    residue (sn.f2Operand k).im = ((hiVal sn k : Int) : ZMod P) := by
  rw [Snap.f2Operand_eq, f2Val, residue_ofNat, Int.cast_natCast]

/-! ## Components -/

theorem f2Add_re (x y : Fp2) : (f2Add x y).re = fpAdd x.re y.re := rfl

theorem f2Add_im (x y : Fp2) : (f2Add x y).im = fpAdd x.im y.im := rfl

theorem f2Sub_re (x y : Fp2) : (f2Sub x y).re = fpSub x.re y.re := rfl

theorem f2Sub_im (x y : Fp2) : (f2Sub x y).im = fpSub x.im y.im := rfl

theorem f2Neg_re (x : Fp2) : (f2Neg x).re = fpNeg x.re := rfl

theorem f2Neg_im (x : Fp2) : (f2Neg x).im = fpNeg x.im := rfl

theorem residue_f2Mul_re (x y : Fp2) :
    residue (f2Mul x y).re = residue x.re * residue y.re - residue x.im * residue y.im := by
  rw [f2Mul, residue_fpSub, residue_fpMul, residue_fpMul]

theorem residue_f2Mul_im (x y : Fp2) :
    residue (f2Mul x y).im = residue x.re * residue y.im + residue x.im * residue y.re := by
  rw [f2Mul, residue_fpAdd, residue_fpMul, residue_fpMul]

theorem residue_f2Sqr_re (x : Fp2) :
    residue (f2Sqr x).re = residue x.re * residue x.re - residue x.im * residue x.im := by
  rw [f2Sqr, residue_fpSub, residue_fpSqr, residue_fpSqr]

theorem residue_f2Sqr_im (x : Fp2) : residue (f2Sqr x).im = 2 * residue x.re * residue x.im := by
  rw [f2Sqr, residue_fpAdd, residue_fpMul, ← two_mul, mul_assoc]

/-! ## The ring commands -/

/-- Settles O33: each component is the Fp operation on the residue classes of that component. -/
theorem f2LinearCommandsAreComponentwise : Obligations.F2LinearCommandsAreComponentwise := by
  refine ⟨decode_encode .f2Add, decode_encode .f2Sub, decode_encode .f2Neg, fun s sn hs => ⟨?add, ?sub, ?neg⟩⟩
  case add =>
    exact completesOk_of_residues hs rfl
      (by simp only [f2Add_re, residue_fpAdd, Snap.residue_f2Operand_re, Int.cast_add])
      (by simp only [f2Add_im, residue_fpAdd, Snap.residue_f2Operand_im, Int.cast_add])
  case sub =>
    exact completesOk_of_residues hs rfl
      (by simp only [f2Sub_re, residue_fpSub, Snap.residue_f2Operand_re, Int.cast_sub])
      (by simp only [f2Sub_im, residue_fpSub, Snap.residue_f2Operand_im, Int.cast_sub])
  case neg =>
    exact completesOk_of_residues hs rfl
      (by simp only [f2Neg_re, residue_fpNeg, Snap.residue_f2Operand_re, Int.cast_neg])
      (by simp only [f2Neg_im, residue_fpNeg, Snap.residue_f2Operand_im, Int.cast_neg])

/-- Settles O34: the components of `f2_mul` and `f2_sqr` as residue classes. -/
theorem f2ProductsAreComplex : Obligations.F2ProductsAreComplex := by
  refine ⟨decode_encode .f2Mul, decode_encode .f2Sqr, ?_⟩
  rintro s sn a b c d hs rfl rfl rfl rfl
  refine ⟨?mul, ?sqr⟩
  case mul =>
    exact completesOk_of_residues hs rfl
      (by simp only [residue_f2Mul_re, Snap.residue_f2Operand_re, Snap.residue_f2Operand_im, Int.cast_sub,
        Int.cast_mul])
      (by simp only [residue_f2Mul_im, Snap.residue_f2Operand_re, Snap.residue_f2Operand_im, Int.cast_add,
        Int.cast_mul])
  case sqr =>
    exact completesOk_of_residues hs rfl
      (by simp only [residue_f2Sqr_re, Snap.residue_f2Operand_re, Snap.residue_f2Operand_im, Int.cast_sub,
        Int.cast_mul])
      (by simp only [residue_f2Sqr_im, Snap.residue_f2Operand_re, Snap.residue_f2Operand_im, Int.cast_mul,
        Int.cast_ofNat])

/-! ## F2_INV -/

/-- `f2_inv` of zero: the norm is 0 (R125). -/
theorem f2Inv_f2Zero : f2Inv f2Zero = .error .domain := by
  rw [f2Inv, fpInv_of_zero (by decide)]
  rfl

/-- `f2_inv` answers the inverse, on Fp2 values (R125). -/
theorem f2Mul_f2Inv {x y : Fp2} (h : f2Inv x = .ok y) : f2Mul x y = f2One := by
  apply quad_injective
  rw [quad_f2Mul, quad_mul_f2Inv h, quad_f2One]

/-- F2_INV case by case (R125). -/
theorem f2InvCmd_of_error {sn : Snap} {e : ErrCode} (h : f2Inv (f2Val sn 0) = .error e) : f2InvCmd sn = .error e := by
  rw [← Snap.f2Operand_eq] at h
  rw [f2InvCmd, h]
  rfl

theorem f2InvCmd_of_ok {sn : Snap} {y : Fp2} (h : f2Inv (f2Val sn 0) = .ok y) : f2InvCmd sn = retF2 y := by
  rw [← Snap.f2Operand_eq] at h
  rw [f2InvCmd, h]
  rfl

/-- Settles O35: `f2_inv` answers exactly for the nonzero operands, whose norm is not 0. -/
theorem f2InvInvertsEveryNonzero : Obligations.F2InvInvertsEveryNonzero := by
  refine ⟨decode_encode .f2Inv, fun s sn hs => ⟨fun hne => ?_, fun hzero => ?_⟩⟩
  · obtain ⟨y, hy⟩ := f2Inv_of_ne_zero hne
    exact ⟨y, f2Mul_f2Inv hy, completesOk_of_retF2 hs (congrArg (CmdRun.mk · []) (f2InvCmd_of_ok hy))⟩
  · have herr : f2Inv (f2Val sn 0) = .error .domain := hzero ▸ f2Inv_f2Zero
    exact completesErr_of_runOf (e := .domain) hs (congrArg (CmdRun.mk · []) (f2InvCmd_of_error herr))

/-! ## `fp_sqrt`, which `f2_sqrt` calls -/

/-- `fp_sqrt` answers NoRoot exactly when there is no root (R110, E3). -/
theorem fpSqrt_eq_none_iff {a : Fp} : fpSqrt a = none ↔ ∀ r, fpSqr r ≠ a := by
  rw [← not_exists, ← fpSqr_sqrtCandidate_eq_iff, fpSqrt_eq]
  split <;> simp_all

/-- The root that `fp_sqrt` answers is a power with even exponent, so a square itself (R110, U10). -/
theorem fpSqrt_answer_is_square {a r : Fp} (h : fpSqrt a = some r) : ∃ u, fpSqr u = r := by
  have hexp : (P + 1) / 4 = (P + 1) / 8 + (P + 1) / 8 := by decide
  have hr : sqrtCandidate a = r := by
    rw [fpSqrt_of_root (fpSqr_sqrtCandidate_eq_iff.mpr ⟨r, fpSqr_of_fpSqrt h⟩)] at h
    exact Option.some.inj h
  refine ⟨fpPow a ((P + 1) / 8), residue_injective ?_⟩
  rw [← hr, sqrtCandidate, residue_fpSqr, residue_fpPow, residue_fpPow, hexp, pow_add]

/-- The roots of a/2, by the residue classes: P is odd (R107). -/
theorem fpSqr_eq_fpDiv2_iff {u a : Fp} : fpSqr u = fpDiv2 a ↔ 2 * (residue u * residue u) = residue a := by
  have htwo : (2 : ZMod P) ≠ 0 := by decide
  have : Fact P.Prime := ⟨P_prime⟩
  rw [← residue_injective.eq_iff, ← mul_right_inj' htwo, two_mul (residue (fpDiv2 a)), ← residue_fpAdd,
    fpAdd_fpDiv2_self, residue_fpSqr]

/-! ## `f2_sqrt` -/

/-- The norm a² + b² that `f2_sqrt` takes the root of (R126): `f2Sqrt_of_norm_none` and the equations after it tie it
to the model. -/
def f2Norm (x : Fp2) : Fp := fpAdd (fpSqr x.re) (fpSqr x.im)

theorem residue_f2Norm (x : Fp2) :
    residue (f2Norm x) = residue x.re * residue x.re + residue x.im * residue x.im := by
  rw [f2Norm, residue_fpAdd, residue_fpSqr, residue_fpSqr]

/-- The norm is multiplicative. -/
theorem f2Norm_f2Sqr (c : Fp2) : f2Norm (f2Sqr c) = fpSqr (f2Norm c) := by
  apply residue_injective
  rw [residue_fpSqr]
  simp only [← norm_quad, residue_f2Norm, quad_f2Sqr, map_mul]

/-- `f2_sqrt` case by case (R126): a real operand, and the steps for any other. -/
theorem f2Sqrt_of_real {x : Fp2} (h : x.im.val = 0) :
    f2Sqrt x = .ok ((fpSqrt x.re).map fun r => { re := r, im := Fp.ofNat 0 }) := if_pos h

theorem f2Sqrt_of_norm_none {x : Fp2} (him : x.im.val ≠ 0) (hnorm : fpSqrt (f2Norm x) = none) :
    f2Sqrt x = .ok none := by
  rw [f2Norm] at hnorm
  simp only [f2Sqrt, if_neg him, hnorm]

theorem f2Sqrt_of_re_none {x : Fp2} {t : Fp} (him : x.im.val ≠ 0) (hnorm : fpSqrt (f2Norm x) = some t)
    (hre : f2SqrtReal x.re t = none) : f2Sqrt x = .ok none := by
  rw [f2Norm] at hnorm
  simp only [f2Sqrt, if_neg him, hnorm, hre]

theorem f2Sqrt_of_re_some {x : Fp2} {t r : Fp} (him : x.im.val ≠ 0) (hnorm : fpSqrt (f2Norm x) = some t)
    (hre : f2SqrtReal x.re t = some r) : f2Sqrt x = f2SqrtFrom x r := by
  rw [f2Norm] at hnorm
  simp only [f2Sqrt, if_neg him, hnorm, hre]

/-- u² = (a + t)/2 or u² = (a − t)/2: what `f2_sqrt` asks of the real part of a root (R126). -/
def IsHalfSumRoot (a t u : Fp) : Prop := fpSqr u = fpDiv2 (fpAdd a t) ∨ fpSqr u = fpDiv2 (fpSub a t)

/-- The two cases are one on residue classes: t and −t are all the roots of t², for Fp has no zero divisors. -/
theorem isHalfSumRoot_iff {a t u : Fp} :
    IsHalfSumRoot a t u ↔
      ∃ e : ZMod P, e * e = residue t * residue t ∧ 2 * (residue u * residue u) = residue a + e := by
  have : Fact P.Prime := ⟨P_prime⟩
  simp only [IsHalfSumRoot, mul_self_eq_mul_self_iff, fpSqr_eq_fpDiv2_iff, residue_fpAdd, residue_fpSub, sub_eq_add_neg]
  constructor
  · rintro (hu | hu)
    · exact ⟨_, .inl rfl, hu⟩
    · exact ⟨_, .inr rfl, hu⟩
  · rintro ⟨e, rfl | rfl, hu⟩
    · exact .inl hu
    · exact .inr hu

/-- The two attempts of `f2_sqrt` answer such a real part, and a square at that (R126, U10). -/
theorem f2SqrtReal_some {a t r : Fp} (h : f2SqrtReal a t = some r) : IsHalfSumRoot a t r ∧ ∃ u, fpSqr u = r := by
  unfold f2SqrtReal at h
  split at h
  · next hplus =>
    cases h
    exact ⟨.inl (fpSqr_of_fpSqrt hplus), fpSqrt_answer_is_square hplus⟩
  · exact ⟨.inr (fpSqr_of_fpSqrt h), fpSqrt_answer_is_square h⟩

/-- They fail only when there is none (R126). -/
theorem f2SqrtReal_none {a t : Fp} (h : f2SqrtReal a t = none) (u : Fp) : ¬ IsHalfSumRoot a t u := by
  unfold f2SqrtReal at h
  split at h
  · cases h
  · next hplus => exact not_or.mpr ⟨fpSqrt_eq_none_iff.mp hplus u, fpSqrt_eq_none_iff.mp h u⟩

/-- The real part of every root is such a value: 2·re(c)² = re(c²) + N(c) (R126). -/
theorem isHalfSumRoot_of_f2Sqr {c : Fp2} {t : Fp} (ht : fpSqr t = f2Norm (f2Sqr c)) :
    IsHalfSumRoot (f2Sqr c).re t c.re := by
  refine isHalfSumRoot_iff.mpr ⟨residue (f2Norm c), ?_, ?_⟩
  · rw [← residue_fpSqr, ← residue_fpSqr, ht, f2Norm_f2Sqr]
  · rw [residue_f2Norm, residue_f2Sqr_re]
    ring

/-- Where t is the root of the norm that `f2_sqrt` takes: e² = a² + b² and 2r² = a + e. -/
theorem IsHalfSumRoot.exists_norm_root {x : Fp2} {t r : Fp} (hr : IsHalfSumRoot x.re t r)
    (ht : fpSqr t = f2Norm x) :
    ∃ e : ZMod P, e * e = residue x.re * residue x.re + residue x.im * residue x.im
        ∧ 2 * (residue r * residue r) = residue x.re + e := by
  obtain ⟨e, he, hr⟩ := isHalfSumRoot_iff.mp hr
  exact ⟨e, by rw [he, ← residue_fpSqr, ht, residue_f2Norm], hr⟩

/-- The algebra of `f2_sqrt`: with 2r² = a + e, e² = a² + b² and m = 1/(2r), the real part of (r + b·m·i)² is a
(R126). -/
theorem sq_sub_sq_eq_of_half_sum {R : Type} [CommRing R] {a b e r m : R} (hr : 2 * (r * r) = a + e)
    (he : e * e = a * a + b * b) (hm : (r + r) * m = 1) : r * r - b * m * (b * m) = a := by
  linear_combination -(r * r - a) * (2 * r * m + 1) * hm + m * m * (2 * (r * r) + e - a) * hr + m * m * he

/-- The value that `f2_sqrt` verifies is a root (R126). -/
theorem f2Sqr_eq_of_isHalfSumRoot {x : Fp2} {t r m : Fp} (ht : fpSqr t = f2Norm x) (hr : IsHalfSumRoot x.re t r)
    (hm : fpInv (fpAdd r r) = .ok m) : f2Sqr { re := r, im := fpMul x.im m } = x := by
  obtain ⟨e, he, hr⟩ := hr.exists_norm_root ht
  have hinv := residue_mul_fpInv hm
  rw [residue_fpAdd] at hinv
  apply quad_injective
  ext
  · simp only [quad, residue_f2Sqr_re, residue_fpMul]
    exact sq_sub_sq_eq_of_half_sum hr he hinv
  · simp only [quad, residue_f2Sqr_im, residue_fpMul]
    linear_combination residue x.im * hinv

/-- The real part 0, where `f2_sqrt` gives up, is none of an operand that is not real (R126). -/
theorem IsHalfSumRoot.ne_zero {x : Fp2} {t r : Fp} (him : x.im.val ≠ 0) (ht : fpSqr t = f2Norm x)
    (hr : IsHalfSumRoot x.re t r) : r.val ≠ 0 := by
  have : Fact P.Prime := ⟨P_prime⟩
  intro hzero
  obtain ⟨e, he, hr⟩ := hr.exists_norm_root ht
  rw [(residue_eq_zero_iff r).mpr hzero] at hr
  have hsq : residue x.im * residue x.im = 0 := by linear_combination (residue x.re - e) * hr - he
  exact him ((residue_eq_zero_iff _).mp (mul_self_eq_zero.mp hsq))

/-- From such a real part the last part of `f2_sqrt` always finds a root, at its first try (R126). -/
theorem f2SqrtFrom_of_isHalfSumRoot {x : Fp2} {t r : Fp} (him : x.im.val ≠ 0) (ht : fpSqr t = f2Norm x)
    (hr : IsHalfSumRoot x.re t r) : ∃ c, f2SqrtFrom x r = .ok (some c) ∧ c.re = r := by
  have hne := hr.ne_zero him ht
  have hm := fpInv_of_ne_zero (fpAdd_self_ne_zero hne)
  refine ⟨{ re := r, im := fpMul x.im (fpPow (fpAdd r r) (P - 2)) }, ?_, rfl⟩
  simp only [f2SqrtFrom, if_neg hne, hm, f2Sqr_eq_of_isHalfSumRoot ht hr hm, if_true, Bind.bind, Except.bind, Pure.pure,
    Except.pure]

/-- `f2_sqrt` of an operand that is not real: NoRoot means that no root exists (R126). -/
theorem f2Sqrt_decides_of_not_real {x : Fp2} (him : x.im.val ≠ 0) :
    (∃ c, f2Sqrt x = .ok (some c) ∧ ∃ u, fpSqr u = c.re) ∨ (f2Sqrt x = .ok none ∧ ∀ c, f2Sqr c ≠ x) := by
  cases hnorm : fpSqrt (f2Norm x) with
  | none =>
    refine .inr ⟨f2Sqrt_of_norm_none him hnorm, ?_⟩
    rintro c rfl
    exact fpSqrt_eq_none_iff.mp hnorm (f2Norm c) (f2Norm_f2Sqr c).symm
  | some t =>
    have ht := fpSqr_of_fpSqrt hnorm
    cases hre : f2SqrtReal x.re t with
    | none =>
      refine .inr ⟨f2Sqrt_of_re_none him hnorm hre, ?_⟩
      rintro c rfl
      exact f2SqrtReal_none hre c.re (isHalfSumRoot_of_f2Sqr ht)
    | some r =>
      obtain ⟨hhalf, hsquare⟩ := f2SqrtReal_some hre
      obtain ⟨c, hc, rfl⟩ := f2SqrtFrom_of_isHalfSumRoot him ht hhalf
      exact .inl ⟨c, (f2Sqrt_of_re_some him hnorm hre).trans hc, hsquare⟩

/-! ## F2_SQRT -/

theorem f2Sqr_of_f2Sqrt {x c : Fp2} (h : f2Sqrt x = .ok (some c)) : f2Sqr c = x := by
  obtain ⟨o, ho, hroot⟩ := f2Sqrt_spec x
  exact hroot c (Except.ok.inj (ho.symm.trans h))

/-- F2_SQRT case by case (R126). -/
theorem f2SqrtCmd_of_none {sn : Snap} (h : f2Sqrt (f2Val sn 0) = .ok none) :
    f2SqrtCmd sn = .ok { out := zeroBytes 32, flag := false } := by
  rw [← Snap.f2Operand_eq] at h
  rw [f2SqrtCmd, h]
  rfl

theorem f2SqrtCmd_of_some {sn : Snap} {c : Fp2} (h : f2Sqrt (f2Val sn 0) = .ok (some c)) :
    f2SqrtCmd sn = .ok { out := f2Bytes c, flag := true } := by
  rw [← Snap.f2Operand_eq] at h
  simp only [f2SqrtCmd, h, Bind.bind, Except.bind, Pure.pure, Except.pure, f2Enc_eq, flagFound, Option.isSome_some]

/-- F2_SQRT publishes the root that `f2_sqrt` finds. -/
theorem f2Sqrt_completes_of_root {s : State} {sn : Snap} {c : Fp2} (hs : s.snap = some sn)
    (h : f2Sqrt (f2Val sn 0) = .ok (some c)) : CompletesOk .f2Sqrt s (f2Bytes c) true [] := by
  have hrun : runOf .f2Sqrt sn = { outcome := .ok { out := f2Bytes c, flag := true }, xofCalls := [] } :=
    congrArg (CmdRun.mk · []) (f2SqrtCmd_of_some h)
  exact completesOk_of_runOf hs hrun

/-- F2_SQRT publishes zero bytes when `f2_sqrt` finds none. -/
theorem f2Sqrt_completes_of_no_root {s : State} {sn : Snap} (hs : s.snap = some sn)
    (h : f2Sqrt (f2Val sn 0) = .ok none) : CompletesOk .f2Sqrt s [] false [] := by
  have hrun : runOf .f2Sqrt sn = { outcome := .ok { out := zeroBytes 32, flag := false }, xofCalls := [] } :=
    congrArg (CmdRun.mk · []) (f2SqrtCmd_of_none h)
  exact CompletesOk.nil_of_zeroBytes (n := 32) (completesOk_of_runOf hs hrun)

/-- Settles O36, by the case split of `f2_sqrt`: a real operand is decided by `fp_sqrt`, any other by
`f2Sqrt_decides_of_not_real`. -/
theorem f2SqrtFindsRootsButForTheRealGap : Obligations.F2SqrtFindsRootsButForTheRealGap := by
  refine ⟨decode_encode .f2Sqrt, ?_⟩
  rintro s sn x hs rfl
  by_cases him : (f2Val sn 0).im.val = 0
  · have hreal := f2Sqrt_of_real him
    cases hr : fpSqrt (f2Val sn 0).re with
    | none =>
      rw [hr] at hreal
      exact .inr ⟨absurd him, fun _ => fpSqrt_eq_none_iff.mp hr, f2Sqrt_completes_of_no_root hs hreal⟩
    | some r =>
      rw [hr] at hreal
      exact .inl ⟨_, f2Sqr_of_f2Sqrt hreal, fpSqrt_answer_is_square hr, fun _ => rfl,
        f2Sqrt_completes_of_root hs hreal⟩
  · rcases f2Sqrt_decides_of_not_real him with ⟨c, hc, hsquare⟩ | ⟨hnone, hno⟩
    · exact .inl ⟨c, f2Sqr_of_f2Sqrt hc, hsquare, fun h => absurd h him, f2Sqrt_completes_of_root hs hc⟩
    · exact .inr ⟨fun _ => hno, fun h => absurd h him, f2Sqrt_completes_of_no_root hs hnone⟩

end Sys2Proof.Machine
end

section
/-! PROOFS, family 42_point.md: the group law on Fp2 values (R144, R145), affine conversion (R146), the curve test
(R147), the sign bit (R148) and scalar multiplication (R149 to R151). -/

namespace Sys2Proof.Machine

/-! ## Completions -/

/-- A command that returns one point publishes its 128 bytes, FLAG 0 (R79). -/
theorem completesOk_of_retPt {i : Instr} {s : State} {sn : Snap} {p : Point} (hs : s.snap = some sn)
    (h : runOf i sn = { outcome := retPt p, xofCalls := [] }) : CompletesOk i s (ptBytes p) false [] :=
  completesOk_of_runOf hs (h.trans (by rw [retPt_eq]))

/-- A command that returns a flag alone publishes no bytes (R79). -/
theorem completesOk_of_retFlag {i : Instr} {s : State} {sn : Snap} {flag : Bool} (hs : s.snap = some sn)
    (h : runOf i sn = { outcome := retFlag flag, xofCalls := [] }) : CompletesOk i s [] flag [] :=
  completesOk_of_runOf hs h

/-! ## PT_ADD and PT_DBL on their operands -/

theorem ptAdd_completes {s : State} {sn : Snap} (hs : s.snap = some sn) :
    CompletesOk .ptAdd s (ptBytes (ptAdd coreConfig (ptVal sn 0) (ptVal sn 4))) false [] := by
  rw [← Snap.ptOperand_eq, ← Snap.ptOperand_eq]
  exact completesOk_of_retPt hs rfl

theorem ptDbl_completes {s : State} {sn : Snap} (hs : s.snap = some sn) :
    CompletesOk .ptDbl s (ptBytes (ptDbl (ptVal sn 0))) false [] := by
  rw [← Snap.ptOperand_eq]
  exact completesOk_of_retPt hs rfl

/-- Settles O37: the lines of R144 are those of `ptAdd`. -/
theorem ptAddPublishesTheFormulas : Obligations.PtAddPublishesTheFormulas := by
  refine ⟨decode_encode .ptAdd, ?_⟩
  rintro s sn _ _ _ _ _ _ _ _ _ _ _ _ _ _ _ _ hs rfl rfl rfl rfl rfl rfl rfl rfl rfl rfl rfl rfl rfl rfl rfl rfl
  exact ptAdd_completes hs

/-- Settles O38: the lines of R145 are those of `ptDbl`, which reads X, Y and Z only. -/
theorem ptDblPublishesTheFormulas : Obligations.PtDblPublishesTheFormulas := by
  refine ⟨decode_encode .ptDbl, ?_⟩
  rintro s sn _ _ _ _ _ _ _ _ _ _ _ _ hs rfl rfl rfl rfl rfl rfl rfl rfl rfl rfl rfl rfl
  exact ptDbl_completes hs

/-! ## The adder and the doubler, whatever the operands -/

theorem f2Mul_comm (x y : Fp2) : f2Mul x y = f2Mul y x := by
  apply quad_injective
  rw [quad_f2Mul, quad_f2Mul, mul_comm]

theorem f2Mul_right_comm (x y z : Fp2) : f2Mul (f2Mul x y) z = f2Mul (f2Mul x z) y := by
  apply quad_injective
  simp only [quad_f2Mul]
  rw [mul_right_comm]

theorem f2Mul_f2Add_self_comm (x y : Fp2) : f2Mul (f2Add x x) y = f2Mul (f2Add y y) x := by
  apply quad_injective
  simp only [quad_f2Mul, quad_f2Add]
  ring

/-- EH · FG = EF · GH: what the last lines of R144 and R145 make of T·Z and X·Y. -/
theorem f2Mul_efgh (e f g h : Fp2) : f2Mul (f2Mul e h) (f2Mul f g) = f2Mul (f2Mul e f) (f2Mul g h) := by
  apply quad_injective
  simp only [quad_f2Mul]
  ring

/-- A, B, C and Dz of the adder are symmetric, and nothing else enters the result (R144). -/
theorem ptAdd_comm (cfg : Config) (p q : Point) : ptAdd cfg p q = ptAdd cfg q p := by
  simp only [ptAdd, f2Mul_comm (f2Sub p.y p.x), f2Mul_comm (f2Add p.y p.x), f2Mul_right_comm _ p.t,
    f2Mul_f2Add_self_comm p.z]

theorem ptAdd_segre (cfg : Config) (p q : Point) :
    f2Mul (ptAdd cfg p q).t (ptAdd cfg p q).z = f2Mul (ptAdd cfg p q).x (ptAdd cfg p q).y :=
  f2Mul_efgh _ _ _ _

theorem ptDbl_segre (p : Point) : f2Mul (ptDbl p).t (ptDbl p).z = f2Mul (ptDbl p).x (ptDbl p).y :=
  f2Mul_efgh _ _ _ _

theorem quad_four : quad { re := Fp.ofNat 4, im := Fp.ofNat 0 } = 4 := by
  have h : ({ re := Fp.ofNat 4, im := Fp.ofNat 0 } : Fp2) = f2Add (f2Add f2One f2One) (f2Add f2One f2One) := by decide
  rw [h]
  simp only [quad_f2Add, quad_f2One]
  norm_num

/-- With PT_ID the adder's quantities are E = 2X, F = G = 2Z and H = 2Y (R144). -/
theorem ptAdd_ptId (cfg : Config) (p : Point) {four : Fp2} (h : quad four = 4) :
    ptAdd cfg ptId p =
      { x := f2Mul four (f2Mul p.x p.z), y := f2Mul four (f2Mul p.y p.z), z := f2Mul four (f2Mul p.z p.z),
        t := f2Mul four (f2Mul p.x p.y) } := by
  simp only [ptAdd, ptId, Point.mk.injEq]
  refine ⟨?_, ?_, ?_, ?_⟩
  all_goals
    apply quad_injective
    simp only [quad_f2Mul, quad_f2Add, quad_f2Sub, quad_f2One, quad_f2Zero, h]
    ring

/-- Settles O39. -/
theorem ptAddFacts : Obligations.PtAddFacts := fun cfg p q =>
  ⟨ptAdd_comm cfg p q, ptAdd_segre cfg p q, ptDbl_segre p, fun _ hfour => ptAdd_ptId cfg p (hfour ▸ quad_four)⟩

/-- Settles O40: the group law of the supplied curve is complete. -/
theorem validPointsStayValid : Obligations.ValidPointsStayValid := fun _ _ hp hq => ⟨hp.add hq, hp.double⟩

/-! ## PT_AFFINE -/

/-- `pt_affine` case by case (R146). -/
theorem ptAffine_of_zero {p : Point} (h : p.z = f2Zero) : ptAffine p = .error .domain := by
  rw [ptAffine, h, f2Inv_f2Zero]
  rfl

theorem ptAffine_of_inv {p : Point} {zi : Fp2} (h : f2Inv p.z = .ok zi) :
    ptAffine p = .ok { x := f2Mul p.x zi, y := f2Mul p.y zi } := by
  rw [ptAffine, h]
  rfl

/-- A product with the inverse of `z` is the quotient by `z`. -/
theorem f2Mul_f2Mul_f2Inv {z zi : Fp2} (h : f2Inv z = .ok zi) (x : Fp2) : f2Mul (f2Mul x zi) z = x := by
  apply quad_injective
  rw [quad_f2Mul, quad_f2Mul, mul_assoc, mul_comm (quad zi), quad_mul_f2Inv h, mul_one]

/-- `pt_affine` answers the quotients by Z, for every nonzero Z (R146). -/
theorem ptAffine_of_ne_zero {p : Point} (h : p.z ≠ f2Zero) :
    ∃ a, ptAffine p = .ok a ∧ f2Mul a.x p.z = p.x ∧ f2Mul a.y p.z = p.y := by
  obtain ⟨zi, hzi⟩ := f2Inv_of_ne_zero h
  exact ⟨_, ptAffine_of_inv hzi, f2Mul_f2Mul_f2Inv hzi p.x, f2Mul_f2Mul_f2Inv hzi p.y⟩

/-- PT_AFFINE case by case (R146). -/
theorem ptAffineCmd_of_error {sn : Snap} {e : ErrCode} (h : ptAffine (ptVal sn 0) = .error e) :
    ptAffineCmd sn = .error e := by
  rw [← Snap.ptOperand_eq] at h
  rw [ptAffineCmd, h]
  rfl

theorem ptAffineCmd_of_ok {sn : Snap} {a : Affine} (h : ptAffine (ptVal sn 0) = .ok a) :
    ptAffineCmd sn = .ok { out := f2Bytes a.x ++ f2Bytes a.y, flag := false } := by
  rw [← Snap.ptOperand_eq] at h
  simp only [ptAffineCmd, h, f2Enc_eq, Bind.bind, Except.bind, Pure.pure, Except.pure]

/-- Settles O41: `pt_affine` answers exactly when Z is not (0, 0). -/
theorem ptAffineDividesByZ : Obligations.PtAffineDividesByZ := by
  refine ⟨decode_encode .ptAffine, fun s sn hs => ⟨fun hne => ?_, fun hzero => ?_⟩⟩
  · obtain ⟨a, ha, hx, hy⟩ := ptAffine_of_ne_zero (p := ptVal sn 0) hne
    have hrun : runOf .ptAffine sn =
        { outcome := .ok { out := f2Bytes a.x ++ f2Bytes a.y, flag := false }, xofCalls := [] } :=
      congrArg (CmdRun.mk · []) (ptAffineCmd_of_ok ha)
    exact ⟨a.x, a.y, hx, hy, completesOk_of_runOf hs hrun⟩
  · have herr : ptAffineCmd sn = .error .domain := ptAffineCmd_of_error (ptAffine_of_zero hzero)
    exact completesErr_of_runOf (e := .domain) hs (congrArg (CmdRun.mk · []) herr)

/-! ## PT_ONCURVE -/

/-- `pt_on_curve` is the exact test of the curve equation (R143). -/
theorem ptOnCurve_iff {cfg : Config} {x y : Fp2} :
    ptOnCurve cfg { x := x, y := y } = true ↔
      f2Sub (f2Sqr y) (f2Sqr x) = f2Add f2One (f2Mul cfg.d (f2Mul (f2Sqr x) (f2Sqr y))) := beq_iff_eq

/-- Settles O42. -/
theorem ptOncurveTestsTheEquation : Obligations.PtOncurveTestsTheEquation := by
  refine ⟨decode_encode .ptOncurve, ?_⟩
  rintro s sn _ _ hs rfl rfl
  refine ⟨ptOnCurve coreConfig { x := f2Val sn 0, y := f2Val sn 1 }, ?_, ptOnCurve_iff⟩
  rw [← Snap.f2Operand_eq, ← Snap.f2Operand_eq]
  exact completesOk_of_retFlag hs rfl

/-! ## The sign bit -/

/-- The component of `x` whose top bit is its sign (R148). -/
def signComponent (x : Fp2) : Fp := if x.re.val ≠ 0 then x.re else x.im

theorem xSign_eq (x : Fp2) : xSign x = ((signComponent x).val.testBit 126).toNat := rfl

theorem flagBit_toNat (b : Bool) : flagBit b.toNat = b := by cases b <;> rfl

theorem signComponent_f2Val (sn : Snap) (k : Nat) :
    (signComponent (f2Val sn k)).val = if loVal sn k ≠ 0 then loVal sn k else hiVal sn k := by
  have hre : (f2Val sn k).re.val = loVal sn k := Nat.mod_mod _ _
  have him : (f2Val sn k).im.val = hiVal sn k := Nat.mod_mod _ _
  rw [signComponent, apply_ite Fin.val, hre, him]

/-- Settles O43. -/
theorem ptSignPublishesBit126 : Obligations.PtSignPublishesBit126 := by
  refine ⟨decode_encode .ptSign, fun s sn hs => ?_⟩
  rw [← signComponent_f2Val, ← flagBit_toNat (Nat.testBit _ _), ← xSign_eq, ← Snap.f2Operand_eq]
  exact completesOk_of_retFlag hs rfl

theorem fpNeg_val_of_ne_zero {a : Fp} (h : a.val ≠ 0) : (fpNeg a).val = P - a.val := by
  rw [fpNeg, Fp.ofNat_val, if_neg h, Nat.mod_eq_of_lt (by omega)]

theorem fpNeg_val_eq_zero_iff {a : Fp} : (fpNeg a).val = 0 ↔ a.val = 0 := by
  rw [← residue_eq_zero_iff, residue_fpNeg, neg_eq_zero, residue_eq_zero_iff]

/-- P is 127 one bits, so that negation complements every bit of a nonzero element (R6, R104). -/
theorem fpNeg_testBit_126 {a : Fp} (h : a.val ≠ 0) : (fpNeg a).val.testBit 126 = !a.val.testBit 126 := by
  have hlt : a.val < 2 ^ 127 := a.isLt.trans (by decide)
  have hP : P + 1 = 2 ^ 127 := rfl
  have hneg : P - a.val = 2 ^ 127 - (a.val + 1) := by omega
  rw [fpNeg_val_of_ne_zero h, hneg, Nat.testBit_two_pow_sub_succ hlt]
  rfl

/-- Negation keeps which component is the sign's. -/
theorem signComponent_f2Neg (x : Fp2) : signComponent (f2Neg x) = fpNeg (signComponent x) := by
  simp only [signComponent, f2Neg_re, f2Neg_im, ne_eq, fpNeg_val_eq_zero_iff]
  split <;> rfl

theorem signComponent_ne_zero {x : Fp2} (h : x ≠ f2Zero) : (signComponent x).val ≠ 0 := by
  intro hzero
  rw [signComponent] at hzero
  split at hzero
  · next hre => exact hre hzero
  · next hre =>
    refine quad_ne_zero_iff.mpr h ?_
    have hre0 : residue x.re = 0 := (residue_eq_zero_iff _).mpr (not_not.mp hre)
    have him0 : residue x.im = 0 := (residue_eq_zero_iff _).mpr hzero
    ext
    · exact hre0
    · exact him0

theorem toNat_not_eq_sub (b : Bool) : (!b).toNat = 1 - b.toNat := by cases b <;> rfl

theorem xSign_f2Neg {x : Fp2} (h : x ≠ f2Zero) : xSign (f2Neg x) = 1 - xSign x := by
  rw [xSign_eq, xSign_eq, signComponent_f2Neg, fpNeg_testBit_126 (signComponent_ne_zero h), toNat_not_eq_sub]

/-- Settles O44. -/
theorem signBitFlipsUnderNegation : Obligations.SignBitFlipsUnderNegation := fun _ =>
  ⟨xSign_f2Neg, by decide, Bool.toNat_le _⟩

/-! ## Scalar multiplication -/

/-- What bit `i` of the scalar `k` does to the accumulator `r`: it adds the point doubled `i` times (R149). -/
def addBit (cfg : Config) (p : Point) (k : Nat) (r : Point) (i : Nat) : Point :=
  if k.testBit i then ptAdd cfg r (ptDbl^[i] p) else r

theorem addBit_zero (cfg : Config) (p r : Point) (k : Nat) :
    addBit cfg p k r 0 = if k % 2 = 1 then ptAdd cfg r p else r := by
  simp [addBit, Nat.testBit_zero]

/-- Bit `i + 1` of `k` is bit `i` of its half, for the doubled point. -/
theorem addBit_succ (cfg : Config) (p r : Point) (k i : Nat) :
    addBit cfg p k r (i + 1) = addBit cfg (ptDbl p) (k / 2) r i := by
  rw [addBit, addBit, Nat.testBit_succ, Function.iterate_succ_apply]

theorem foldl_addBit_zero (cfg : Config) (p r : Point) (is : List Nat) : is.foldl (addBit cfg p 0) r = r := by
  induction is with
  | nil => rfl
  | cons i is ih => rw [List.foldl_cons, addBit, Nat.zero_testBit, if_neg Bool.false_ne_true, ih]

theorem foldl_addBit_succ (cfg : Config) (p r : Point) (k n : Nat) :
    (List.range (n + 1)).foldl (addBit cfg p k) r
      = (List.range n).foldl (addBit cfg (ptDbl p) (k / 2)) (addBit cfg p k r 0) := by
  simp only [List.range_succ_eq_map, List.foldl_cons, List.foldl_map, addBit_succ]

/-- The loop of `pt_smul` takes in the bits in order, and stops where no 1 bit is left: any bound `m` on the bits of
the scalar gives the same (R149). -/
theorem ptSmulLoop_eq_foldl (cfg : Config) {n m : Nat} (p r : Point) {k : Nat} (hn : k < 2 ^ n) (hm : k < 2 ^ m) :
    ptSmulLoop cfg n r p k = (List.range m).foldl (addBit cfg p k) r := by
  induction n generalizing m p r k with
  | zero =>
    obtain rfl : k = 0 := by simpa using hn
    rw [foldl_addBit_zero, ptSmulLoop]
  | succ n ih =>
    rw [ptSmulLoop]
    split
    · next hk => rw [hk, foldl_addBit_zero]
    · next hk =>
      cases m with
      | zero => exact absurd (by simpa using hm) hk
      | succ m =>
        rw [foldl_addBit_succ, addBit_zero]
        exact ih (m := m) _ _ (by omega) (by omega)

theorem ptSmul_eq_foldl (cfg : Config) {m : Nat} (p : Point) {k : Nat} (hm : k < 2 ^ m) :
    ptSmul cfg p k = (List.range m).foldl (addBit cfg p k) ptId :=
  ptSmulLoop_eq_foldl cfg p ptId Nat.lt_log2_self hm

/-- A scalar operand has 256 bits (R75). -/
theorem scVal_lt (sn : Snap) (k : Nat) : scVal sn k < 2 ^ 256 := by
  have h := leNat_lt (slice sn.bytes (32 * k) 32)
  rwa [slice_length] at h

theorem ptSmul_completes {s : State} {sn : Snap} (hs : s.snap = some sn) :
    CompletesOk .ptSmul s (ptBytes (ptSmul coreConfig (ptVal sn 0) (scVal sn 4))) false [] := by
  rw [← Snap.ptOperand_eq, ← Snap.scOperand_eq]
  exact completesOk_of_retPt hs rfl

theorem ptSmulb_completes {s : State} {sn : Snap} (hs : s.snap = some sn) :
    CompletesOk .ptSmulb s (ptBytes (ptSmul coreConfig (basePoint coreConfig) (scVal sn 0))) false [] := by
  rw [← Snap.scOperand_eq]
  exact completesOk_of_retPt hs rfl

/-- Settles O45. -/
theorem scalarMultiplicationIsDoubleAndAdd : Obligations.ScalarMultiplicationIsDoubleAndAdd := by
  refine ⟨decode_encode .ptSmul, decode_encode .ptSmulb, fun s sn hs => ⟨?smul, ?smulb⟩⟩
  case smul =>
    have hrun := ptSmul_completes hs
    rw [ptSmul_eq_foldl coreConfig _ (scVal_lt sn 4)] at hrun
    exact hrun
  case smulb =>
    have hrun := ptSmulb_completes hs
    rw [ptSmul_eq_foldl coreConfig _ (scVal_lt sn 0)] at hrun
    exact hrun

end Sys2Proof.Machine
end

section
/-! PROOFS, family 43_codec.md: the bits of an encoding that the codec tests and sets (R76, R77), and what the
validators and the assertions make of them (R174 to R177). -/

namespace Sys2Proof.Machine

/-! ## Bits of a byte -/

/-- Bit 7, the top bit of a byte (R12). -/
theorem getLsbD_seven (b : Byte) : b.getLsbD 7 = decide (128 ≤ b.toNat) := by
  have hb := b.isLt
  rw [BitVec.getLsbD, Nat.testBit_eq_decide_div_mod_eq, decide_eq_decide]
  omega

/-- Bits 7:6 (R175). -/
theorem and_0xC0_eq_zero_iff : ∀ b : Byte, b &&& 0xC0 = 0 ↔ b.toNat < 64 := by decide

theorem byte_toNat_eq_zero_iff (b : Byte) : b.toNat = 0 ↔ b = 0 := BitVec.toNat_inj (y := 0#8)

/-! ## The structure of an encoding -/

theorem byteAt_slice {bs : List Byte} {n k : Nat} (h : k < n) : byteAt (slice bs 0 n) k = bs.getD k 0 := by
  rw [byteAt, slice_getD, if_pos h, Nat.zero_add]

theorem pkStructure_slice (bs : List Byte) :
    pkStructure (slice bs 0 32) = decide ((bs.getD 15 0).toNat < 128) := by
  rw [pkStructure, byteAt_slice (by decide), getLsbD_seven, ← decide_not, decide_eq_decide, Nat.not_le]

theorem sigStructure_slice (bs : List Byte) :
    sigStructure (slice bs 0 64) =
      decide ((bs.getD 15 0).toNat < 128 ∧ (bs.getD 62 0).toNat < 64 ∧ (bs.getD 63 0).toNat = 0) := by
  rw [sigStructure, byteAt_slice (by decide), byteAt_slice (by decide), byteAt_slice (by decide), getLsbD_seven,
    Bool.eq_iff_iff]
  simp only [Bool.and_eq_true, Bool.not_eq_true', decide_eq_false_iff_not, Nat.not_le, beq_iff_eq,
    and_0xC0_eq_zero_iff, byte_toNat_eq_zero_iff, decide_eq_true_eq, and_assoc]

/-! ## VAL_PK and VAL_SIG -/

/-- VAL_PK answers its predicate (R174). -/
theorem valPkCmd_eq (sn : Snap) :
    valPkCmd sn = retFlag (decide (sn.len0.toNat = 32 ∧ (sn.bytes.getD 15 0).toNat < 128)) := by
  by_cases hlen : sn.len0.toNat = 32
  · simp [valPkCmd, Snap.bytesOperand, hlen, validPk, pkStructure_slice]
  · simp [valPkCmd, Snap.bytesOperand, hlen]

/-- VAL_SIG answers its predicate (R175). -/
theorem valSigCmd_eq (sn : Snap) :
    valSigCmd sn = retFlag (decide (sn.len0.toNat = 64 ∧ (sn.bytes.getD 15 0).toNat < 128
      ∧ (sn.bytes.getD 62 0).toNat < 64 ∧ (sn.bytes.getD 63 0).toNat = 0)) := by
  by_cases hlen : sn.len0.toNat = 64
  · simp [valSigCmd, Snap.bytesOperand, hlen, validSig, sigStructure_slice]
  · simp [valSigCmd, Snap.bytesOperand, hlen]

/-- Settles O51. -/
theorem validatorsPublishTheStructure : Obligations.ValidatorsPublishTheStructure :=
  ⟨decode_encode .valPk, decode_encode .valSig, fun _ sn hs =>
    ⟨completesOk_of_retFlag hs (congrArg (CmdRun.mk · []) (valPkCmd_eq sn)),
      completesOk_of_retFlag hs (congrArg (CmdRun.mk · []) (valSigCmd_eq sn))⟩⟩

/-! ## CHK_PK and CHK_SIG -/

/-- CHK_PK case by case: the length, then the structure (R176). -/
theorem chkPkCmd_of_bad_length {sn : Snap} (h : sn.len0.toNat ≠ 32) : chkPkCmd sn = .error .invalidLength := by
  rw [chkPkCmd, Snap.bytesOperand_eq_none.mpr h]

theorem chkPkCmd_of_length {sn : Snap} (h : sn.len0.toNat = 32) :
    chkPkCmd sn = if (sn.bytes.getD 15 0).toNat < 128 then retFlag false else .error .badPubkey := by
  rw [chkPkCmd, Snap.bytesOperand_eq_some.mpr ⟨h, rfl⟩]
  simp only [pkStructure_slice, decide_eq_true_eq]

/-- CHK_SIG case by case: the length, then the structure (R177). -/
theorem chkSigCmd_of_bad_length {sn : Snap} (h : sn.len0.toNat ≠ 64) : chkSigCmd sn = .error .invalidLength := by
  rw [chkSigCmd, Snap.bytesOperand_eq_none.mpr h]

theorem chkSigCmd_of_length {sn : Snap} (h : sn.len0.toNat = 64) :
    chkSigCmd sn =
      if (sn.bytes.getD 15 0).toNat < 128 ∧ (sn.bytes.getD 62 0).toNat < 64 ∧ (sn.bytes.getD 63 0).toNat = 0 then
        retFlag false
      else .error .badSignature := by
  rw [chkSigCmd, Snap.bytesOperand_eq_some.mpr ⟨h, rfl⟩]
  simp only [sigStructure_slice, decide_eq_true_eq]

/-- Settles O52: both assertions test the length, then the structure. -/
theorem assertionsRaiseByCause : Obligations.AssertionsRaiseByCause := by
  refine ⟨decode_encode .chkPk, decode_encode .chkSig, fun s sn hs =>
    ⟨fun hlen => ?pkLength, fun hlen hbit => ?pkStructure, fun hlen hbit => ?pkOk, fun hlen => ?sigLength,
      fun hlen hcause => ?sigStructure, fun hlen h15 h62 h63 => ?sigOk⟩⟩
  case pkLength =>
    exact completesErr_of_runOf (e := .invalidLength) hs (congrArg (CmdRun.mk · []) (chkPkCmd_of_bad_length hlen))
  case pkStructure =>
    have herr := (chkPkCmd_of_length hlen).trans (if_neg (Nat.not_lt.mpr hbit))
    exact completesErr_of_runOf (e := .badPubkey) hs (congrArg (CmdRun.mk · []) herr)
  case pkOk =>
    have hok := (chkPkCmd_of_length hlen).trans (if_pos hbit)
    exact completesOk_of_retFlag hs (congrArg (CmdRun.mk · []) hok)
  case sigLength =>
    exact completesErr_of_runOf (e := .invalidLength) hs (congrArg (CmdRun.mk · []) (chkSigCmd_of_bad_length hlen))
  case sigStructure =>
    have herr := (chkSigCmd_of_length hlen).trans (if_neg (by omega))
    exact completesErr_of_runOf (e := .badSignature) hs (congrArg (CmdRun.mk · []) herr)
  case sigOk =>
    have hok := (chkSigCmd_of_length hlen).trans (if_pos ⟨h15, h62, h63⟩)
    exact completesOk_of_retFlag hs (congrArg (CmdRun.mk · []) hok)

end Sys2Proof.Machine
end

section
/-! PROOFS, family 43_codec.md: the last byte of a sequence of bytes, the two halves of an encoding (R76), and the
encoder (R170). -/

namespace Sys2Proof.Machine

/-! ## The last byte of a sequence -/

/-- The last byte is what the bytes before it leave of the integer (R13). -/
theorem leNat_modify_last {bs : List Byte} {n : Nat} (h : bs.length = n + 1) (f : Byte → Byte) :
    leNat (bs.modify n f) = leNat bs % 256 ^ n + 256 ^ n * (f (bs.getD n 0)).toNat := by
  induction n generalizing bs with
  | zero =>
    obtain ⟨b, rfl⟩ := List.length_eq_one_iff.mp h
    simp [leNat, Nat.mod_one]
  | succ n ih =>
    cases bs with
    | nil => cases h
    | cons b bs =>
      have hb := b.isLt
      have hmod : (b.toNat + 256 * leNat bs) % 256 = b.toNat := by omega
      have hdiv : (b.toNat + 256 * leNat bs) / 256 = leNat bs := by omega
      rw [List.modify_succ_cons, leNat, ih (Nat.succ.inj h), leNat, List.getD_cons_succ, pow_succ', Nat.mod_mul, hmod,
        hdiv]
      ring

theorem getD_last_toNat {bs : List Byte} {n : Nat} (h : bs.length = n + 1) :
    (bs.getD n 0).toNat = leNat bs / 256 ^ n := by
  have hlast := leNat_modify_last h id
  rw [List.modify_id, id] at hlast
  have hpos : 0 < 256 ^ n := by positivity
  have hdiv := Nat.mod_add_div (leNat bs) (256 ^ n)
  exact Nat.eq_of_mul_eq_mul_left hpos (by omega)

/-- The last byte of a half. -/
theorem slice_getD_last (bs : List Byte) (i : Nat) :
    ((slice bs i 16).getD 15 0).toNat = leNat (slice bs i 16) / 256 ^ 15 := getD_last_toNat (slice_length _ _ _)

theorem slice_modify_of_le {bs : List Byte} {i n k : Nat} (h : i + n ≤ k) (f : Byte → Byte) :
    slice (bs.modify k f) i n = slice bs i n := by
  apply List.ext_getElem (by simp)
  intro j hj _
  have hne : k ≠ i + j := by
    rw [slice_length] at hj
    omega
  simp [slice, List.getD_eq_getElem?_getD, List.getElem?_modify_ne _ _ hne]

theorem slice_modify_add {bs : List Byte} {i k : Nat} (h : i + k < bs.length) (n : Nat) (f : Byte → Byte) :
    slice (bs.modify (i + k) f) i n = (slice bs i n).modify k f := by
  apply List.ext_getElem (by simp)
  intro j hj _
  by_cases hk : k = j
  · subst hk
    simp [slice, List.getD_eq_getElem?_getD, h]
  · simp [slice, List.getD_eq_getElem?_getD, hk]

/-- The integer of the upper half of 32 bytes whose last byte is changed. -/
theorem leNat_upper_modify_last {bs : List Byte} (h : bs.length = 32) (f : Byte → Byte) :
    leNat (slice (bs.modify 31 f) 16 16)
      = leNat (slice bs 16 16) % 256 ^ 15 + 256 ^ 15 * (f ((slice bs 16 16).getD 15 0)).toNat := by
  have hslice : slice (bs.modify 31 f) 16 16 = (slice bs 16 16).modify 15 f :=
    slice_modify_add (i := 16) (k := 15) (by rw [h]; decide) 16 f
  rw [hslice, leNat_modify_last (slice_length _ _ _)]

/-! ## The sign bit of an encoding -/

theorem toNat_and_0x7F (b : Byte) : (b &&& 0x7F).toNat = b.toNat % 128 := by
  rw [BitVec.toNat_and]
  exact Nat.and_two_pow_sub_one_eq_mod b.toNat 7

/-- The last byte of an encoding (R170): seven bits of y and the sign. -/
theorem withSignBit_toNat {sign : Nat} (h : sign ≤ 1) (b : Byte) :
    (withSignBit sign b).toNat = b.toNat % 128 + 128 * sign := by
  have hlow : b.toNat % 128 < 2 ^ 7 := Nat.mod_lt _ (by decide)
  have hsign : (sign * 0x80) % 2 ^ 8 = 2 ^ 7 * sign := by omega
  rw [withSignBit, BitVec.toNat_or, toNat_and_0x7F, BitVec.toNat_ofNat, hsign, Nat.or_comm,
    ← Nat.two_pow_add_eq_or_of_lt hlow, Nat.add_comm]

theorem xSign_le_one (x : Fp2) : xSign x ≤ 1 := Bool.toNat_le _

theorem Fp.val_lt_two_pow (a : Fp) : a.val < 2 ^ 127 := a.isLt.trans (by decide)

theorem slice_f2Bytes_lower (x : Fp2) : slice (f2Bytes x) 0 16 = bytesN 16 x.re.val := by
  rw [f2Bytes, slice_append_left (by simp)]
  exact (congrArg (slice _ 0) (bytesN_length 16 x.re.val).symm).trans slice_self

theorem slice_f2Bytes_upper (x : Fp2) : slice (f2Bytes x) 16 16 = bytesN 16 x.im.val := by
  rw [f2Bytes, slice_append_right (by simp), bytesN_length]
  exact (congrArg (slice _ 0) (bytesN_length 16 x.im.val).symm).trans slice_self

/-- The two halves of an encoding (R76, R170). -/
theorem leNat_lower_encoding (y : Fp2) (sign : Nat) :
    leNat (slice ((f2Bytes y).modify 31 (withSignBit sign)) 0 16) = y.re.val := by
  have hre := Fp.val_lt_two_pow y.re
  rw [slice_modify_of_le (by decide), slice_f2Bytes_lower, leNat_bytesN_of_lt (by omega)]

theorem leNat_upper_encoding (y : Fp2) {sign : Nat} (h : sign ≤ 1) :
    leNat (slice ((f2Bytes y).modify 31 (withSignBit sign)) 16 16) = y.im.val + 2 ^ 127 * sign := by
  have him := Fp.val_lt_two_pow y.im
  rw [leNat_upper_modify_last (f2Bytes_length y), withSignBit_toNat h, slice_getD_last,
    slice_f2Bytes_upper, leNat_bytesN_of_lt (by omega)]
  omega

/-! ## PT_ENC -/

/-- PT_ENC case by case (R170). -/
theorem ptEncCmd_of_error {sn : Snap} {e : ErrCode} (h : ptAffine (ptVal sn 0) = .error e) :
    ptEncCmd sn = .error e := by
  rw [← Snap.ptOperand_eq] at h
  rw [ptEncCmd, ptEncode, h]
  rfl

theorem ptEncCmd_of_ok {sn : Snap} {e : List Byte} (h : ptEncode (ptVal sn 0) = .ok e) :
    ptEncCmd sn = .ok { out := e, flag := false } := by
  rw [← Snap.ptOperand_eq] at h
  rw [ptEncCmd, h]
  rfl

/-- Settles O46: `pt_encode` answers exactly when Z is not (0, 0), and its halves are those of y and the sign. -/
theorem ptEncPublishesYAndSign : Obligations.PtEncPublishesYAndSign := by
  refine ⟨decode_encode .ptEnc, fun s sn hs => ⟨fun hne => ?_, fun hzero => ?_⟩⟩
  · obtain ⟨a, ha, hx, hy⟩ := ptAffine_of_ne_zero (p := ptVal sn 0) hne
    have henc := ptEncode_eq_ok.mpr ⟨a, ha, rfl⟩
    have hrun : runOf .ptEnc sn = { outcome := .ok { out := _, flag := false }, xofCalls := [] } :=
      congrArg (CmdRun.mk · []) (ptEncCmd_of_ok henc)
    exact ⟨a.x, a.y, _, hx, hy, ptEncode_length henc, leNat_lower_encoding _ _,
      leNat_upper_encoding _ (xSign_le_one a.x), completesOk_of_runOf hs hrun⟩
  · have herr : ptEncCmd sn = .error .domain := ptEncCmd_of_error (ptAffine_of_zero hzero)
    exact completesErr_of_runOf (e := .domain) hs (congrArg (CmdRun.mk · []) herr)

end Sys2Proof.Machine
end

section
/-! PROOFS, family 43_codec.md: PT_DEC (R171): what it parses, the quotient x² that every y has on the supplied curve,
the root that is found for it, and the round trip with PT_ENC (R173). -/

namespace Sys2Proof.Machine

/-- Settles O50. -/
theorem decodeNeverLeavesTheCurve : Obligations.DecodeNeverLeavesTheCurve := fun cfg b h =>
  absurd (ptDecode_raises cfg b _ h) (by decide)

/-! ## The root that `f2_sqrt` finds -/

/-- The square of a real element is real (R124). -/
theorem f2Sqr_eq_iff_of_real {c u : Fp2} (hc : c.im.val = 0) (hu : u.im.val = 0) :
    f2Sqr c = u ↔ fpSqr c.re = u.re := by
  have hc0 := (residue_eq_zero_iff _).mpr hc
  have hu0 := (residue_eq_zero_iff _).mpr hu
  rw [← quad_injective.eq_iff, ← residue_injective.eq_iff, QuadraticAlgebra.ext_iff]
  simp [quad, residue_f2Sqr_re, residue_f2Sqr_im, hc0, hu0]

/-- `f2_sqrt` answers NoRoot exactly when there is no root, or for a real operand no real one (R126). -/
theorem f2Sqrt_eq_none_iff {u : Fp2} {root : Option Fp2} (h : f2Sqrt u = .ok root) :
    root = none ↔ ¬∃ c, f2Sqr c = u ∧ (u.im.val = 0 → c.im.val = 0) := by
  by_cases him : u.im.val = 0
  · rw [f2Sqrt_of_real him] at h
    obtain rfl := Except.ok.inj h
    rw [Option.map_eq_none_iff, fpSqrt_eq_none_iff, ← not_exists, not_iff_not]
    constructor
    · rintro ⟨r, hr⟩
      exact ⟨{ re := r, im := Fp.ofNat 0 }, (f2Sqr_eq_iff_of_real rfl him).mpr hr, fun _ => rfl⟩
    · rintro ⟨c, hc, hreal⟩
      exact ⟨c.re, (f2Sqr_eq_iff_of_real (hreal him) him).mp hc⟩
  · rcases f2Sqrt_decides_of_not_real him with ⟨c, hc, -⟩ | ⟨hnone, hno⟩
    · obtain rfl := Except.ok.inj (h.symm.trans hc)
      exact iff_of_false nofun (not_not.mpr ⟨c, f2Sqr_of_f2Sqrt hc, fun hreal => absurd hreal him⟩)
    · obtain rfl := Except.ok.inj (h.symm.trans hnone)
      exact iff_of_true rfl fun ⟨c, hc, _⟩ => hno c hc

/-- The roots of a square are two, for Fp2 has no zero divisors. -/
theorem eq_or_eq_f2Neg_of_f2Sqr {c x : Fp2} (h : f2Sqr c = f2Sqr x) : c = x ∨ c = f2Neg x := by
  have := quadP_isDomain
  have hquad := congrArg quad h
  rw [quad_f2Sqr, quad_f2Sqr, mul_self_eq_mul_self_iff, ← quad_f2Neg] at hquad
  exact hquad.imp (quad_injective ·) (quad_injective ·)

/-! ## The sign of the root -/

/-- The root with the sign asked for (R171); `ptDecodeY_eq` ties it to the model. -/
def signedRoot (x0 : Fp2) (sign : Nat) : Fp2 := if xSign x0 ≠ sign then f2Neg x0 else x0

theorem f2Neg_f2Zero : f2Neg f2Zero = f2Zero := by decide

theorem f2Neg_f2Neg (x : Fp2) : f2Neg (f2Neg x) = x := by
  apply quad_injective
  rw [quad_f2Neg, quad_f2Neg, neg_neg]

theorem signedRoot_f2Zero (sign : Nat) : signedRoot f2Zero sign = f2Zero := by
  rw [signedRoot, f2Neg_f2Zero, ite_self]

theorem f2Sqr_signedRoot (x0 : Fp2) (sign : Nat) : f2Sqr (signedRoot x0 sign) = f2Sqr x0 := by
  rw [signedRoot, apply_ite f2Sqr, f2Sqr_f2Neg, ite_self]

/-- The decoded x has the sign asked for, but for x = (0, 0) (R171 corner case 1). -/
theorem xSign_signedRoot {x0 : Fp2} {sign : Nat} (hsign : sign ≤ 1) (h : signedRoot x0 sign ≠ f2Zero) :
    xSign (signedRoot x0 sign) = sign := by
  have hx0 : x0 ≠ f2Zero := by
    rintro rfl
    exact h (signedRoot_f2Zero sign)
  have hle := xSign_le_one x0
  rw [signedRoot]
  split
  · rw [xSign_f2Neg hx0]
    omega
  · next heq => exact not_not.mp heq

/-- Either root of x² becomes x by the sign of x. -/
theorem signedRoot_of_f2Sqr {c x : Fp2} {sign : Nat} (hc : f2Sqr c = f2Sqr x) (hsign : x ≠ f2Zero → sign = xSign x) :
    signedRoot c sign = x := by
  by_cases hx : x = f2Zero
  · subst hx
    obtain rfl | rfl := eq_or_eq_f2Neg_of_f2Sqr hc
    · exact signedRoot_f2Zero sign
    · rw [f2Neg_f2Zero, signedRoot_f2Zero]
  · obtain rfl := hsign hx
    obtain rfl | rfl := eq_or_eq_f2Neg_of_f2Sqr hc
    · exact if_neg (not_not.mpr rfl)
    · have hflip : xSign (f2Neg x) ≠ xSign x := by
        have hle := xSign_le_one x
        rw [xSign_f2Neg hx]
        omega
      rw [signedRoot, if_pos hflip, f2Neg_f2Neg]

/-! ## `pt_decode` after the guard -/

/-- What `pt_decode` makes of the answer of `f2_sqrt` (R171); `ptDecodeY_eq` ties it to the model. -/
def pointOfRoot (y : Fp2) (sign : Nat) : Option Fp2 → Except ErrCode Point
  | none => .error .noRoot
  | some x0 => .ok (ptFromAffine { x := signedRoot x0 sign, y := y })

/-- With an inverse of the divisor the root decides, and the curve test never fails (R171). -/
theorem ptDecodeY_eq {cfg : Config} {y di : Fp2} {root : Option Fp2} (sign : Nat)
    (hdi : f2Inv (f2Add (f2Mul cfg.d (f2Sqr y)) f2One) = .ok di)
    (hroot : f2Sqrt (f2Mul (f2Sub (f2Sqr y) f2One) di) = .ok root) :
    ptDecodeY cfg y sign = pointOfRoot y sign root := by
  simp only [ptDecodeY, hdi, hroot, Bind.bind, Except.bind]
  cases root with
  | none => rfl
  | some x0 =>
    have hcurve : ptOnCurve cfg { x := signedRoot x0 sign, y := y } = true :=
      ptOnCurve_of_root hdi ((f2Sqr_signedRoot x0 sign).trans (f2Sqr_of_f2Sqrt hroot))
    exact if_pos hcurve

theorem coreConfig_d : coreConfig.d = curveD := rfl

/-- D·y² + 1 is never zero on the supplied curve: −1 is a square and D is none (R171 corner case 3, GK5). -/
theorem decodeDivisor_ne_zero (y : Fp2) : f2Add (f2Mul curveD (f2Sqr y)) f2One ≠ f2Zero := by
  intro h
  have hzero := congrArg quad h
  simp only [quad_f2Add, quad_f2Mul, quad_f2Sqr, quad_f2One, quad_f2Zero] at hzero
  obtain ⟨i, hi⟩ := curveD_complete.root
  have hy : quad y = 0 := curveD_complete.nonsquare (quad y) i (by linear_combination hzero - hi)
  have := quadP_nontrivial
  simp [hy] at hzero

/-- `pt_decode` on the supplied curve: every y has its quotient u = (y² − 1)/(D·y² + 1), and the root that `f2_sqrt`
finds for u decides (R171). -/
theorem ptDecodeY_decides (y : Fp2) :
    ∃ u root, f2Mul u (f2Add (f2Mul curveD (f2Sqr y)) f2One) = f2Sub (f2Sqr y) f2One ∧ f2Sqrt u = .ok root
      ∧ ∀ sign, ptDecodeY coreConfig y sign = pointOfRoot y sign root := by
  obtain ⟨di, hdi⟩ := f2Inv_of_ne_zero (decodeDivisor_ne_zero y)
  obtain ⟨root, hroot, -⟩ := f2Sqrt_spec (f2Mul (f2Sub (f2Sqr y) f2One) di)
  exact ⟨_, root, f2Mul_f2Mul_f2Inv hdi _, hroot, fun sign => ptDecodeY_eq sign hdi hroot⟩

/-! ## Decoding the y of a curve point -/

/-- The roots of the quotient for y are the x of the curve points with that y: the curve equation rearranged (R143,
R171). -/
theorem f2Sqr_eq_iff_onCurve {x y u : Fp2}
    (hu : f2Mul u (f2Add (f2Mul curveD (f2Sqr y)) f2One) = f2Sub (f2Sqr y) f2One) :
    f2Sqr x = u ↔ ptOnCurve coreConfig { x := x, y := y } = true := by
  have := quadP_isDomain
  have hden := quad_ne_zero_iff.mpr (decodeDivisor_ne_zero y)
  have hq := congrArg quad hu
  rw [ptOnCurve_iff, coreConfig_d, ← quad_injective.eq_iff, ← mul_left_inj' hden, ← quad_injective.eq_iff]
  simp only [quad_f2Add, quad_f2Sub, quad_f2Mul, quad_f2Sqr, quad_f2One] at hq ⊢
  exact ⟨fun h => by linear_combination -h - hq, fun h => by linear_combination -h - hq⟩

/-- An element whose square is real is real or imaginary (R124). -/
theorem im_eq_zero_of_f2Sqr_real {x : Fp2} (hre : x.re.val ≠ 0) (h : (f2Sqr x).im.val = 0) : x.im.val = 0 := by
  have htwo : (2 : ZMod P) ≠ 0 := by decide
  have : Fact P.Prime := ⟨P_prime⟩
  rw [← residue_eq_zero_iff, residue_f2Sqr_im] at h
  rw [Ne, ← residue_eq_zero_iff] at hre
  rw [← residue_eq_zero_iff]
  exact (mul_eq_zero.mp h).resolve_left (mul_ne_zero htwo hre)

/-- The square of an imaginary element is real (R124). -/
theorem f2Sqr_im_eq_zero {x : Fp2} (hre : x.re.val = 0) : (f2Sqr x).im.val = 0 := by
  rw [← residue_eq_zero_iff] at hre ⊢
  rw [residue_f2Sqr_im, hre, mul_zero, zero_mul]

/-- The round trip outside the real-only gap; x = (0, 0) comes back whatever the sign bit (R171 corner case 1, R173). -/
theorem ptDecodeY_of_onCurve {x y : Fp2} {sign : Nat} (hcurve : ptOnCurve coreConfig { x := x, y := y } = true)
    (hx : x.re.val ≠ 0 ∨ x = f2Zero) (hsign : x ≠ f2Zero → sign = xSign x) :
    ptDecodeY coreConfig y sign = .ok (ptFromAffine { x := x, y := y }) := by
  obtain ⟨u, root, hu, hroot, hdecode⟩ := ptDecodeY_decides y
  obtain rfl := (f2Sqr_eq_iff_onCurve hu).mpr hcurve
  rw [hdecode sign]
  cases root with
  | none =>
    have hreal : (f2Sqr x).im.val = 0 → x.im.val = 0 := by
      rcases hx with hre | rfl
      · exact im_eq_zero_of_f2Sqr_real hre
      · exact fun _ => rfl
    exact absurd ⟨x, rfl, hreal⟩ ((f2Sqrt_eq_none_iff hroot).mp rfl)
  | some c => rw [pointOfRoot, signedRoot_of_f2Sqr (f2Sqr_of_f2Sqrt hroot) hsign]

/-- In the real-only gap x² is real and its roots are imaginary (R171 corner case 4, R173). -/
theorem ptDecodeY_of_gap {x y : Fp2} (sign : Nat) (hcurve : ptOnCurve coreConfig { x := x, y := y } = true)
    (hre : x.re.val = 0) (him : x.im.val ≠ 0) : ptDecodeY coreConfig y sign = .error .noRoot := by
  obtain ⟨u, root, hu, hroot, hdecode⟩ := ptDecodeY_decides y
  obtain rfl := (f2Sqr_eq_iff_onCurve hu).mpr hcurve
  have hnone : root = none := by
    refine (f2Sqrt_eq_none_iff hroot).mpr ?_
    rintro ⟨c, hc, hreal⟩
    have hcim := hreal (f2Sqr_im_eq_zero hre)
    obtain rfl | rfl := eq_or_eq_f2Neg_of_f2Sqr hc
    · exact him hcim
    · exact him (fpNeg_val_eq_zero_iff.mp hcim)
  rw [hdecode sign, hnone, pointOfRoot]

/-! ## What PT_DEC parses -/

/-- The y of the operand: each half reduced, the sign bit taken off (R171); `ptDecode_slice` ties it to the model. -/
def encodedY (sn : Snap) : Fp2 :=
  { re := Fp.ofNat (leNat (slice sn.bytes 0 16)), im := Fp.ofNat (leNat (slice sn.bytes 16 16) % 2 ^ 127) }

/-- The sign bit of the operand, bit 7 of byte 31 (R171); `ptDecode_slice` ties it to the model. -/
def encodedSign (sn : Snap) : Nat := leNat (slice sn.bytes 16 16) / 2 ^ 127

theorem encodedSign_le_one (sn : Snap) : encodedSign sn ≤ 1 := by
  have hlt := leNat_lt (slice sn.bytes 16 16)
  rw [slice_length] at hlt
  rw [encodedSign]
  omega

theorem byte31_toNat (bs : List Byte) : (bs.getD 31 0).toNat = leNat (slice bs 16 16) / 256 ^ 15 := by
  rw [← slice_getD_last, slice_getD, if_pos (by decide)]

theorem byte15_toNat (bs : List Byte) : (bs.getD 15 0).toNat = leNat (slice bs 0 16) / 256 ^ 15 := by
  rw [← slice_getD_last, slice_getD, if_pos (by decide), Nat.zero_add]

theorem topBit_byte31 (bs : List Byte) :
    ((bs.getD 31 0).getLsbD 7).toNat = leNat (slice bs 16 16) / 2 ^ 127 := by
  have hlt := (bs.getD 31 0).isLt
  have h31 := byte31_toNat bs
  rw [getLsbD_seven]
  by_cases h : 128 ≤ (bs.getD 31 0).toNat
  · rw [decide_eq_true h, Bool.toNat_true]
    omega
  · rw [decide_eq_false h, Bool.toNat_false]
    omega

/-- The upper half with the sign bit taken off. -/
theorem leNat_upper_clearTop {b : List Byte} (h : b.length = 32) :
    leNat (slice (b.modify 31 (· &&& 0x7F)) 16 16) = leNat (slice b 16 16) % 2 ^ 127 := by
  rw [leNat_upper_modify_last h, toNat_and_0x7F, slice_getD_last]
  omega

/-- `pt_decode` past the guard (R171). -/
theorem ptDecode_slice (cfg : Config) {sn : Snap} (hguard : (sn.bytes.getD 15 0).toNat < 128) :
    ptDecode cfg (slice sn.bytes 0 32) = ptDecodeY cfg (encodedY sn) (encodedSign sn) := by
  have hbit : ¬(byteAt (slice sn.bytes 0 32) 15).getLsbD 7 = true := by
    rw [byteAt_slice (by decide), getLsbD_seven, decide_eq_true_eq]
    omega
  have hy : f2Dec ((slice sn.bytes 0 32).modify 31 (· &&& 0x7F)) = encodedY sn := by
    rw [f2Dec, fpDec, fpDec, leNat_upper_clearTop (slice_length _ _ _), slice_modify_of_le (by decide),
      slice_slice (by decide), slice_slice (by decide)]
    rfl
  rw [ptDecode, if_neg hbit, hy, byteAt_slice (by decide), topBit_byte31]
  rfl

theorem ptDecode_of_topBit (cfg : Config) {sn : Snap} (hguard : 128 ≤ (sn.bytes.getD 15 0).toNat) :
    ptDecode cfg (slice sn.bytes 0 32) = .error .noncanonical := by
  have hbit : (byteAt (slice sn.bytes 0 32) 15).getLsbD 7 = true := by
    rw [byteAt_slice (by decide), getLsbD_seven, decide_eq_true hguard]
  rw [ptDecode, if_pos hbit]

/-! ## PT_DEC -/

/-- PT_DEC by its length register (R171). -/
theorem ptDecCmd_of_bad_length (cfg : Config) {sn : Snap} (h : sn.len0.toNat ≠ 32) :
    ptDecCmd cfg sn = .error .invalidLength := by
  rw [ptDecCmd, Snap.bytesOperand_eq_none.mpr h]

theorem ptDecCmd_of_length (cfg : Config) {sn : Snap} (h : sn.len0.toNat = 32) :
    ptDecCmd cfg sn = ptDecode cfg (slice sn.bytes 0 32) >>= retPt := by
  rw [ptDecCmd, Snap.bytesOperand_eq_some.mpr ⟨h, rfl⟩]

/-- PT_DEC raises what `pt_decode` raises, and publishes the point it answers (R171). -/
theorem ptDec_completes_of_error {s : State} {sn : Snap} {e : ErrCode} (hs : s.snap = some sn)
    (hlen : sn.len0.toNat = 32) (h : ptDecode coreConfig (slice sn.bytes 0 32) = .error e) :
    CompletesErr .ptDec s (errNumber e) [] := by
  have herr : ptDecCmd coreConfig sn = .error e := by
    rw [ptDecCmd_of_length coreConfig hlen, h]
    rfl
  exact completesErr_of_runOf hs (congrArg (CmdRun.mk · []) herr)

theorem ptDec_completes_of_ok {s : State} {sn : Snap} {a : Affine} (hs : s.snap = some sn)
    (hlen : sn.len0.toNat = 32) (h : ptDecode coreConfig (slice sn.bytes 0 32) = .ok (ptFromAffine a)) :
    CompletesOk .ptDec s (f2Bytes a.x ++ f2Bytes a.y ++ f2Bytes f2One ++ f2Bytes (f2Mul a.x a.y)) false [] := by
  have hok : ptDecCmd coreConfig sn = retPt (ptFromAffine a) := by
    rw [ptDecCmd_of_length coreConfig hlen, h]
    rfl
  exact completesOk_of_retPt (p := ptFromAffine a) hs (congrArg (CmdRun.mk · []) hok)

/-- Settles O47. -/
theorem ptDecChecksLengthThenGuard : Obligations.PtDecChecksLengthThenGuard := by
  refine ⟨decode_encode .ptDec, fun s sn hs => ⟨fun hlen => ?_, fun hlen hguard => ?_⟩⟩
  · have herr := ptDecCmd_of_bad_length coreConfig hlen
    exact completesErr_of_runOf (e := .invalidLength) hs (congrArg (CmdRun.mk · []) herr)
  · exact ptDec_completes_of_error (e := .noncanonical) hs hlen (ptDecode_of_topBit coreConfig hguard)

/-- Settles O48: the bytes parse to the y and the sign of the point, and its y decides. -/
theorem ptDecInvertsPtEnc : Obligations.PtDecInvertsPtEnc := by
  intro s sn x y hs hlen hcurve hlow hhigh
  have hre := Fp.val_lt_two_pow y.re
  have him := Fp.val_lt_two_pow y.im
  have hguard : (sn.bytes.getD 15 0).toNat < 128 := by
    rw [byte15_toNat, hlow]
    omega
  have hy : encodedY sn = y := by
    have hmod : (y.im.val + 2 ^ 127 * xSign x) % 2 ^ 127 = y.im.val := by omega
    rw [encodedY, hlow, hhigh, hmod]
    exact congrArg₂ Fp2.mk (Fin.ext (Nat.mod_eq_of_lt y.re.isLt)) (Fin.ext (Nat.mod_eq_of_lt y.im.isLt))
  have hsign : encodedSign sn = xSign x := by
    rw [encodedSign, hhigh]
    omega
  have hdecode := ptDecode_slice coreConfig hguard
  rw [hy, hsign] at hdecode
  exact ⟨fun hx => ptDec_completes_of_ok hs hlen (hdecode.trans (ptDecodeY_of_onCurve hcurve hx fun _ => rfl)),
    fun hre0 him0 => ptDec_completes_of_error hs hlen (hdecode.trans (ptDecodeY_of_gap _ hcurve hre0 him0))⟩

/-- For y² = 1 the point (0, y) is on the curve (R171 corner case 1). -/
theorem onCurve_f2Zero {cfg : Config} {y : Fp2} (h : f2Sqr y = f2One) :
    ptOnCurve cfg { x := f2Zero, y := y } = true := by
  rw [ptOnCurve_iff, h]
  apply quad_injective
  simp

theorem f2Mul_f2Zero_left (y : Fp2) : f2Mul f2Zero y = f2Zero := by
  apply quad_injective
  simp

/-- Settles O60: PT_DEC publishes what `pointOfRoot` makes of the root. -/
theorem ptDecDecidesByTheRoot : Obligations.PtDecDecidesByTheRoot := by
  rintro s sn y _ _ sign hs hlen hguard hy rfl rfl hsign
  obtain rfl : y = encodedY sn := hy
  obtain rfl : sign = encodedSign sn := hsign
  obtain ⟨u, root, hu, hroot, hpoint⟩ := ptDecodeY_decides (encodedY sn)
  have hdecode := (ptDecode_slice coreConfig hguard).trans (hpoint (encodedSign sn))
  refine ⟨decodeDivisor_ne_zero _, u, root, hu, hroot, f2Sqrt_eq_none_iff hroot, ?_, ?_, fun hone => ?_⟩
  · rintro rfl
    exact ptDec_completes_of_error (e := .noRoot) hs hlen hdecode
  · rintro x0 x rfl hx
    obtain rfl : x = signedRoot x0 (encodedSign sn) := hx
    have hok := ptDec_completes_of_ok hs hlen hdecode
    exact ⟨f2Sqr_of_f2Sqrt hroot, hok⟩
  · have hzero := ptDecodeY_of_onCurve (sign := encodedSign sn) (onCurve_f2Zero hone) (.inr rfl) (absurd rfl)
    have hok := ptDec_completes_of_ok hs hlen ((ptDecode_slice coreConfig hguard).trans hzero)
    rwa [f2Mul_f2Zero_left] at hok

/-! ## What PT_DEC can publish -/

/-- A command has one next state: what it completes with is what that state shows (R221). -/
theorem CompletesOk.published {i : Instr} {s t : State} {out : List Byte} {flag : Bool} {calls : List (List Byte)}
    (h : CompletesOk i s out flag calls) (ht : exec i s = .next t) : Published s t out flag calls := by
  obtain ⟨t', ht', hpub⟩ := h
  cases ht.symm.trans ht'
  exact hpub

theorem CompletesErr.status_err {i : Instr} {s t : State} {code : BitVec 8} {calls : List (List Byte)}
    (h : CompletesErr i s code calls) (ht : exec i s = .next t) : t.status.err = true := by
  obtain ⟨t', ht', hraised⟩ := h
  cases ht.symm.trans ht'
  rw [hraised.status]

/-- Settles O49: of the cases of PT_DEC only a root found raises nothing. -/
theorem ptDecPublishesACurvePoint : Obligations.PtDecPublishesACurvePoint := by
  intro s t sn hs hexec herr
  obtain ⟨-, hchecks⟩ := ptDecChecksLengthThenGuard
  obtain ⟨hbadLength, hbadGuard⟩ := hchecks s sn hs
  have hnoErr : ∀ code, ¬CompletesErr .ptDec s code [] := fun code h =>
    Bool.false_ne_true (herr.symm.trans (h.status_err hexec))
  have hlen : sn.len0.toNat = 32 := by
    by_contra h
    exact hnoErr _ (hbadLength h)
  have hguard : (sn.bytes.getD 15 0).toNat < 128 := by
    by_contra h
    exact hnoErr _ (hbadGuard hlen (Nat.not_lt.mp h))
  obtain ⟨u, root, hu, hroot, hpoint⟩ := ptDecodeY_decides (encodedY sn)
  have hdecode := (ptDecode_slice coreConfig hguard).trans (hpoint (encodedSign sn))
  cases root with
  | none => exact absurd (ptDec_completes_of_error hs hlen hdecode) (hnoErr _)
  | some x0 =>
    have hx0 := (f2Sqr_signedRoot x0 (encodedSign sn)).trans (f2Sqr_of_f2Sqrt hroot)
    exact ⟨signedRoot x0 (encodedSign sn), encodedY sn, hlen, hguard, (f2Sqr_eq_iff_onCurve hu).mp hx0, rfl, rfl,
      xSign_signedRoot (encodedSign_le_one sn), (ptDec_completes_of_ok hs hlen hdecode).published hexec⟩

end Sys2Proof.Machine
end

section
/-! PROOFS, family 44_scalar.md: what the scalar functions hold as integers (R190, R192), and the three commands on
unreduced operands (R190 to R192). -/

namespace Sys2Proof.Machine

/-! ## The commands -/

/-- A command that returns one scalar publishes its bytes, FLAG 0 (R79). -/
theorem completesOk_of_retSc {i : Instr} {s : State} {sn : Snap} {b : List Byte} (hs : s.snap = some sn)
    (h : runOf i sn = { outcome := retSc b, xofCalls := [] }) : CompletesOk i s b false [] :=
  completesOk_of_runOf hs h

theorem scReduce_slot (sn : Snap) (j : Nat) :
    scReduce coreConfig (sn.slot j) = bytesN 32 (scVal sn j % orderQ) := rfl

theorem scMul_slot (sn : Snap) (j k : Nat) :
    scMul coreConfig (sn.slot j) (sn.slot k) = bytesN 32 (scVal sn j * scVal sn k % orderQ) := rfl

theorem scSub_slot (sn : Snap) (j k : Nat) :
    scSub coreConfig (sn.slot j) (sn.slot k)
      = bytesN 32 (((scVal sn j : Int) - scVal sn k) % orderQ).toNat := rfl

/-- Settles O53: an operand is the whole slot, so each function meets the unreduced integers. -/
theorem scalarCommandsPublishResidues : Obligations.ScalarCommandsPublishResidues := by
  refine ⟨decode_encode .scRed, decode_encode .scMul, decode_encode .scSub, fun s sn hs => ⟨?red, ?mul, ?sub⟩⟩
  case red =>
    rw [← scReduce_slot]
    exact completesOk_of_retSc hs rfl
  case mul =>
    rw [← scMul_slot]
    exact completesOk_of_retSc hs rfl
  case sub =>
    rw [← scSub_slot]
    exact completesOk_of_retSc hs rfl

/-! ## The functions, for every modulus that fits 32 bytes -/

section Modulus

variable {cfg : Config}

/-- A value below the modulus survives its 32 bytes. -/
theorem leNat_bytesN_of_lt_q (hq : cfg.q < 2 ^ 256) {v : Nat} (hv : v < cfg.q) : leNat (bytesN 32 v) = v :=
  leNat_bytesN_of_lt (by omega)

/-- `sc_reduce` (R190). -/
theorem leNat_scReduce (hpos : 0 < cfg.q) (hq : cfg.q < 2 ^ 256) (a : List Byte) :
    leNat (scReduce cfg a) = leNat a % cfg.q :=
  leNat_bytesN_of_lt_q hq (Nat.mod_lt _ hpos)

/-- `sc_reduce` sees no more of its operand than the residue. -/
theorem scReduce_congr {a b : List Byte} (h : leNat a % cfg.q = leNat b % cfg.q) :
    scReduce cfg a = scReduce cfg b := congrArg (bytesN 32) h

/-- `sc_sub`, as the residue in [0, Q) of an integer that may be negative (R192). -/
theorem leNat_scSub (hpos : 0 < cfg.q) (hq : cfg.q < 2 ^ 256) (a b : List Byte) :
    (leNat (scSub cfg a b) : Int) = ((leNat a : Int) - leNat b) % cfg.q := by
  have hlt := Int.emod_lt_of_pos ((leNat a : Int) - leNat b) (Int.natCast_pos.mpr hpos)
  have hnonneg := Int.emod_nonneg ((leNat a : Int) - leNat b) (Int.natCast_pos.mpr hpos).ne'
  have hbytes : leNat (scSub cfg a b) = (((leNat a : Int) - leNat b) % cfg.q).toNat :=
    leNat_bytesN_of_lt_q hq ((Int.toNat_lt hnonneg).mpr hlt)
  rw [hbytes, Int.toNat_of_nonneg hnonneg]

/-- For reduced operands the difference is out of [0, Q) only by underflow, and then by one Q (E4). -/
theorem leNat_scSub_of_lt (hpos : 0 < cfg.q) (hq : cfg.q < 2 ^ 256) {a b : List Byte} (ha : leNat a < cfg.q)
    (hb : leNat b < cfg.q) :
    leNat (scSub cfg a b) = if leNat b ≤ leNat a then leNat a - leNat b else leNat a + cfg.q - leNat b := by
  have hsub := leNat_scSub hpos hq a b
  split
  case isTrue hle =>
    rw [Int.emod_eq_of_lt (by omega) (by omega)] at hsub
    omega
  case isFalse hlt =>
    rw [← Int.add_emod_right, Int.emod_eq_of_lt (by omega) (by omega)] at hsub
    omega

end Modulus

/-- Settles O54: a reduced value is its own residue. -/
theorem scalarReductionLaws : Obligations.ScalarReductionLaws := by
  intro cfg a b hpos hq
  have hval := leNat_scReduce hpos hq a
  refine ⟨scReduce_congr ?_, ?_, leNat_scSub_of_lt hpos hq⟩
  · rw [hval, Nat.mod_mod]
  · rw [hval]
    exact Nat.mod_lt _ hpos

end Sys2Proof.Machine
end

section
/-! PROOFS, family 45_protocol.md: what KEYGEN, SIGN and VERIFY publish, and what they present at the hash (R200 to
R205). -/

namespace Sys2Proof.Machine

/-! ## Scalars modulo the supplied Q -/

theorem coreConfig_q_pos : 0 < coreConfig.q := by decide

theorem coreConfig_q_lt : coreConfig.q < 2 ^ 256 := by decide

/-- `sc_reduce` on the constants supplied (R190). -/
theorem leNat_scReduce_core (a : List Byte) : leNat (scReduce coreConfig a) = leNat a % orderQ :=
  leNat_scReduce coreConfig_q_pos coreConfig_q_lt a

/-- `sc_mul` (R191). -/
theorem leNat_scMul_core (a b : List Byte) : leNat (scMul coreConfig a b) = leNat a * leNat b % orderQ :=
  leNat_bytesN_of_lt_q coreConfig_q_lt (Nat.mod_lt _ coreConfig_q_pos)

/-- Steps 5 to 7 of SIGN as integers: the product need not be reduced before it is subtracted (R203). -/
theorem scSub_scMul_core (t k h : List Byte) :
    scSub coreConfig t (scMul coreConfig k h)
      = bytesN 32 (((leNat t : Int) - leNat k * leNat h) % orderQ).toNat := by
  have hmul : (leNat (scMul coreConfig k h) : Int) = (leNat k : Int) * leNat h % orderQ := by
    rw [leNat_scMul_core]
    push_cast
    rfl
  have hmod : ((leNat t : Int) - leNat (scMul coreConfig k h)) % orderQ
      = ((leNat t : Int) - leNat k * leNat h) % orderQ := by
    rw [hmul, Int.sub_emod_emod]
  exact congrArg (fun v : Int => bytesN 32 v.toNat) hmod

/-! ## KEYGEN -/

theorem keygenFrom_of_encode {cfg : Config} {subSeed e : List Byte}
    (h : ptEncode (ptSmulBase cfg (leNat (slice (hash64 cfg subSeed) 0 32) % cfg.q)) = .ok e) :
    keygenFrom cfg subSeed = { outcome := .ok { out := e, flag := false }, xofCalls := [subSeed] } := by
  rw [keygenFrom, h]
  rfl

/-- Settles O55: the length decides; past it the run is the encoding of k·G. -/
theorem keygenPublishesThePublicKey : Obligations.KeygenPublishesThePublicKey := by
  refine ⟨decode_encode .keygen, ?_⟩
  rintro s sn _ E k hs rfl hk
  refine ⟨fun hlen => ?_, fun hlen henc => ?_⟩
  · exact completesErr_of_runOf (e := .invalidLength) hs (keygenCmd_of_bad_length hlen)
  · rw [hk] at henc
    have hrun := (keygenCmd_of_length (cfg := coreConfig) hlen).trans (keygenFrom_of_encode henc)
    exact completesOk_of_runOf (i := .keygen) hs hrun

/-! ## SIGN -/

/-- Steps 4 to 7 of SIGN on the constants supplied (R203). -/
theorem signFrom_core (h1 h2 renc pk md : List Byte) :
    signFrom coreConfig h1 h2 renc pk md
      = renc ++ bytesN 32 ((((leNat (slice h2 0 32) % orderQ : Nat) : Int)
          - (leNat (slice h1 0 32) % orderQ : Nat)
            * (leNat (slice (hash64 coreConfig (transcript renc pk md)) 0 32) % orderQ : Nat)) % orderQ).toNat := by
  rw [signFrom, scSub_scMul_core, leNat_scReduce_core, leNat_scReduce_core, leNat_scReduce_core]

/-- Settles O56: the lengths decide; past them the run is Renc and the scalar of `signFrom_core`. -/
theorem signPublishesTheSignature : Obligations.SignPublishesTheSignature := by
  refine ⟨decode_encode .sign, ?_⟩
  rintro s sn _ _ _ _ renc r h k hs rfl rfl rfl rfl hr hh hk
  refine ⟨fun hlens => ?_, fun hlen0 hlen1 hlen2 henc => ?_⟩
  · exact completesErr_of_runOf (e := .invalidLength) hs (signCmd_of_bad_lengths hlens)
  · rw [hr] at henc
    have hrun := (signCmd_of_lengths (cfg := coreConfig) ⟨hlen0, hlen1, hlen2⟩).trans
      (signWith_of_encode (slice sn.bytes 32 32) henc)
    rw [signFrom_core] at hrun
    rw [hr, hh, hk]
    exact completesOk_of_runOf (i := .sign) hs hrun

/-! ## VERIFY: the equation -/

/-- VERIFY's comparison holds exactly when the encoding of s·G + h·A exists and is Renc (R205, D27). -/
theorem verifyEquation_iff {cfg : Config} {a : Point} {renc sBytes h64 : List Byte} :
    verifyEquation cfg a renc sBytes h64 = true ↔
      ptEncode (ptAdd cfg (ptSmulBase cfg (leNat (scReduce cfg sBytes)))
        (ptSmul cfg a (leNat (scReduce cfg (slice h64 0 32))))) = .ok renc := by
  unfold verifyEquation
  dsimp only
  split
  · next e he => simp [he]
  · next e he => simp [he]

/-! ## VERIFY: the checks before the hash -/

theorem pkStructure_iff {b : List Byte} (h : b.length = 32) :
    pkStructure b = true ↔ (b.getD 15 0).toNat < 128 := by
  have hself : slice b 0 32 = b := h ▸ slice_self
  rw [← hself, pkStructure_slice, hself, decide_eq_true_iff]

theorem sigStructure_iff {b : List Byte} (h : b.length = 64) :
    sigStructure b = true ↔ (b.getD 15 0).toNat < 128 ∧ (b.getD 62 0).toNat < 64 ∧ (b.getD 63 0).toNat = 0 := by
  have hself : slice b 0 64 = b := h ▸ slice_self
  rw [← hself, sigStructure_slice, hself, decide_eq_true_iff]

/-- What VERIFY tests before it decodes the key: the lengths, then the structures of the key and of the signature
(R205). `validators_iff` ties the structures to the validators, `verifyCmd_of_pass` and `verifyCmd_of_fail` the whole to
VERIFY. -/
def VerifyOperandsPass (sn : Snap) : Prop :=
  sn.len0.toNat = 32 ∧ sn.len1.toNat = 32 ∧ sn.len2.toNat = 64 ∧ ((slice sn.bytes 0 32).getD 15 0).toNat < 128
    ∧ ((slice sn.bytes 64 64).getD 15 0).toNat < 128 ∧ ((slice sn.bytes 64 64).getD 62 0).toNat < 64
    ∧ ((slice sn.bytes 64 64).getD 63 0).toNat = 0

/-- The tests as the statement lists them. -/
theorem verifyOperandsPass_and_iff {sn : Snap} {p : Prop} :
    VerifyOperandsPass sn ∧ p ↔
      sn.len0.toNat = 32 ∧ sn.len1.toNat = 32 ∧ sn.len2.toNat = 64 ∧ ((slice sn.bytes 0 32).getD 15 0).toNat < 128
        ∧ ((slice sn.bytes 64 64).getD 15 0).toNat < 128 ∧ ((slice sn.bytes 64 64).getD 62 0).toNat < 64
        ∧ ((slice sn.bytes 64 64).getD 63 0).toNat = 0 ∧ p := by
  simp only [VerifyOperandsPass, and_assoc]

/-- The validators pass on operands of 32 and 64 bytes exactly when their structures are those of R174 and R175. -/
theorem validators_iff {pk sig : List Byte} (hpk : pk.length = 32) (hsig : sig.length = 64) :
    (validPk pk.length pk = true ∧ validSig sig.length sig = true) ↔
      (pk.getD 15 0).toNat < 128 ∧ (sig.getD 15 0).toNat < 128 ∧ (sig.getD 62 0).toNat < 64
        ∧ (sig.getD 63 0).toNat = 0 := by
  simp only [validPk, validSig, hpk, hsig, beq_self_eq_true, Bool.true_and, pkStructure_iff hpk, sigStructure_iff hsig]

/-- VERIFY past every check: the hash is called with the transcript, and the equation is the flag (R205). -/
theorem verifyWith_of_pass {cfg : Config} {pk sig : List Byte} {a : Point} (md : List Byte)
    (hvalid : validPk pk.length pk = true ∧ validSig sig.length sig = true) (ha : ptDecode cfg pk = .ok a) :
    verifyWith cfg pk md sig =
      { outcome := retFlag (verifyEquation cfg a (slice sig 0 32) (slice sig 32 32)
          (hash64 cfg (transcript (slice sig 0 32) pk md)))
        xofCalls := [transcript (slice sig 0 32) pk md] } := by
  simp [verifyWith, hvalid, ha]

/-- VERIFY with a check failed: false, and nothing hashed (R205). -/
theorem verifyWith_of_fail {cfg : Config} {pk sig : List Byte} (md : List Byte)
    (h : ¬((validPk pk.length pk = true ∧ validSig sig.length sig = true) ∧ ∃ a, ptDecode cfg pk = .ok a)) :
    verifyWith cfg pk md sig = noCalls (retFlag false) := by
  unfold verifyWith
  split
  · rfl
  · next hpk =>
    split
    · rfl
    · next hsig =>
      split
      · rfl
      · next a ha => exact absurd ⟨by simpa using And.intro hpk hsig, a, ha⟩ h

/-- VERIFY by its three length registers (R205). -/
theorem verifyCmd_of_lengths {cfg : Config} {sn : Snap}
    (h : sn.len0.toNat = 32 ∧ sn.len1.toNat = 32 ∧ sn.len2.toNat = 64) :
    verifyCmd cfg sn = verifyWith cfg (slice sn.bytes 0 32) (slice sn.bytes 32 32) (slice sn.bytes 64 64) := by
  simp [verifyCmd, Snap.bytesOperand, h]

theorem verifyCmd_of_bad_lengths {cfg : Config} {sn : Snap}
    (h : ¬(sn.len0.toNat = 32 ∧ sn.len1.toNat = 32 ∧ sn.len2.toNat = 64)) :
    verifyCmd cfg sn = noCalls (retFlag false) := by
  unfold verifyCmd
  split
  · next h0 h1 h2 =>
    simp only [Snap.bytesOperand_eq_some] at h0 h1 h2
    exact absurd ⟨h0.1, h1.1, h2.1⟩ h
  · rfl

theorem verifyCmd_of_pass {cfg : Config} {sn : Snap} {a : Point} (h : VerifyOperandsPass sn)
    (ha : ptDecode cfg (slice sn.bytes 0 32) = .ok a) :
    verifyCmd cfg sn =
      { outcome := retFlag (verifyEquation cfg a (slice (slice sn.bytes 64 64) 0 32)
          (slice (slice sn.bytes 64 64) 32 32)
          (hash64 cfg (transcript (slice (slice sn.bytes 64 64) 0 32) (slice sn.bytes 0 32) (slice sn.bytes 32 32))))
        xofCalls :=
          [transcript (slice (slice sn.bytes 64 64) 0 32) (slice sn.bytes 0 32) (slice sn.bytes 32 32)] } := by
  obtain ⟨hlen0, hlen1, hlen2, hstructure⟩ := h
  have hvalid := (validators_iff (slice_length sn.bytes 0 32) (slice_length sn.bytes 64 64)).mpr hstructure
  rw [verifyCmd_of_lengths ⟨hlen0, hlen1, hlen2⟩, verifyWith_of_pass _ hvalid ha]

theorem verifyCmd_of_fail {cfg : Config} {sn : Snap}
    (h : ¬(VerifyOperandsPass sn ∧ ∃ a, ptDecode cfg (slice sn.bytes 0 32) = .ok a)) :
    verifyCmd cfg sn = noCalls (retFlag false) := by
  by_cases hlens : sn.len0.toNat = 32 ∧ sn.len1.toNat = 32 ∧ sn.len2.toNat = 64
  · rw [verifyCmd_of_lengths hlens]
    refine verifyWith_of_fail _ fun ⟨hvalid, hdecode⟩ => h ⟨?_, hdecode⟩
    obtain ⟨hlen0, hlen1, hlen2⟩ := hlens
    exact ⟨hlen0, hlen1, hlen2, (validators_iff (slice_length _ _ _) (slice_length _ _ _)).mp hvalid⟩
  · exact verifyCmd_of_bad_lengths hlens

/-! ## VERIFY -/

/-- A command that returns a flag after calls on the XOF port publishes no bytes (R79). -/
theorem completesOk_of_retFlag_calls {i : Instr} {s : State} {sn : Snap} {flag : Bool} {calls : List (List Byte)}
    (hs : s.snap = some sn) (h : runOf i sn = { outcome := retFlag flag, xofCalls := calls }) :
    CompletesOk i s [] flag calls := completesOk_of_runOf hs h

/-- Settles O57: either every check before the hash passes, and the equation is the flag, or one fails, and the flag is
0 with no call. -/
theorem verifyNeverRaises : Obligations.VerifyNeverRaises := by
  refine ⟨decode_encode .verify, ?_⟩
  rintro s sn _ _ _ h z hs rfl rfl rfl hh hz
  simp only [← verifyOperandsPass_and_iff]
  by_cases hpass : VerifyOperandsPass sn ∧ ∃ a, ptDecode coreConfig (slice sn.bytes 0 32) = .ok a
  · obtain ⟨hoperands, a, ha⟩ := hpass
    refine ⟨_, _, completesOk_of_retFlag_calls (i := .verify) hs (verifyCmd_of_pass hoperands ha), ?_, .inr rfl, ?_⟩
    · rw [verifyEquation_iff, leNat_scReduce_core, leNat_scReduce_core, hh, hz]
      simp [hoperands, ha, hash64, transcript]
    · simp [hoperands, ha]
  · refine ⟨false, [], completesOk_of_retFlag_calls (i := .verify) hs (verifyCmd_of_fail hpass), ?_, .inl rfl, ?_⟩
    · exact iff_of_false Bool.false_ne_true fun ⟨hoperands, a, ha, _⟩ => hpass ⟨hoperands, a, ha⟩
    · exact iff_of_false (· rfl) hpass

end Sys2Proof.Machine
end

section
/-! PROOFS, family 46_system.md: the life of a command. Accept (R220), the host's accesses while it is in flight, its
completion (R221), and NOP (R222). -/

namespace Sys2Proof.Machine

/-! ## Completion -/

/-- CORE's own step, with a command in flight, is Complete: DONE is set and all but OUT is kept (R221). -/
theorem coreStep_completes {s : State} (hbusy : s.busy = true) :
    ∃ t, coreStep s = .next t ∧ t.busy = false ∧ t.status.done = true ∧ CompleteFrame s t := by
  obtain ⟨sn, hsn⟩ := s.busy_iff_snap.mp hbusy
  exact ⟨_, coreStep_of_snap hsn, State.complete_busy _ _, State.complete_done _ _, completeFrame_complete _ _⟩

/-- Settles O7: with an empty script the step is CORE's own. -/
theorem commandInFlightCompletes : Obligations.CommandInFlightCompletes := by
  intro s hbusy hs
  rw [step_nil hs]
  exact coreStep_completes hbusy

/-! ## Completion while the host goes on -/

/-- A legal access of the host goes on, and leaves the command in flight as it is (R27, R53, R54, R266). -/
theorem step_access_of_busy {s : State} {e : Event} {es : List Event} (hbusy : s.busy = true)
    (hs : s.script = e :: es) (hlegal : eventLegal e = true) (hrst : e ≠ .rst) (hcore : e ≠ .core) :
    ∃ t, step s = .next t ∧ t.busy = true ∧ t.cmd = s.cmd ∧ t.script = es := by
  cases e with
  | winRead off n =>
    obtain ⟨d, hd⟩ := State.winRead_of_legal { s with script := es } hlegal
    exact ⟨_, step_winRead_of_some hs hd, hbusy, rfl, rfl⟩
  | winWrite off n v =>
    simp only [eventLegal, Bool.and_eq_true, decide_eq_true_iff] at hlegal
    obtain ⟨haccess, hv⟩ := hlegal
    obtain ⟨t, ht⟩ := State.winWrite_of_legal { s with script := es } haccess hv
    obtain ⟨hcmd, hsnap⟩ := State.winWrite_of_busy (s := { s with script := es }) hbusy ht
    refine ⟨t, step_winWrite_of_some hs ht, ?_, hcmd, State.winWrite_script ht⟩
    rw [State.busy, hsnap]
    exact hbusy
  | rst => exact absurd rfl hrst
  | core => exact absurd rfl hcore

/-- One step that goes on is a run of one step. -/
theorem run_one {s t : State} (h : step s = .next t) : Host.Core.run core 1 s = .next t := run_succ (M := core) h

/-- Settles O8, by induction on the script: CORE's turn, or the end of the script, completes; an access leaves the
command in flight to the rest of the script. -/
theorem commandCompletesWithinTheScript : Obligations.CommandCompletesWithinTheScript := by
  intro s
  induction hs : s.script generalizing s with
  | nil =>
    intro hbusy _
    obtain ⟨t, hstep, hidle, hdone, hframe⟩ := commandInFlightCompletes s hbusy hs
    exact ⟨1, t, by simp, run_one hstep, hidle, hdone, hframe.cmd⟩
  | cons e es ih =>
    intro hbusy hscript
    obtain ⟨⟨hrst, hlegal⟩, hrest⟩ := List.forall_mem_cons.mp hscript
    by_cases hcore : e = .core
    · subst hcore
      obtain ⟨t, hstep, hidle, hdone, hframe⟩ := coreStep_completes (s := { s with script := es }) hbusy
      exact ⟨1, t, by simp, run_one ((step_cons hs).trans hstep), hidle, hdone, hframe.cmd⟩
    · obtain ⟨u, hstep, hbusyu, hcmdu, hsu⟩ := step_access_of_busy hbusy hs hlegal hrst hcore
      obtain ⟨k, t, hk, hrun, hidle, hdone, hcmd⟩ := ih u hsu hbusyu hrest
      refine ⟨k + 1, t, ?_, (run_succ (M := core) hstep).trans hrun, hidle, hdone, hcmd.trans hcmdu⟩
      rw [List.length_cons]
      omega

/-! ## Accept -/

/-- SNAP holds the bytes of IN (R27, R220). -/
theorem State.takeSnap_getD (s : State) {k : Nat} (hk : k < 256) :
    s.takeSnap.bytes.getD k 0 = s.mem.read (0x100 + k) := by
  rw [State.takeSnap_bytes, Memory.readRange_getD]
  exact if_pos hk

/-- Accept leaves STATUS with BUSY alone (R25, R220). -/
theorem State.accept_statusWord (s : State) (w : Word) : (s.accept w).statusWord = 0x00000001 := by
  rw [State.statusWord_eq, State.accept_status, State.accept_busy]
  decide

/-- Accept leaves every byte outside OUT (R220). -/
theorem State.accept_read_of_not_out (s : State) (w : Word) {a : Nat} (ha : isOut a = false) :
    (s.accept w).mem.read a = s.mem.read a := by
  rw [State.accept_mem, Memory.read_setOut]
  exact if_neg (Bool.eq_false_iff.mp ha)

/-- Settles O14: the step is Accept, and the snapshot is the one it takes. -/
theorem acceptTakesTheSnapshot : Obligations.AcceptTakesTheSnapshot := by
  intro s w es hidle hs
  exact ⟨_, State.takeSnap { s with script := es }, step_winWrite_cmd_of_idle hidle hs, rfl, rfl,
    Memory.readRange_length _ _ _, fun k hk => State.takeSnap_getD _ hk, rfl, rfl, rfl,
    State.accept_statusWord _ w, fun k hk => Memory.setOut_read_out _ [] hk,
    fun a ha => State.accept_read_of_not_out _ w ha, rfl, rfl, rfl, rfl, rfl⟩

/-! ## The command that runs -/

/-- While BUSY CORE's own step is the meaning of the command in CMD (R221). -/
theorem coreStep_eq_exec {s : State} {i : Instr} (hbusy : s.busy = true) (hd : decode s.cmd = .ok i) :
    coreStep s = exec i s := by
  simp [coreStep, hbusy, hd]

/-- Settles O6: with an empty script, and at CORE's turn, the step is CORE's own. -/
theorem stepRunsTheDecodedCommand : Obligations.StepRunsTheDecodedCommand := by
  intro s i hbusy hd
  constructor
  · intro hs
    rw [step_nil hs, coreStep_eq_exec hbusy hd]
  · intro es hs
    rw [step_cons hs]
    exact coreStep_eq_exec (s := { s with script := es }) hbusy hd

/-! ## NOP -/

/-- Settles O26: the run of NOP is an empty return. -/
theorem nopWipesOut : Obligations.NopWipesOut :=
  ⟨decode_encode .nop, fun _ _ hs => completesOk_of_runOf (ret := { out := [], flag := false }) hs rfl⟩

end Sys2Proof.Machine
end

section
/-! PROOFS, families 60_exceptions.md and 70_reset_and_hazards.md: the errors that a command leaves in STATUS (R231,
R232), the reset step (R260), and the CMD write while BUSY (R266). -/

namespace Sys2Proof.Machine

/-! ## Errors -/

/-- An error that Complete leaves in STATUS is one that the run can raise (R221, R235). -/
theorem State.complete_errCode_mem {s : State} {r : CmdRun} {codes : List (BitVec 8)}
    (hraises : RaisesOnly codes r.outcome) (herr : (s.complete r).status.err = true) :
    (s.complete r).status.errCode ∈ codes := by
  obtain ⟨outcome, calls⟩ := r
  cases outcome with
  | ok ret => simp [(published_complete s ret calls).status] at herr
  | error e =>
    rw [(raised_complete s e calls).status]
    exact hraises e rfl

/-- Settles O24: `exec` completes with the command's run, which raises only what is listed. -/
theorem onlyTheListedErrorsAreRaised : Obligations.OnlyTheListedErrorsAreRaised := by
  intro i s t hexec herr
  obtain ⟨sn, -, rfl⟩ := exec_eq_next.mp hexec
  exact State.complete_errCode_mem (runOf_raises i sn) herr

/-! ## Reset -/

/-- Settles O2: the step is `applyReset`, which leaves CORE as it is at reset. -/
theorem resetStepClearsEverything : Obligations.ResetStepClearsEverything := by
  intro s es hs
  obtain ⟨hcmd, hstatus, hlen0, hlen1, hlen2, hmem, -, hsnap⟩ := resetLeavesEveryRegisterZero
  have hstep : step s = .next (State.applyReset { s with script := es }) := step_cons hs
  exact ⟨_, hstep, hcmd, hstatus, hlen0, hlen1, hlen2, hmem, hsnap, rfl, rfl⟩

/-! ## The CMD write while BUSY -/

/-- While BUSY the host's CMD write takes its event off the script, whatever the word (R266). -/
theorem step_winWrite_cmd_of_busy {s : State} {w : Word} {es : List Event} (hbusy : s.busy = true)
    (hs : s.script = .winWrite 0x000 4 w.toNat :: es) : step s = .next { s with script := es } := by
  apply step_winWrite_of_some hs
  rw [State.winWrite_cmd, State.writeCmd, if_pos]
  exact hbusy

/-- Settles O15: a value below 2^32 is the value of a word. -/
theorem cmdWriteWhileBusyIsIgnored : Obligations.CmdWriteWhileBusyIsIgnored := by
  intro s v es hbusy hv hs
  have hword : (BitVec.ofNat 32 v).toNat = v := (BitVec.toNat_ofNat v 32).trans (Nat.mod_eq_of_lt hv)
  exact step_winWrite_cmd_of_busy (w := BitVec.ofNat 32 v) hbusy (hword.symm ▸ hs)

end Sys2Proof.Machine
end
